-- ==== Sys2Proof/Word.lean ====
section
/-! DEFINITION. The word types of HUFFCORE (spec/00_scope.md rules R7, R8, R9): every value is an
unsigned bit vector of a fixed width, a stream is a finite sequence of bits, first bit first. -/

namespace Sys2Proof

/-- A literal value (`BYTEW` = 8, R7), and the command word (`CMDW` = 8, R8). -/
abbrev Byte := BitVec 8

/-- The Symbol field (`SYMW` = 9, R7): 0 to 255 literal, 256 the sentinel. -/
abbrev Sym := BitVec 9

/-- A frequency count or node weight (`WW` = 32, R8). -/
abbrev Count := BitVec 32

/-- A node index (`IDXW` = 10, R8). -/
abbrev Index := BitVec 10

/-- A code length (`LENW` = 9, R8). -/
abbrev CodeLen := BitVec 9

/-- A command code, CMD[3:0] (R80). -/
abbrev OpCode := BitVec 4

/-- A bit sequence, first bit first (R9). -/
abbrev Bits := List Bool

end Sys2Proof
end

