-- ==== Sys2Proof/Config.lean ====
section
/-! DEFINITION. The parameters of the implementation (spec/00_scope.md rules R7, R8) and the free
values: what the spec leaves open or calls unspecified. A free value is an opaque constant, so
nothing can be proved of its value. -/

namespace Sys2Proof.Config

/-- `SENT`, the sentinel Symbol (R7). -/
abbrev sentinel : Nat := 256

/-- `NSYM`, the size of FREQ and of CODE (R7). -/
abbrev nsym : Nat := 257

/-- `NODE_CAP`, the size of the node store (R8). -/
abbrev nodeCap : Nat := 513

/-- `MAXLEN`, the greatest code length (R8). -/
abbrev maxLen : Nat := 256

/-- `MAGIC` (R8, R86; 92_eei_decisions.md D4: OPEN, "a model must keep `MAGIC` a parameter").
Log entry 1. -/
opaque magic : BitVec 32

/-- A value of `w` bits that the spec calls unspecified: the `k`-th word of free draw number
`draw`. A host read of an invalid product (10_state.md R33) and the register files after a CLEAR
or reset (R36) take it. Log entries 5 and 6. -/
opaque freeWord (w draw k : Nat) : BitVec w

/-- The cursor of IN after an IOERR (20_memory.md R68: unspecified). Log entry 3. -/
opaque freePos (draw : Nat) : Nat

/-- `OUT.bits` after an IOERR (20_memory.md R68: unspecified). Log entry 3. -/
opaque freeStream (draw : Nat) : Bits

/-- `OUT.closed` after an IOERR (20_memory.md R68: unspecified). Log entry 3. -/
opaque freeFlag (draw : Nat) : Bool

end Sys2Proof.Config
end

