-- ==== Sys2Proof/Syntax.lean ====
section
/-! DEFINITION. Syntax: one constructor of `Instr` for each row of spec/opcode_table.json (the
fourteen command words of 30_encoding.md rule R81, the five stream tokens of rule R94), the fault
names of 60_exceptions.md rule R210, and the abstract tree of 00_scope.md rule R11. -/

namespace Sys2Proof

/-- The rows of spec/opcode_table.json. Commands have no operands (R80); a token carries the field
bits of its pattern (R86 to R90). -/
inductive Instr where
  /-- 0x00, 46_control.md R190. -/
  | clear
  /-- 0x01, 40_frequency.md R110. -/
  | count
  /-- 0x02, 41_tree_builder.md R120. -/
  | build
  /-- 0x03, 42_code_table.md R140. -/
  | derive
  /-- 0x04, 43_header_codec.md R150. -/
  | wrmagic
  /-- 0x05, 43_header_codec.md R152. -/
  | wrtree
  /-- 0x06, 44_stream_encoder.md R170. -/
  | encode
  /-- 0x07, 46_control.md R192. -/
  | close
  /-- 0x08, 46_control.md R194. -/
  | rewind
  /-- 0x09, 43_header_codec.md R156. -/
  | rdmagic
  /-- 0x0A, 43_header_codec.md R160. -/
  | rdtree
  /-- 0x0B, 45_stream_decoder.md R180. -/
  | decode
  /-- 0x0C, 46_control.md R196. -/
  | compress
  /-- 0x0D, 46_control.md R198. -/
  | decompress
  /-- Stream token MAGIC, 32 bits (R86). -/
  | magic (m : BitVec 32)
  /-- Stream token HDR_INTERNAL, the bit 0 (R87). -/
  | hdrInternal
  /-- Stream token HDR_LEAF, the bit 1 and a 9-bit Symbol (R87). -/
  | hdrLeaf (v : Sym)
  /-- Stream token CODEWORD: the `len` bits `bits_len(bits)` (R90, R12). -/
  | codeword (len : CodeLen) (bits : BitVec 256)
  /-- Stream token LITERAL8, 8 bits (R89). -/
  | literal8 (b : Byte)
deriving DecidableEq, Repr

/-- The faults the hardware records in ERR (R210). -/
inductive FaultCode where
  | fmtMagic | fmtHdrTrunc | fmtHdrBad | fmtStream | io | intNode | intLookup
  | seq | illCmd | overflow | intEmpty
deriving DecidableEq, Repr

/-- The abstract tree of R11: `Leaf(value) | Internal(left, right)`. -/
inductive Tree where
  | leaf (v : Sym)
  | node (l r : Tree)
deriving DecidableEq, Repr

/-- The tree of R11 with the weight added to every node: the type of `Tw(i)`. -/
inductive WTree where
  | leaf (v : Sym) (w : Count)
  | node (w : Count) (l r : WTree)
deriving DecidableEq, Repr

end Sys2Proof
end

