-- ==== Sys2Proof/WellFormed.lean ====
section
/-! DEFINITION. Well-formed instructions. A command word has no operands, so it is always well
formed (30_encoding.md R80). A stream token is well formed when a writer may produce it: the magic
equals MAGIC (R86), a leaf's Symbol is at most 256 (R89), a code word has 1 to 256 bits and no bit
at or above its length (R90, 10_state.md R25). -/

namespace Sys2Proof

/-- A pair (LEN, BITS) that stands for a code: 1 to 256 bits, bits at and above LEN zero (R25,
R90). -/
def codeFits (len : CodeLen) (bits : BitVec 256) : Bool :=
  decide (1 ≤ len.toNat) && decide (len.toNat ≤ Config.maxLen) && decide (bits.toNat < 2 ^ len.toNat)

/-- The checks on an instruction's fields. -/
def Instr.wellFormed : Instr → Bool
  | .clear => true
  | .count => true
  | .build => true
  | .derive => true
  | .wrmagic => true
  | .wrtree => true
  | .encode => true
  | .close => true
  | .rewind => true
  | .rdmagic => true
  | .rdtree => true
  | .decode => true
  | .compress => true
  | .decompress => true
  | .magic m => decide (m = Config.magic)
  | .hdrInternal => true
  | .hdrLeaf v => decide (v.toNat ≤ Config.sentinel)
  | .codeword len bits => codeFits len bits
  | .literal8 _ => true

end Sys2Proof
end

