-- ==== Sys2Proof/Decode.lean ====
section
/-! DEFINITION. Decoding and encoding: bit sequences and their values (00_scope.md R9), the packing
of bytes (20_memory.md R58), command words (30_encoding.md R80 to R83), stream tokens (R85 to R93),
fault and command numbers (R81, 60_exceptions.md R210), mnemonics (R81, R84), and the encoders of
the same tables. -/

namespace Sys2Proof

/-- `bits_n(v)` (R9): the n-bit field of `v`, most significant bit first. -/
def bitsOf : Nat → Nat → Bits
  | 0, _ => []
  | n + 1, v => v.testBit n :: bitsOf n v

/-- `val(q)` read onto the bits already seen: each bit doubles the value and adds itself. -/
def valFrom : Nat → Bits → Nat
  | acc, [] => acc
  | acc, b :: q => valFrom (2 * acc + b.toNat) q

/-- `val(q)` (R9): the number whose binary digits, most significant first, are `q`. -/
def valOf (q : Bits) : Nat := valFrom 0 q

/-- `val(q[k .. k + n - 1])` as an n-bit value (R52). -/
def fieldAt (n : Nat) (q : Bits) (k : Nat) : BitVec n := BitVec.ofNat n (valOf ((q.drop k).take n))

/-- The bit sequence of a byte file (R58): byte k is bits 8k to 8k + 7, the earlier bit the more
significant. -/
def bitsOfBytes : List Byte → Bits
  | [] => []
  | b :: bs => bitsOf 8 b.toNat ++ bitsOfBytes bs

/-- The successive 8-bit fields of a bit sequence from its first bit, at most `fuel` of them; 1 to
7 bits left at the end give none (R58, 40_frequency.md R113 (c)). -/
def bytesOfBitsAux : Nat → Bits → List Byte
  | 0, _ => []
  | fuel + 1, q => if 8 ≤ q.length then fieldAt 8 q 0 :: bytesOfBitsAux fuel (q.drop 8) else []

/-- The whole bytes of a bit sequence (R58). -/
def bytesOfBits (q : Bits) : List Byte := bytesOfBitsAux q.length q

/-- ERR.CODE of a fault (R210). -/
def FaultCode.code : FaultCode → BitVec 4
  | .fmtMagic => 1
  | .fmtHdrTrunc => 2
  | .fmtHdrBad => 3
  | .fmtStream => 4
  | .io => 5
  | .intNode => 6
  | .intLookup => 7
  | .seq => 8
  | .illCmd => 9
  | .overflow => 10
  | .intEmpty => 11

/-- The command codes OP of R81. -/
def opClear : OpCode := 0x0
def opCount : OpCode := 0x1
def opBuild : OpCode := 0x2
def opDerive : OpCode := 0x3
def opWrmagic : OpCode := 0x4
def opWrtree : OpCode := 0x5
def opEncode : OpCode := 0x6
def opClose : OpCode := 0x7
def opRewind : OpCode := 0x8
def opRdmagic : OpCode := 0x9
def opRdtree : OpCode := 0xA
def opDecode : OpCode := 0xB
def opCompress : OpCode := 0xC
def opDecompress : OpCode := 0xD

/-- A row of the opcode table in format CMD8: the word's bits under `mask` equal `pat`. -/
structure CommandRow where
  pat : Byte
  mask : Byte
  instr : Instr
deriving DecidableEq, Repr

/-- The CMD8 rows of spec/opcode_table.json, in its order; the mask is always 0xFF (R94). -/
def commandTable : List CommandRow :=
  [⟨0x00, 0xFF, .clear⟩, ⟨0x01, 0xFF, .count⟩, ⟨0x02, 0xFF, .build⟩, ⟨0x03, 0xFF, .derive⟩,
   ⟨0x04, 0xFF, .wrmagic⟩, ⟨0x05, 0xFF, .wrtree⟩, ⟨0x06, 0xFF, .encode⟩, ⟨0x07, 0xFF, .close⟩,
   ⟨0x08, 0xFF, .rewind⟩, ⟨0x09, 0xFF, .rdmagic⟩, ⟨0x0A, 0xFF, .rdtree⟩, ⟨0x0B, 0xFF, .decode⟩,
   ⟨0x0C, 0xFF, .compress⟩, ⟨0x0D, 0xFF, .decompress⟩]

/-- Why a command word names no command (R83). -/
inductive IllegalWord where
  /-- CMD[7:4] is not 0. -/
  | reservedBits
  /-- OP is 0xE or 0xF. -/
  | reservedOp
deriving DecidableEq, Repr

/-- What a command word decodes to. -/
inductive Decoded where
  | command (i : Instr)
  | illegal (why : IllegalWord)
deriving DecidableEq, Repr

/-- The field OP = CMD[3:0] (R80). -/
def opOf (w : Byte) : OpCode := w.extractLsb' 0 4

/-- Decoding a command word (R80, R81, R83). -/
def decodeCommand (w : Byte) : Decoded :=
  match commandTable.find? (fun r => w &&& r.mask == r.pat) with
  | some r => .command r.instr
  | none => if w.extractLsb' 4 4 = 0 then .illegal .reservedOp else .illegal .reservedBits

/-- Where in a stream a reader stands; it decides which tokens may come next (R85). -/
inductive Place where
  /-- The first field of a compressed stream (R86). -/
  | magic
  /-- Inside the tree header (R87). -/
  | header
  /-- In the encoded symbol stream of the tree `t` (R90). -/
  | symbols (t : Tree)
  /-- In an uncompressed stream (R64, R89). -/
  | plain
deriving DecidableEq, Repr

/-- What a reader finds at the front of a bit sequence. -/
inductive Token where
  /-- The token, and the bits after it. -/
  | token (i : Instr) (rest : Bits)
  /-- The content is illegal or cut short; the reader raises this fault (R93). -/
  | reject (f : FaultCode)
  /-- An uncompressed stream has no further whole value (R53): not an error. -/
  | ended
deriving DecidableEq, Repr

/-- The walk that finds the end of a code word (R90): from the tree reached by the path of length
`l` and pattern `p`, one step per bit to a leaf. `none` when the bits end first. -/
def codeWalk : Tree → Nat → Nat → Bits → Option (Nat × Nat × Bits)
  | .leaf _, l, p, q => some (l, p, q)
  | .node _ _, _, _, [] => none
  | .node a b, l, p, c :: q =>
    match c with
    | false => codeWalk a (l + 1) (2 * p) q
    | true => codeWalk b (l + 1) (2 * p + 1) q

/-- Decoding the token at the front of `q` (R86, R87, R89, R90, with the rejections of R93). -/
def decodeToken : Place → Bits → Token
  | .magic, q =>
    if q.length < 32 then .reject .fmtMagic
    else if fieldAt 32 q 0 = Config.magic then .token (.magic (fieldAt 32 q 0)) (q.drop 32)
    else .reject .fmtMagic
  | .header, [] => .reject .fmtHdrTrunc
  | .header, false :: q => .token .hdrInternal q
  | .header, true :: q =>
    if q.length < 9 then .reject .fmtHdrTrunc
    else if (fieldAt 9 q 0).toNat ≤ Config.sentinel then
      .token (.hdrLeaf (fieldAt 9 q 0)) (q.drop 9)
    else .reject .fmtHdrBad
  | .symbols t, q =>
    match codeWalk t 0 0 q with
    | some (l, p, rest) => .token (.codeword (BitVec.ofNat 9 l) (BitVec.ofNat 256 p)) rest
    | none => .reject .fmtStream
  | .plain, q => if q.length < 8 then .ended else .token (.literal8 (fieldAt 8 q 0)) (q.drop 8)

/-- The command word of a command, none of a stream token (R81). -/
def Instr.commandWord : Instr → Option Byte
  | .clear => some 0x00
  | .count => some 0x01
  | .build => some 0x02
  | .derive => some 0x03
  | .wrmagic => some 0x04
  | .wrtree => some 0x05
  | .encode => some 0x06
  | .close => some 0x07
  | .rewind => some 0x08
  | .rdmagic => some 0x09
  | .rdtree => some 0x0A
  | .decode => some 0x0B
  | .compress => some 0x0C
  | .decompress => some 0x0D
  | .magic _ => none
  | .hdrInternal => none
  | .hdrLeaf _ => none
  | .codeword _ _ => none
  | .literal8 _ => none

/-- The bits of an instruction, first bit first: a command's 8-bit word (R80), a token's pattern
(R86, R87, R89, R90). -/
def Instr.bits : Instr → Bits
  | .clear => bitsOf 8 0x00
  | .count => bitsOf 8 0x01
  | .build => bitsOf 8 0x02
  | .derive => bitsOf 8 0x03
  | .wrmagic => bitsOf 8 0x04
  | .wrtree => bitsOf 8 0x05
  | .encode => bitsOf 8 0x06
  | .close => bitsOf 8 0x07
  | .rewind => bitsOf 8 0x08
  | .rdmagic => bitsOf 8 0x09
  | .rdtree => bitsOf 8 0x0A
  | .decode => bitsOf 8 0x0B
  | .compress => bitsOf 8 0x0C
  | .decompress => bitsOf 8 0x0D
  | .magic m => bitsOf 32 m.toNat
  | .hdrInternal => [false]
  | .hdrLeaf v => true :: bitsOf 9 v.toNat
  | .codeword len b => bitsOf len.toNat b.toNat
  | .literal8 b => bitsOf 8 b.toNat

/-- The mnemonic of R81, and the token names of R94. -/
def Instr.mnemonic : Instr → String
  | .clear => "CLEAR"
  | .count => "COUNT"
  | .build => "BUILD"
  | .derive => "DERIVE"
  | .wrmagic => "WRMAGIC"
  | .wrtree => "WRTREE"
  | .encode => "ENCODE"
  | .close => "CLOSE"
  | .rewind => "REWIND"
  | .rdmagic => "RDMAGIC"
  | .rdtree => "RDTREE"
  | .decode => "DECODE"
  | .compress => "COMPRESS"
  | .decompress => "DECOMPRESS"
  | .magic _ => "MAGIC"
  | .hdrInternal => "HDR_INTERNAL"
  | .hdrLeaf _ => "HDR_LEAF"
  | .codeword _ _ => "CODEWORD"
  | .literal8 _ => "LITERAL8"

/-- One line of a host program (R84): the word of the command with that mnemonic. -/
def assembleLine (m : String) : Option Byte :=
  (commandTable.find? (fun r => r.instr.mnemonic == m)).map (·.pat)

/-- The words of a host program (R84), none if a line names no command. -/
def assemble (lines : List String) : Option (List Byte) := lines.mapM assembleLine

/-- The instruction a token reader makes of exactly these bits. -/
def tokenOnly (p : Place) (q : Bits) : Option Instr :=
  match decodeToken p q with
  | .token i [] => some i
  | .token _ (_ :: _) => none
  | .reject _ => none
  | .ended => none

/-- The instruction a word of the opcode table stands for, bits numbered as the table numbers
them: 8 bits are a command word; the widths that no command word has are the stream tokens MAGIC
(32) and HDR_LEAF (10, or 16 in whole bytes with the upper bits 0), whose first bit in the stream
is the most significant. HDR_INTERNAL, LITERAL8 and CODEWORD have no width of their own here.
Log entry 11. -/
def decodeTableWord (nbits w : Nat) : Option Instr :=
  match nbits with
  | 8 =>
    match decodeCommand (BitVec.ofNat 8 w) with
    | .command i => some i
    | .illegal _ => none
  | 32 => tokenOnly .magic (bitsOf 32 w)
  | 10 => tokenOnly .header (bitsOf 10 w)
  | 16 => if w < 1024 then tokenOnly .header (bitsOf 10 w) else none
  | _ => none

end Sys2Proof
end

