-- ==== Sys2Proof/Machine/State.lean ====
section
/-! DEFINITION. The state of the machine as plain data (spec/10_state.md R20, 20_memory.md R51,
R55), the reasons a step can stop, and the state right after reset (10_state.md R36, 70 R240). -/

namespace Sys2Proof.Machine

/-- STATUS.STATE (R22): IDLE 0, BUSY 1, FAULT 2. The value 3 never occurs. -/
inductive Mode where
  | idle | busy | fault
deriving DecidableEq, Repr

/-- ERR (R28). -/
structure Err where
  code : BitVec 4
  op : OpCode
  cmd : OpCode
deriving DecidableEq, Repr

/-- An entry of the node store NODE (R24). -/
structure Node where
  leaf : Bool
  value : Sym
  left : Index
  right : Index
  weight : Count
deriving DecidableEq, Repr

/-- An entry of the Code Table CODE (R25). -/
structure Code where
  valid : Bool
  len : CodeLen
  bits : BitVec 256
deriving DecidableEq, Repr

/-- A call of a stream port (20_memory.md R52, R54, R56, R57). -/
inductive PortCall where
  | readBits (n : Nat)
  | rewind
  | writeBits (n v : Nat)
  | close
deriving DecidableEq, Repr

/-- What the host does between commands (10_state.md R32; 20_memory.md R60; 70 R240). -/
inductive HostOp where
  /-- `RegRead(n)`. -/
  | regRead (n : Nat)
  /-- `RegWrite(n, v)`; `v` has the width of the widest register. -/
  | regWrite (n : Nat) (v : BitVec 266)
  /-- Choose the input stream of the session that the next CLEAR or reset starts. -/
  | bindInput (q : Bits)
  /-- The hardware reset, between commands. -/
  | hardReset
deriving DecidableEq, Repr

/-- The machine. The fields to `outShut` are the spec's state; the rest is the environment as data
and what the host has seen (INVENTORY.md, "State"). -/
structure State where
  /-- STATUS.STATE (R22). -/
  mode : Mode
  /-- STATUS.FREQ_VALID (R22). -/
  freqValid : Bool
  /-- STATUS.TREE_VALID (R22). -/
  treeValid : Bool
  /-- STATUS.CODE_VALID (R22). -/
  codeValid : Bool
  /-- STATUS.OUT_CLOSED (R22). -/
  outClosed : Bool
  /-- ERR (R28). -/
  err : Err
  /-- ROOT (R29). -/
  root : Index
  /-- NCOUNT (R29). -/
  ncount : Index
  /-- FREQ[0 .. 256] (R23). -/
  freq : Vector Count 257
  /-- NODE[0 .. 512] (R24). -/
  node : Vector Node 513
  /-- CODE[0 .. 256] (R25). -/
  code : Vector Code 257
  /-- `IN.bits` (20_memory.md R51). -/
  inBits : Bits
  /-- `IN.pos` (20_memory.md R51). -/
  inPos : Nat
  /-- `OUT.bits` (20_memory.md R55). -/
  outBits : Bits
  /-- `OUT.closed` (20_memory.md R55). -/
  outShut : Bool
  /-- What the host does next, first entry first. -/
  hostOps : List HostOp
  /-- The input stream the host will have bound when the next session starts (20_memory.md R60). -/
  nextIn : Bits
  /-- Whether the coming port calls answer IOERR, next call first; past the end none does
  (20_memory.md R68). -/
  answers : List Bool
  /-- The port calls of this session, in order (00_scope.md R6, 70 R252). -/
  trace : List PortCall
  /-- How many free values have been drawn. -/
  draws : Nat
  /-- What the host's last `RegRead` returned. -/
  readData : BitVec 266
deriving DecidableEq, Repr

/-- The model's own stops. Each is raised only in a state no run from reset reaches (the valid-tree
and valid-code invariants, 47_properties.md R262 to R264, exclude it), and each is SAFE: the model
stops where the spec gives no behaviour. Log entry 12. -/
inductive Fault where
  /-- A node index of 513 or more was used: "entries `NODE[0]` to `NODE[512]`" (R24). Raised by
  BUILD, DERIVE, WRTREE, RDTREE, DECODE. Safe. -/
  | noSuchNode
  /-- A Symbol above 256 indexed CODE: "257 entries `CODE[0]` to `CODE[256]`" (R25). Raised by
  DERIVE. Safe. -/
  | noSuchSymbol
  /-- The walk of a tree that is not well founded does not end (R11, R270). Raised by DERIVE,
  WRTREE. Safe: stuck. -/
  | treeDiverges
  /-- A leaf deeper than MAXLEN = 256 has no LEN (R8, R141). Raised by DERIVE. Safe. -/
  | codeTooLong
  /-- `OUT.WriteBits(n, v)` outside 1 ≤ n ≤ 256 (20_memory.md R56). Raised by ENCODE and by the
  CODEWORD token. Safe. -/
  | writeWidth
  /-- A loop ran past the bound that its own measure gives. Never raised in any state. Safe. -/
  | loopBound
deriving DecidableEq, Repr

/-- Why the model gives an instruction no meaning. -/
inductive Refusal where
  /-- The instruction has no meaning in this model yet. Raised by `exec` only. Safe. -/
  | notModelled (mnemonic : String)
deriving DecidableEq, Repr

/-- The cleared ERR register (R28, R36). -/
def Err.none : Err := ⟨0, 0, 0⟩

/-- The zero entry of the node store: the model's reset contents (log entry 4). -/
def Node.zero : Node := ⟨false, 0, 0, 0, 0⟩

/-- The empty entry of the Code Table: `{VALID = 0, LEN = 0, BITS = 0}` (R140). -/
def Code.none : Code := ⟨false, 0, 0⟩

/-- The machine right after reset (10_state.md R36). The spec leaves the contents of FREQ, NODE
and CODE unspecified and the input stream to the host: the values here are DESIGN CHOICES (log
entries 4 and 8). -/
def State.reset : State where
  mode := .idle
  freqValid := false
  treeValid := false
  codeValid := false
  outClosed := false
  err := .none
  root := 0
  ncount := 0
  freq := Vector.replicate 257 0
  node := Vector.replicate 513 Node.zero
  code := Vector.replicate 257 Code.none
  inBits := []
  inPos := 0
  outBits := []
  outShut := false
  hostOps := []
  nextIn := []
  answers := []
  trace := []
  draws := 0
  readData := 0

end Sys2Proof.Machine
end

