-- ==== Sys2Proof/Machine/Operands.lean ====
section
/-! DEFINITION. The operand forms: the words of the registers (10_state.md R22, R24, R25, R28), the
fields read back out of such a word, the entries of the register files, and the byte views of the
two streams (20_memory.md R58). Commands themselves have no operands (30_encoding.md R80); their
stream fields are `bitsOf`, `valOf` and `fieldAt` of Decode. -/

namespace Sys2Proof.Machine

/-- STATUS[1:0] (R22). -/
def Mode.bits : Mode → BitVec 2
  | .idle => 0
  | .busy => 1
  | .fault => 2

/-- STATUS (R22): reserved bits [7:6] read as 0. -/
def State.statusWord (s : State) : BitVec 8 :=
  0#2 ++ BitVec.ofBool s.outClosed ++ BitVec.ofBool s.codeValid ++ BitVec.ofBool s.treeValid ++
    BitVec.ofBool s.freqValid ++ s.mode.bits

/-- ERR (R28): CODE [3:0], OP [7:4], CMD [11:8]. -/
def Err.word (e : Err) : BitVec 12 := e.cmd ++ e.op ++ e.code

/-- The inspection word of a node (R24): LEAF [0], VALUE [9:1], LEFT [19:10], RIGHT [29:20],
WEIGHT [61:30]. -/
def Node.word (n : Node) : BitVec 62 :=
  n.weight ++ n.right ++ n.left ++ n.value ++ BitVec.ofBool n.leaf

/-- The node whose inspection word is `w` (R24). -/
def Node.ofWord (w : BitVec 62) : Node where
  leaf := w.getLsbD 0
  value := w.extractLsb' 1 9
  left := w.extractLsb' 10 10
  right := w.extractLsb' 20 10
  weight := w.extractLsb' 30 32

/-- The inspection word of a code (R25): VALID [0], LEN [9:1], BITS [265:10]. -/
def Code.word (c : Code) : BitVec 266 := c.bits ++ c.len ++ BitVec.ofBool c.valid

/-- The code whose inspection word is `w` (R25). -/
def Code.ofWord (w : BitVec 266) : Code where
  valid := w.getLsbD 0
  len := w.extractLsb' 1 9
  bits := w.extractLsb' 10 256

/-- The bit sequence a code stands for, `bits_LEN(BITS)` (00_scope.md R12). -/
def Code.seq (c : Code) : Bits := bitsOf c.len.toNat c.bits.toNat

/-- The leaf `{LEAF = 1, VALUE = v, LEFT = 0, RIGHT = 0, WEIGHT = w}` (R120, R160). -/
def Node.mkLeaf (v : Sym) (w : Count) : Node := ⟨true, v, 0, 0, w⟩

/-- The internal node `{LEAF = 0, VALUE = 0, LEFT = l, RIGHT = r, WEIGHT = w}` (R120, R160). -/
def Node.mkNode (l r : Nat) (w : Count) : Node := ⟨false, 0, BitVec.ofNat 10 l, BitVec.ofNat 10 r, w⟩

/-- The unread part of the input stream (20_memory.md R51). -/
def State.unread (s : State) : Bits := s.inBits.drop s.inPos

/-- The bytes of the output stream that are whole (20_memory.md R58); once OUT is closed these are
all of it (R57, R66). -/
def State.outBytes (s : State) : List Byte := bytesOfBits s.outBits

/-- The bits the writer holds back until it is closed (10_state.md R37). -/
def State.heldBits (s : State) : Bits := s.outBits.drop (8 * (s.outBits.length / 8))

end Sys2Proof.Machine
end

