-- ==== Sys2Proof/Machine/Ops.lean ====
section
/-! DEFINITION. The named operations: raising a fault (60_exceptions.md R213), the start of a
session (10_state.md R36), the acceptance of a command (R31), the port calls and their checked forms
(20_memory.md R52 to R59, R68), the node store and the Code Table, and the running of a list of
primitives (46_control.md R196, R200). -/

namespace Sys2Proof.Machine

/-! ## What a part of a command can do -/

/-- The outcome of a part of a command: it goes on with a value, or it raises a fault at this point
with the state as the lines before left it (R214), or the model stops. -/
inductive Res (α : Type) where
  | ok (a : α) (s : State)
  | raise (f : FaultCode) (s : State)
  | stop (r : Fault)
deriving Repr

/-- Go on with `k` where `r` goes on. -/
def Res.bind {α β : Type} (r : Res α) (k : α → State → Res β) : Res β :=
  match r with
  | .ok a s => k a s
  | .raise f s => .raise f s
  | .stop x => .stop x

/-! ## Fault entry and the way out -/

/-- `raise F` (R213) in the primitive `op` of the command `cmd`: ERR is written and STATE becomes
FAULT. This is the block's exception entry; nothing is saved and control goes nowhere. -/
def State.raise (f : FaultCode) (op cmd : OpCode) (s : State) : State :=
  { s with err := ⟨f.code, op, cmd⟩, mode := .fault }

/-- The start of a session, by CLEAR or by the hardware reset (R36, R190, R219, R240): the only way
out of FAULT. The register files take free values (log entry 5); the input is the stream the host
has chosen (20_memory.md R60, log entry 8). -/
def State.newSession (s : State) : State :=
  { s with
    mode := .idle
    freqValid := false
    treeValid := false
    codeValid := false
    outClosed := false
    err := .none
    root := 0
    ncount := 0
    freq := Vector.ofFn fun k => Config.freeWord 32 s.draws k
    node := Vector.ofFn fun k => Node.ofWord (Config.freeWord 62 s.draws k)
    code := Vector.ofFn fun k => Code.ofWord (Config.freeWord 266 s.draws k)
    inBits := s.nextIn
    inPos := 0
    outBits := []
    outShut := false
    trace := []
    draws := s.draws + 1 }

/-! ## Port calls -/

/-- The collaborator's answer to the next port call: `true` is IOERR (20_memory.md R68). -/
def State.failsNext (s : State) : Bool := s.answers.headD false

/-- Make a port call: its answer is used up, the call is recorded (70 R252). -/
def State.logCall (c : PortCall) (s : State) : State :=
  { s with answers := s.answers.tail, trace := s.trace ++ [c] }

/-- IN after an IOERR: the cursor is unspecified within its range (R51, R68). -/
def State.spoilIn (s : State) : State :=
  { s with inPos := min (Config.freePos s.draws) s.inBits.length, draws := s.draws + 1 }

/-- OUT after an IOERR: unspecified (R68). -/
def State.spoilOut (s : State) : State :=
  { s with
    outBits := Config.freeStream s.draws
    outShut := Config.freeFlag s.draws
    draws := s.draws + 1 }

/-- A read that found its `n` bits (R52). -/
def State.takeBits (n : Nat) (s : State) : State :=
  { s.logCall (.readBits n) with inPos := s.inPos + n }

/-- A read that found fewer than `n` bits: they are consumed (R53). -/
def State.takeRest (n : Nat) (s : State) : State :=
  { s.logCall (.readBits n) with inPos := s.inBits.length }

/-- IN after a rewind (R54). -/
def State.rewound (s : State) : State := { s.logCall .rewind with inPos := 0 }

/-- OUT after a write of the low `n` bits of `v`, most significant first (R56). -/
def State.putBits (n v : Nat) (s : State) : State :=
  { s.logCall (.writeBits n v) with outBits := s.outBits ++ bitsOf n v }

/-- The number of zero bits a close adds (R57). -/
def padLen (len : Nat) : Nat := (8 - len % 8) % 8

/-- OUT after a close (R57). -/
def State.closeUp (s : State) : State :=
  { s.logCall .close with
    outBits := s.outBits ++ List.replicate (padLen s.outBits.length) false
    outShut := true }

/-- The result of `IN.ReadBits(n)` (R52): EOS and IOERR are distinct from every n-bit value. -/
inductive Read (n : Nat) where
  | value (v : BitVec n)
  | eos
  | ioerr
deriving DecidableEq, Repr

/-- `IN.ReadBits(n)` (R52, R53). -/
def readBits (n : Nat) (s : State) : Read n × State :=
  if s.failsNext then (.ioerr, (s.logCall (.readBits n)).spoilIn)
  else if s.inPos + n ≤ s.inBits.length then
    (.value (fieldAt n s.inBits s.inPos), s.takeBits n)
  else (.eos, s.takeRest n)

/-- The checked read `rd<n>()` (R59): `none` is EOS. -/
def rd (n : Nat) (s : State) : Res (Option (BitVec n)) :=
  match readBits n s with
  | (.value v, t) => .ok (some v) t
  | (.eos, t) => .ok none t
  | (.ioerr, t) => .raise .io t

/-- The checked `IN.Rewind()` (R54, R59). -/
def rewindIn (s : State) : Res Unit :=
  if s.failsNext then .raise .io (s.logCall .rewind).spoilIn
  else .ok () s.rewound

/-- The checked write `wr(n, v)` (R56, R59): the low n bits of `v`, most significant first. R56
gives no behaviour outside 1 ≤ n ≤ 256. -/
def wr (n v : Nat) (s : State) : Res Unit :=
  if n = 0 ∨ Config.maxLen < n then .stop .writeWidth
  else if s.failsNext then .raise .io (s.logCall (.writeBits n v)).spoilOut
  else .ok () (s.putBits n v)

/-- The checked `OUT.Close()` (R57, R59). -/
def closeOut (s : State) : Res Unit :=
  if s.failsNext then .raise .io (s.logCall .close).spoilOut
  else .ok () s.closeUp

/-! ## The register files -/

/-- Read `NODE[i]`. There is no entry at 513 or above (10_state.md R24). -/
def readNode (i : Nat) (s : State) : Res Node :=
  match s.node[i]? with
  | some n => .ok n s
  | none => .stop .noSuchNode

/-- NODE with entry `i` written. -/
def State.setNode (i : Nat) (n : Node) (h : i < 513) (s : State) : State :=
  { s with node := s.node.set i n h }

/-- `NODE[i] <- n`. -/
def writeNode (i : Nat) (n : Node) (s : State) : Res Unit :=
  if h : i < 513 then .ok () (s.setNode i n h) else .stop .noSuchNode

/-- `NCOUNT <- 0` (R120, R160). -/
def State.noNodes (s : State) : State := { s with ncount := 0 }

/-- `NCOUNT <- NCOUNT + 1`. -/
def State.takeIndex (s : State) : State := { s with ncount := s.ncount + 1 }

/-- `n <- NCOUNT; NCOUNT <- NCOUNT + 1`: the next free index (R120, R160). -/
def allocIndex (s : State) : Res Nat := .ok s.ncount.toNat s.takeIndex

/-- Allocate the next free index and write the node there (R120). -/
def pushNode (n : Node) (s : State) : Res Nat :=
  (allocIndex s).bind fun i s => (writeNode i n s).bind fun _ s => .ok i s

/-- CODE with entry `k` written. -/
def State.setCode (k : Nat) (c : Code) (h : k < 257) (s : State) : State :=
  { s with code := s.code.set k c h }

/-- `CODE[k] <- c`. There is no entry at 257 or above (10_state.md R25). -/
def writeCode (k : Nat) (c : Code) (s : State) : Res Unit :=
  if h : k < 257 then .ok () (s.setCode k c h) else .stop .noSuchSymbol

/-- Look up `CODE[k]`; `none` is a miss, `CODE[k].VALID = 0` (R171). -/
def readCode (k : Nat) (s : State) : Res (Option Code) :=
  match s.code[k]? with
  | some c => .ok (if c.valid then some c else none) s
  | none => .stop .noSuchSymbol

/-- `FREQ[v] <- FREQ[v] + 1` for an 8-bit value (R110, R111). -/
def State.countByte (v : Byte) (s : State) : State :=
  { s with
    freq := s.freq.set v.toNat (s.freq[v.toNat]'(by have := v.isLt; omega) + 1)
      (by have := v.isLt; omega) }

/-! ## Running a command -/

/-- STATUS.STATE written. -/
def State.withMode (m : Mode) (s : State) : State := { s with mode := m }

/-- A primitive as it runs inside a command: its code for ERR.OP, and what it does. -/
structure Primitive where
  op : OpCode
  body : State → Res Unit

/-- Run primitives one after the other for the host's command `cmd`; a raise ends the command at
once (R200, R213). At the end STATE is IDLE (R31). -/
def runPrimitives (cmd : OpCode) : List Primitive → State → Host.Outcome State Fault Refusal
  | [], s => .next (s.withMode .idle)
  | p :: ps, s =>
    match p.body s with
    | .ok _ t => runPrimitives cmd ps t
    | .raise f t => .next (t.raise f p.op cmd)
    | .stop x => .fault x

/-- The acceptance of a command other than CLEAR (10_state.md R31, 60 R218, 70 R246): in BUSY and
in FAULT the write has no effect at all, in IDLE the command runs. -/
def acceptIdle (run : State → Host.Outcome State Fault Refusal) (s : State) :
    Host.Outcome State Fault Refusal :=
  match s.mode with
  | .idle => run (s.withMode .busy)
  | .busy => .next s
  | .fault => .next s

/-- The acceptance of CLEAR (R31, R190): it is accepted in FAULT as well. -/
def acceptClear (s : State) : Host.Outcome State Fault Refusal :=
  match s.mode with
  | .idle => .next s.newSession
  | .busy => .next s
  | .fault => .next s.newSession

/-- A command that is one primitive. -/
def runCommand (op : OpCode) (body : State → Res Unit) (s : State) :
    Host.Outcome State Fault Refusal :=
  acceptIdle (runPrimitives op [⟨op, body⟩]) s

/-- A reserved command word (R31, R83, R217): in IDLE it raises E_ILLCMD with ERR.OP = ERR.CMD =
the low four bits written; in BUSY and FAULT it has no effect. -/
def illegalCommand (w : Byte) (s : State) : Host.Outcome State Fault Refusal :=
  match s.mode with
  | .idle => .next (s.raise .illCmd (opOf w) (opOf w))
  | .busy => .next s
  | .fault => .next s

end Sys2Proof.Machine
end

