-- ==== Sys2Proof/Machine/Flags.lean ====
section
/-! DEFINITION. Preconditions and flag effects: the table of 30_encoding.md rule R82 (flags,
10_state.md R22, R35). The block has no arithmetic flags. -/

namespace Sys2Proof.Machine

/-- A precondition (R82, 60 R216): where it fails the command raises E_SEQ as its first action. -/
def require (holds : Bool) (s : State) : Res Unit := if holds then .ok () s else .raise .seq s

/-- OUT_CLOSED = 0: the precondition of every command that writes OUT (R82). -/
def State.outOpen (s : State) : Bool := !s.outClosed

/-- "clears at start" of COUNT (R82). -/
def State.clearProducts (s : State) : State :=
  { s with freqValid := false, treeValid := false, codeValid := false }

/-- "clears at start" of BUILD and RDTREE (R82). -/
def State.clearTree (s : State) : State := { s with treeValid := false, codeValid := false }

/-- "clears at start" of DERIVE (R82). -/
def State.clearCode (s : State) : State := { s with codeValid := false }

/-- "sets at end" of COUNT (R82). -/
def State.setFreqValid (s : State) : State := { s with freqValid := true }

/-- "sets at end" of BUILD and RDTREE, which also write ROOT (R120, R160). -/
def State.setTreeValid (r : Nat) (s : State) : State :=
  { s with root := BitVec.ofNat 10 r, treeValid := true }

/-- "sets at end" of DERIVE (R82). -/
def State.setCodeValid (s : State) : State := { s with codeValid := true }

/-- "sets at end" of CLOSE (R82). -/
def State.setOutClosed (s : State) : State := { s with outClosed := true }

end Sys2Proof.Machine
end

