-- ==== Sys2Proof/Machine/CodeTable.lean ====
section
/-! DEFINITION. DERIVE, the Code Table Deriver (spec/42_code_table.md R140 to R145). -/

namespace Sys2Proof.Machine

/-- A walk visits nested nodes; where it ends, no path holds an index twice, so it nests at most
NODE_CAP + 1 calls (R263, 10_state.md R34). -/
def walkBound : Nat := Config.nodeCap + 1

/-- At a leaf: `CODE[VALUE] <- {VALID = 1, LEN = l, BITS = p}` (R140). LEN holds 0 to 256. -/
def bindCode (v : Sym) (l p : Nat) (s : State) : Res Unit :=
  if l ≤ Config.maxLen then
    writeCode v.toNat ⟨true, BitVec.ofNat 9 l, BitVec.ofNat 256 p⟩ s
  else .stop .codeTooLong

/-- `walk(i, l, p)` (R140): depth-first, left before right. -/
def walk : Nat → Nat → Nat → Nat → State → Res Unit
  | 0, _, _, _, _ => .stop .treeDiverges
  | fuel + 1, i, l, p, s =>
    (readNode i s).bind fun n s =>
      if n.leaf then bindCode n.value l p s
      else
        (walk fuel n.left.toNat (l + 1) (2 * p) s).bind fun _ s =>
          walk fuel n.right.toNat (l + 1) (2 * p + 1) s

/-- "CODE[0 .. 256] <- {0, 0, 0}" (R140). -/
def State.emptyCode (s : State) : State := { s with code := Vector.replicate 257 Code.none }

/-- R140. -/
def deriveBody (s : State) : Res Unit :=
  (require s.treeValid s).bind fun _ s =>
    (walk walkBound s.root.toNat 0 0 s.clearCode.emptyCode).bind fun _ s => .ok () s.setCodeValid

/-- DERIVE (R140). -/
def execDerive (s : State) : Host.Outcome State Fault Refusal := runCommand opDerive deriveBody s

end Sys2Proof.Machine
end

