-- ==== Sys2Proof/Machine/HeaderCodec.lean ====
section
/-! DEFINITION. WRMAGIC, WRTREE, RDMAGIC, RDTREE, the Header Codec (spec/43_header_codec.md R150 to
R166). -/

namespace Sys2Proof.Machine

/-- Write the token MAGIC (R86, R150). -/
def putMagic (m : BitVec 32) (s : State) : Res Unit := wr 32 m.toNat s

/-- R150. -/
def wrmagicBody (s : State) : Res Unit :=
  (require s.outOpen s).bind fun _ s => putMagic Config.magic s

/-- WRMAGIC (R150). -/
def execWrmagic (s : State) : Host.Outcome State Fault Refusal := runCommand opWrmagic wrmagicBody s

/-- Write the token HDR_LEAF (R87, R152): a 1 bit, then the 9-bit Symbol. -/
def putLeafToken (v : Sym) (s : State) : Res Unit := (wr 1 1 s).bind fun _ s => wr 9 v.toNat s

/-- Write the token HDR_INTERNAL (R87, R152): a 0 bit. -/
def putInternalToken (s : State) : Res Unit := wr 1 0 s

/-- `put(i)` (R152). -/
def putTree : Nat → Nat → State → Res Unit
  | 0, _, _ => .stop .treeDiverges
  | fuel + 1, i, s =>
    (readNode i s).bind fun n s =>
      if n.leaf then putLeafToken n.value s
      else
        (putInternalToken s).bind fun _ s =>
          (putTree fuel n.left.toNat s).bind fun _ s => putTree fuel n.right.toNat s

/-- R152. -/
def wrtreeBody (s : State) : Res Unit :=
  (require (s.treeValid && s.outOpen) s).bind fun _ s => putTree walkBound s.root.toNat s

/-- WRTREE (R152). -/
def execWrtree (s : State) : Host.Outcome State Fault Refusal := runCommand opWrtree wrtreeBody s

/-- R156: a short stream and a wrong value are both E_FMT_MAGIC. -/
def rdmagicBody (s : State) : Res Unit :=
  (rd 32 s).bind fun r s =>
    match r with
    | none => .raise .fmtMagic s
    | some v => if v = Config.magic then .ok () s else .raise .fmtMagic s

/-- RDMAGIC (R156). -/
def execRdmagic (s : State) : Host.Outcome State Fault Refusal := runCommand opRdmagic rdmagicBody s

/-- The leaf branch of `get()` (R160, R161): read the Symbol field and write `NODE[n]`. -/
def getLeaf (n : Nat) (s : State) : Res Unit :=
  (rd 9 s).bind fun r s =>
    match r with
    | none => .raise .fmtHdrTrunc s
    | some v =>
      if Config.sentinel < v.toNat then .raise .fmtHdrBad s else writeNode n (Node.mkLeaf v 0) s

/-- `get()` (R160, R162): one token and, for an internal node, its two subtrees; the answer is the
index of the node read. Each nested call has allocated a node, so at most NODE_CAP + 1 nest
(10_state.md R34). -/
def getTree : Nat → State → Res Nat
  | 0, _ => .stop .loopBound
  | fuel + 1, s =>
    (rd 1 s).bind fun r s =>
      match r with
      | none => .raise .fmtHdrTrunc s
      | some b =>
        if s.ncount.toNat = Config.nodeCap then .raise .fmtHdrBad s
        else
          (allocIndex s).bind fun n s =>
            if b = 1 then (getLeaf n s).bind fun _ s => .ok n s
            else
              (getTree fuel s).bind fun l s =>
                (getTree fuel s).bind fun r s =>
                  (writeNode n (Node.mkNode l r 0) s).bind fun _ s => .ok n s

/-- R160, R163. -/
def rdtreeBody (s : State) : Res Unit :=
  (getTree walkBound s.clearTree.noNodes).bind fun r s =>
    (readNode r s).bind fun n s =>
      if n.leaf then .raise .fmtHdrBad s else .ok () (s.setTreeValid r)

/-- RDTREE (R160). -/
def execRdtree (s : State) : Host.Outcome State Fault Refusal := runCommand opRdtree rdtreeBody s

end Sys2Proof.Machine
end

