-- ==== Sys2Proof/Machine/Frequency.lean ====
section
/-! DEFINITION. COUNT, the Frequency Table Builder (spec/40_frequency.md R110 to R113). -/

namespace Sys2Proof.Machine

/-- The greatest number of bytes COUNT accepts, 2^WW - 2 (R112). -/
def maxBytes : Nat := 2 ^ 32 - 2

/-- FREQ[0 .. 255] <- 0; FREQ[256] <- 1, the force-seeded sentinel (R110, R111). -/
def State.seedFreq (s : State) : State :=
  { s with freq := (Vector.replicate 257 0).set 256 1 }

/-- The loop of R110; `n` is the number of bytes counted so far. EOS ends the loop before the
overflow test (60 R215 (6)). -/
def countLoop : Nat → Nat → State → Res Unit
  | 0, _, _ => .stop .loopBound
  | fuel + 1, n, s =>
    (rd 8 s).bind fun r s =>
      match r with
      | none => .ok () s
      | some v => if n = maxBytes then .raise .overflow s else countLoop fuel (n + 1) (s.countByte v)

/-- One iteration of a read loop takes at least one bit, and the read at the end leaves it (47 R270):
more iterations than this never happen. -/
def State.readBound (s : State) : Nat := s.inBits.length - s.inPos + 1

/-- R110. -/
def countBody (s : State) : Res Unit :=
  (countLoop s.readBound 0 s.clearProducts.seedFreq).bind fun _ s => .ok () s.setFreqValid

/-- COUNT (R110). -/
def execCount (s : State) : Host.Outcome State Fault Refusal := runCommand opCount countBody s

end Sys2Proof.Machine
end

