-- ==== Sys2Proof/Machine/StreamDecoder.lean ====
section
/-! DEFINITION. DECODE, the Stream Decoder (spec/45_stream_decoder.md R180 to R185). -/

namespace Sys2Proof.Machine

/-- Write the token LITERAL8 of a Symbol (R89, R180): the low 8 bits of VALUE. -/
def putLiteral (v : Nat) (s : State) : Res Unit := wr 8 v s

/-- The child of a node an input bit selects (R180): 0 left, 1 right. -/
def Node.child (n : Node) (b : BitVec 1) : Nat := if b = 0 then n.left.toNat else n.right.toNat

/-- The loop of R180; `cur` is CUR. -/
def decodeLoop : Nat → Nat → State → Res Unit
  | 0, _, _ => .stop .loopBound
  | fuel + 1, cur, s =>
    (rd 1 s).bind fun r s =>
      match r with
      | none => .raise .fmtStream s
      | some b =>
        (readNode cur s).bind fun n s =>
          (readNode (n.child b) s).bind fun c s =>
            if c.leaf then
              if c.value.toNat = Config.sentinel then .ok () s
              else (putLiteral c.value.toNat s).bind fun _ s => decodeLoop fuel s.root.toNat s
            else decodeLoop fuel (n.child b) s

/-- R180. -/
def decodeBody (s : State) : Res Unit :=
  (require (s.treeValid && s.outOpen) s).bind fun _ s => decodeLoop s.readBound s.root.toNat s

/-- DECODE (R180). -/
def execDecode (s : State) : Host.Outcome State Fault Refusal := runCommand opDecode decodeBody s

end Sys2Proof.Machine
end

