-- ==== Sys2Proof/Machine/StreamEncoder.lean ====
section
/-! DEFINITION. ENCODE, the Stream Encoder (spec/44_stream_encoder.md R170 to R174). -/

namespace Sys2Proof.Machine

/-- Write the token CODEWORD of a code: LEN bits, most significant first (R90, R170). -/
def putCode (c : Code) (s : State) : Res Unit := wr c.len.toNat c.bits.toNat s

/-- Look up the code of Symbol `k` and write it; a miss raises E_INT_LOOKUP and writes nothing
(R171). -/
def emitSymbol (k : Nat) (s : State) : Res Unit :=
  (readCode k s).bind fun c s =>
    match c with
    | none => .raise .intLookup s
    | some c => putCode c s

/-- The loop of R170. -/
def encodeLoop : Nat → State → Res Unit
  | 0, _ => .stop .loopBound
  | fuel + 1, s =>
    (rd 8 s).bind fun r s =>
      match r with
      | none => .ok () s
      | some v => (emitSymbol v.toNat s).bind fun _ s => encodeLoop fuel s

/-- R170, R172: the codes of the input, then the sentinel's code. -/
def encodeBody (s : State) : Res Unit :=
  (require (s.codeValid && s.outOpen) s).bind fun _ s =>
    (encodeLoop s.readBound s).bind fun _ s => emitSymbol Config.sentinel s

/-- ENCODE (R170). -/
def execEncode (s : State) : Host.Outcome State Fault Refusal := runCommand opEncode encodeBody s

end Sys2Proof.Machine
end

