-- ==== Sys2Proof/Machine/TreeBuilder.lean ====
section
/-! DEFINITION. BUILD, the Tree Builder by greedy merge (spec/41_tree_builder.md R120 to R130). -/

namespace Sys2Proof.Machine

/-- A member of the live set: a node's index with its weight (R122; the index is the insertion
sequence number). -/
structure Cand where
  weight : Count
  idx : Nat
deriving DecidableEq, Repr

/-- The order of extraction: smaller weight, and among equal weights smaller index (R122). -/
def Cand.before (a b : Cand) : Bool :=
  decide (a.weight < b.weight) || (decide (a.weight = b.weight) && decide (a.idx < b.idx))

/-- The smallest of a candidate and a list in the order of R122. -/
def leastOf : Cand → List Cand → Cand
  | m, [] => m
  | m, c :: cs => leastOf (if c.before m then c else m) cs

/-- `xmin()` (R122): the least member of LIVE, and LIVE without it. -/
def xmin : List Cand → Option (Cand × List Cand)
  | [] => none
  | c :: cs => some (leastOf c cs, (c :: cs).erase (leastOf c cs))

/-- Step 1 (R121): a leaf for every Symbol with a positive count, in ascending order; the answer is
LIVE. The list holds (count, Symbol) pairs. -/
def addLeaves : List (Count × Nat) → State → Res (List Cand)
  | [], s => .ok [] s
  | (w, x) :: rest, s =>
    if 0 < w then
      (pushNode (Node.mkLeaf (BitVec.ofNat 9 x) w) s).bind fun i s =>
        (addLeaves rest s).bind fun live s => .ok (⟨w, i⟩ :: live) s
    else addLeaves rest s

/-- Step 2 (R123) and step 3 (R124): merge while more than one node is live; the answer is the last
node. The first extracted becomes LEFT, the second RIGHT. -/
def mergeLoop : Nat → List Cand → State → Res Nat
  | 0, _, _ => .stop .loopBound
  | fuel + 1, live, s =>
    match xmin live with
    | none => .raise .intEmpty s
    | some (a, []) => .ok a.idx s
    | some (a, c :: cs) =>
      match xmin (c :: cs) with
      | none => .raise .intEmpty s
      | some (b, live') =>
        (pushNode (Node.mkNode a.idx b.idx (a.weight + b.weight)) s).bind fun i s =>
          mergeLoop fuel (live' ++ [⟨a.weight + b.weight, i⟩]) s

/-- Empty input (R125): the sentinel leaf `a` paired with a second sentinel leaf of weight 0. -/
def twinTree (a : Cand) (s : State) : Res Nat :=
  (pushNode (Node.mkLeaf (BitVec.ofNat 9 Config.sentinel) 0) s).bind fun b s =>
    pushNode (Node.mkNode a.idx b a.weight) s

/-- The tree over the live set: the arm E_INT_EMPTY (R128), the twin tree (R125), the merge loop. -/
def joinLive (live : List Cand) (s : State) : Res Nat :=
  match live with
  | [] => .raise .intEmpty s
  | [a] => twinTree a s
  | a :: b :: rest => mergeLoop (a :: b :: rest).length (a :: b :: rest) s

/-- R120. -/
def buildBody (s : State) : Res Unit :=
  (require s.freqValid s).bind fun _ s =>
    (addLeaves s.freq.toList.zipIdx s.clearTree.noNodes).bind fun live s =>
      (joinLive live s).bind fun r s => .ok () (s.setTreeValid r)

/-- BUILD (R120). -/
def execBuild (s : State) : Host.Outcome State Fault Refusal := runCommand opBuild buildBody s

end Sys2Proof.Machine
end

