-- ==== Sys2Proof/Machine/Control.lean ====
section
/-! DEFINITION. CLEAR, CLOSE, REWIND, COMPRESS, DECOMPRESS, the control commands
(spec/46_control.md R190 to R201). -/

namespace Sys2Proof.Machine

/-- CLEAR (R190): a new session; accepted in IDLE and in FAULT. -/
def execClear (s : State) : Host.Outcome State Fault Refusal := acceptClear s

/-- R192. -/
def closeBody (s : State) : Res Unit :=
  (require s.outOpen s).bind fun _ s => (closeOut s).bind fun _ s => .ok () s.setOutClosed

/-- CLOSE (R192). -/
def execClose (s : State) : Host.Outcome State Fault Refusal := runCommand opClose closeBody s

/-- R194. -/
def rewindBody (s : State) : Res Unit := rewindIn s

/-- REWIND (R194). -/
def execRewind (s : State) : Host.Outcome State Fault Refusal := runCommand opRewind rewindBody s

/-- A composite's own precondition, OUT_CLOSED = 0 (R196, R198). -/
def openCheck (s : State) : Res Unit := require s.outOpen s

/-- The list of COMPRESS (R196). -/
def compressList : List Primitive :=
  [⟨opCompress, openCheck⟩, ⟨opCount, countBody⟩, ⟨opBuild, buildBody⟩, ⟨opDerive, deriveBody⟩,
   ⟨opWrmagic, wrmagicBody⟩, ⟨opWrtree, wrtreeBody⟩, ⟨opRewind, rewindBody⟩,
   ⟨opEncode, encodeBody⟩, ⟨opClose, closeBody⟩]

/-- COMPRESS (R196). -/
def execCompress (s : State) : Host.Outcome State Fault Refusal :=
  acceptIdle (runPrimitives opCompress compressList) s

/-- The list of DECOMPRESS (R198). -/
def decompressList : List Primitive :=
  [⟨opDecompress, openCheck⟩, ⟨opRdmagic, rdmagicBody⟩, ⟨opRdtree, rdtreeBody⟩,
   ⟨opDecode, decodeBody⟩, ⟨opClose, closeBody⟩]

/-- DECOMPRESS (R198). -/
def execDecompress (s : State) : Host.Outcome State Fault Refusal :=
  acceptIdle (runPrimitives opDecompress decompressList) s

end Sys2Proof.Machine
end

