-- ==== Sys2Proof/Machine/Tokens.lean ====
section
/-! DEFINITION. The stream tokens of the opcode table (spec/30_encoding.md R85 to R94). A token is
no host command: it is one field of a stream, and the commands that write a stream are made of the
operations that stand here as the tokens' meanings (`putMagic`, `putLeafToken`, `putInternalToken`,
`putCode`, `putLiteral`). A token that R93 calls illegal has the effect the table gives it: the
fault of its reader. Log entries 10 and 11. -/

namespace Sys2Proof.Machine

/-- A token written by the primitive `op`: like every write it needs OUT open (R82). -/
def runToken (op : OpCode) (put : State → Res Unit) (s : State) :
    Host.Outcome State Fault Refusal :=
  runCommand op (fun s => (require s.outOpen s).bind fun _ s => put s) s

/-- A token its reader, the primitive `op`, rejects with the fault `f` (R93). -/
def rejectToken (op : OpCode) (f : FaultCode) (s : State) : Host.Outcome State Fault Refusal :=
  runCommand op (fun s => .raise f s) s

/-- Token MAGIC (R86): WRMAGIC's field; RDMAGIC rejects any value but MAGIC. -/
def execMagic (m : BitVec 32) (s : State) : Host.Outcome State Fault Refusal :=
  if m = Config.magic then runToken opWrmagic (putMagic m) s
  else rejectToken opRdmagic .fmtMagic s

/-- Token HDR_INTERNAL (R87): WRTREE's field for an internal node. -/
def execHdrInternal (s : State) : Host.Outcome State Fault Refusal :=
  runToken opWrtree putInternalToken s

/-- Token HDR_LEAF (R87, R89): WRTREE's field for a leaf; RDTREE rejects a Symbol above 256. -/
def execHdrLeaf (v : Sym) (s : State) : Host.Outcome State Fault Refusal :=
  if v.toNat ≤ Config.sentinel then runToken opWrtree (putLeafToken v) s
  else rejectToken opRdtree .fmtHdrBad s

/-- Token CODEWORD (R90): ENCODE's field. -/
def execCodeword (len : CodeLen) (bits : BitVec 256) (s : State) :
    Host.Outcome State Fault Refusal :=
  runToken opEncode (putCode ⟨true, len, bits⟩) s

/-- Token LITERAL8 (R89): DECODE's field. -/
def execLiteral8 (b : Byte) (s : State) : Host.Outcome State Fault Refusal :=
  runToken opDecode (putLiteral b.toNat) s

end Sys2Proof.Machine
end

