-- ==== Sys2Proof/Machine/Dispatch.lean ====
section
/-! DEFINITION. The dispatch: one arm per constructor of Instr, each one call of its meaning. -/

namespace Sys2Proof.Machine

/-- What writing the command word of `i` does (10_state.md R31 and the command's rule); for a stream
token, what that field does. -/
def exec (i : Instr) (s : State) : Host.Outcome State Fault Refusal :=
  match i with
  | .clear => Sys2Proof.Machine.execClear s
  | .count => Sys2Proof.Machine.execCount s
  | .build => Sys2Proof.Machine.execBuild s
  | .derive => Sys2Proof.Machine.execDerive s
  | .wrmagic => Sys2Proof.Machine.execWrmagic s
  | .wrtree => Sys2Proof.Machine.execWrtree s
  | .encode => Sys2Proof.Machine.execEncode s
  | .close => Sys2Proof.Machine.execClose s
  | .rewind => Sys2Proof.Machine.execRewind s
  | .rdmagic => Sys2Proof.Machine.execRdmagic s
  | .rdtree => Sys2Proof.Machine.execRdtree s
  | .decode => Sys2Proof.Machine.execDecode s
  | .compress => Sys2Proof.Machine.execCompress s
  | .decompress => Sys2Proof.Machine.execDecompress s
  | .magic m => Sys2Proof.Machine.execMagic m s
  | .hdrInternal => Sys2Proof.Machine.execHdrInternal s
  | .hdrLeaf v => Sys2Proof.Machine.execHdrLeaf v s
  | .codeword len bits => Sys2Proof.Machine.execCodeword len bits s
  | .literal8 b => Sys2Proof.Machine.execLiteral8 b s

end Sys2Proof.Machine
end

