-- ==== Sys2Proof/Machine/HostPort.lean ====
section
/-! DEFINITION. The host's side: the register map (spec/10_state.md R32, R33, 70 R247), a write to
CMD (R31), the binding of streams (20_memory.md R60) and the hardware reset (70 R240). -/

namespace Sys2Proof.Machine

/-- ID (R27): constant. -/
def idWord : BitVec 32 := 0x48460001

/-- A host read whose value the spec leaves unspecified: a fresh free value of the register's width
(R33, 93 U1, U2, U4). -/
def readFree (w : Nat) (s : State) : BitVec 266 × State :=
  ((Config.freeWord w s.draws 0).setWidth 266, { s with draws := s.draws + 1 })

/-- A host read of a register's value. Reading has no side effect (60 R232). -/
def readAs {w : Nat} (v : BitVec w) (s : State) : BitVec 266 × State := (v.setWidth 266, s)

/-- The width of register `n` (R32); 0 for a number not in the table. -/
def regWidth (n : Nat) : Nat :=
  if n = 0x000 then 8
  else if n = 0x001 then 8
  else if n = 0x002 then 12
  else if n = 0x003 then 10
  else if n = 0x004 then 10
  else if n = 0x005 then 32
  else if 0x100 ≤ n ∧ n < 0x100 + 257 then 32
  else if 0x400 ≤ n ∧ n < 0x400 + 513 then 62
  else if 0x800 ≤ n ∧ n < 0x800 + 257 then 266
  else 0

/-- `RegRead` of ROOT, NCOUNT or an inspection register when STATE is not BUSY (R32, R33): the
value where the product is valid, a free value where it is not, 0 for a number not in the
table. -/
def readProduct (n : Nat) (s : State) : BitVec 266 × State :=
  if n = 0x003 then if s.treeValid then readAs s.root s else readFree 10 s
  else if n = 0x004 then if s.treeValid then readAs s.ncount s else readFree 10 s
  else if h : 0x100 ≤ n ∧ n < 0x100 + 257 then
    if s.freqValid then readAs (s.freq[n - 0x100]'(by omega)) s else readFree 32 s
  else if h : 0x400 ≤ n ∧ n < 0x400 + 513 then
    if s.treeValid ∧ n - 0x400 < s.ncount.toNat then
      readAs (Node.word (s.node[n - 0x400]'(by omega))) s
    else readFree 62 s
  else if h : 0x800 ≤ n ∧ n < 0x800 + 257 then
    if s.codeValid then readAs (Code.word (s.code[n - 0x800]'(by omega))) s else readFree 266 s
  else readAs 0#1 s

/-- `RegRead(n)` (R32): STATUS and ID always; the rest unspecified while BUSY (70 R247). CMD reads
0 (R21). DESIGN CHOICE: R247 lets the flags of STATUS read their old or their new value while BUSY;
here they read what the BUSY state holds (log entry 18). Unsafe, in states no run reaches. -/
def regRead (n : Nat) (s : State) : BitVec 266 × State :=
  if n = 0x001 then readAs s.statusWord s
  else if n = 0x005 then readAs idWord s
  else if s.mode = .busy then readFree (regWidth n) s
  else if n = 0x002 then readAs s.err.word s
  else readProduct n s

/-- A write of the word `w` to CMD (R31). -/
def writeCommand (w : Byte) (s : State) : Host.Outcome State Fault Refusal :=
  match decodeCommand w with
  | .command i => exec i s
  | .illegal _ => illegalCommand w s

/-- `RegWrite(n, v)` (R32): CMD takes the low 8 bits; every other write is ignored. -/
def regWrite (n : Nat) (v : BitVec 266) (s : State) : Host.Outcome State Fault Refusal :=
  if n = 0x000 then writeCommand (v.setWidth 8) s else .next s

/-- The host reads a register and keeps the value. -/
def hostRead (n : Nat) (s : State) : State :=
  { (regRead n s).2 with readData := (regRead n s).1 }

/-- One act of the host. -/
def hostStep (op : HostOp) (s : State) : Host.Outcome State Fault Refusal :=
  match op with
  | .regRead n => .next (hostRead n s)
  | .regWrite n v => regWrite n v s
  | .bindInput q => .next { s with nextIn := q }
  | .hardReset => .next s.newSession

end Sys2Proof.Machine
end

