-- ==== Sys2Proof/Machine/Step.lean ====
section
/-! DEFINITION. One step: the host's next act, with the command it starts run to its end
(00_scope.md R6). With nothing left to do the engine waits (70 R251). -/

namespace Sys2Proof.Machine

/-- One step of the machine. -/
def step (s : State) : Host.Outcome State Fault Refusal :=
  match s.hostOps with
  | [] => .next s
  | op :: rest => hostStep op { s with hostOps := rest }

/-- `s` with the instruction of these bits as the next one the step fetches: the host's next act is
the write of the word to CMD (log entry 17). -/
def State.withFetchWord (s : State) (nbits w : Nat) : State :=
  { s with hostOps := .regWrite 0x000 (BitVec.ofNat 266 (w % 2 ^ nbits)) :: s.hostOps }

end Sys2Proof.Machine
end

