-- ==== Sys2Proof/Machine/Program.lean ====
section
/-! DEFINITION. Host programs (spec/30_encoding.md R84): a list of command words, and what running
one is (70 R251). -/

namespace Sys2Proof.Machine

/-- The start state of a program with the input `.in` (R84): the reset state with that input bound
at cursor 0 (20_memory.md R60). -/
def State.resetWith (q : Bits) : State := { State.reset with inBits := q }

/-- Running the lines of a program (R84): before each line the host has seen STATE leave BUSY; it
stops at a FAULT, else it writes the word to CMD. -/
def runProgram : List Byte → State → Host.Outcome State Fault Refusal
  | [], s => .next s
  | w :: ws, s =>
    match s.mode with
    | .fault => .next s
    | .busy => .next s
    | .idle =>
      match regWrite 0x000 (w.setWidth 266) s with
      | .next t => runProgram ws t
      | .fault r => .fault r
      | .refused r => .refused r

/-- The run succeeded (R251). -/
def State.succeeded (s : State) : Bool := decide (s.mode = .idle)

/-- The output is defined (R251, R244). -/
def State.outputDefined (s : State) : Bool := s.succeeded && s.outClosed

end Sys2Proof.Machine
end

