-- ==== Sys2Proof/Machine/Abstract.lean ====
section
/-! DEFINITION. The abstract views the rules speak of: the tree `T(i)` of a node (00_scope.md R11),
paths and codes (R12, 42_code_table.md R141, R142), the header of a tree (30_encoding.md R87, R88),
and the greedy construction over a priority queue (DOC0 §4.2 as 41_tree_builder.md R120 quotes it).
Statements use them; no meaning does. -/

namespace Sys2Proof.Machine

/-- `T(i)` (R11), following at most `fuel` nested nodes; none where the node store holds no tree
there. -/
def treeAt (node : Vector Node 513) : Nat → Nat → Option Tree
  | 0, _ => none
  | fuel + 1, i =>
    match node[i]? with
    | none => none
    | some n =>
      if n.leaf then some (.leaf n.value)
      else
        match treeAt node fuel n.left.toNat with
        | none => none
        | some l =>
          match treeAt node fuel n.right.toNat with
          | none => none
          | some r => some (.node l r)

/-- `Tw(i)` (R11): `T(i)` with each node's weight. -/
def weightedTreeAt (node : Vector Node 513) : Nat → Nat → Option WTree
  | 0, _ => none
  | fuel + 1, i =>
    match node[i]? with
    | none => none
    | some n =>
      if n.leaf then some (.leaf n.value n.weight)
      else
        match weightedTreeAt node fuel n.left.toNat with
        | none => none
        | some l =>
          match weightedTreeAt node fuel n.right.toNat with
          | none => none
          | some r => some (.node n.weight l r)

/-- A weighted tree without its weights (R11: "weights and node indexes are not part of it"). -/
def shapeOf : WTree → Tree
  | .leaf v _ => .leaf v
  | .node _ l r => .node (shapeOf l) (shapeOf r)

/-- The weight of a weighted tree's root. -/
def rootWeight : WTree → Count
  | .leaf _ w => w
  | .node w _ _ => w

/-- Every internal node weighs exactly the sum of its children (R129 (a)). -/
def weightsAdd : WTree → Bool
  | .leaf _ _ => true
  | .node w l r =>
    decide (w.toNat = (rootWeight l).toNat + (rootWeight r).toNat) && weightsAdd l && weightsAdd r

/-- Every weight is 0, as RDTREE leaves it (R160, 10_state.md R24). -/
def weightsZero : WTree → Bool
  | .leaf _ w => decide (w = 0)
  | .node w l r => decide (w = 0) && weightsZero l && weightsZero r

/-- The indexes of the nodes of `T(i)` in pre-order (R87), each as often as it is reached. -/
def visits (node : Vector Node 513) : Nat → Nat → Option (List Nat)
  | 0, _ => none
  | fuel + 1, i =>
    match node[i]? with
    | none => none
    | some n =>
      if n.leaf then some [i]
      else
        match visits node fuel n.left.toNat with
        | none => none
        | some l =>
          match visits node fuel n.right.toNat with
          | none => none
          | some r => some (i :: (l ++ r))

/-- The tree, `T(ROOT)` (R11). -/
def State.tree (s : State) : Option Tree := treeAt s.node walkBound s.root.toNat

/-- The tree with its weights, `Tw(ROOT)` (R11). -/
def State.weightedTree (s : State) : Option WTree := weightedTreeAt s.node walkBound s.root.toNat

/-- The indexes reached from ROOT (R262 (d)). -/
def State.visited (s : State) : Option (List Nat) := visits s.node walkBound s.root.toNat

/-- The number of leaves, L. -/
def leafCount : Tree → Nat
  | .leaf _ => 1
  | .node l r => leafCount l + leafCount r

/-- The number of internal nodes. -/
def internalCount : Tree → Nat
  | .leaf _ => 0
  | .node l r => internalCount l + internalCount r + 1

/-- The greatest depth of a leaf (R12). -/
def treeDepth : Tree → Nat
  | .leaf _ => 0
  | .node l r => max (treeDepth l) (treeDepth r) + 1

/-- Every leaf holds a Symbol, 0 to 256 (R262 (e)). -/
def labelsFit : Tree → Bool
  | .leaf v => decide (v.toNat ≤ Config.sentinel)
  | .node l r => labelsFit l && labelsFit r

/-- The leaves left to right, each with its path (R12): a left step is 0, a right step is 1. -/
def leafPaths : Tree → List (Sym × Bits)
  | .leaf v => [(v, [])]
  | .node l r =>
    (leafPaths l).map (fun p => (p.1, false :: p.2)) ++
      (leafPaths r).map (fun p => (p.1, true :: p.2))

/-- The path that DERIVE binds to Symbol `k`: that of the rightmost leaf labelled `k` (R142). -/
def codePath (t : Tree) (k : Nat) : Option Bits :=
  (((leafPaths t).filter fun p => p.1.toNat == k).getLast?).map (·.2)

/-- The entry of the Code Table for a path (R140, R141). -/
def codeOfPath (q : Bits) : Code := ⟨true, BitVec.ofNat 9 q.length, BitVec.ofNat 256 (valOf q)⟩

/-- The entry `CODE[k]` of the Code Table of the tree `t` (R140, R264). -/
def codeEntry (t : Tree) (k : Nat) : Code :=
  match codePath t k with
  | some q => codeOfPath q
  | none => Code.none

/-- The header of a tree (R87): its tokens in pre-order. -/
def headerBits : Tree → Bits
  | .leaf v => true :: bitsOf 9 v.toNat
  | .node l r => false :: (headerBits l ++ headerBits r)

/-- The header of a tree as stream tokens, in pre-order (R87, R94). -/
def headerTokens : Tree → List Instr
  | .leaf v => [.hdrLeaf v]
  | .node l r => .hdrInternal :: (headerTokens l ++ headerTokens r)

/-- The bits of stream tokens one after the other (R85: nothing stands between them). -/
def tokenBits (ts : List Instr) : Bits := ts.flatMap Instr.bits

/-- The literals of a list of leaves, 8 bits each (R180). -/
def literalBits (ws : List (Sym × Bits)) : Bits := ws.flatMap fun w => bitsOf 8 w.1.toNat

/-- The paths of a list of leaves one after the other (R90). -/
def pathBits (ws : List (Sym × Bits)) : Bits := ws.flatMap fun w => w.2

/-- The codes of a list of bytes one after the other (R170). -/
def codeBits (code : Vector Code 257) (bs : List Byte) : Bits :=
  bs.flatMap fun b => (code[b.toNat]'(by have := b.isLt; omega)).seq

/-- Zero padding to a multiple of 8 (R57, R92). -/
def padded (q : Bits) : Bits := q ++ List.replicate (padLen q.length) false

/-- Insert into a queue ordered by weight, behind every entry of the same weight ("ties are broken
by insertion order", R122). -/
def enqueue (w : Count) (t : Tree) : List (Count × Tree) → List (Count × Tree)
  | [] => [(w, t)]
  | q :: qs => if w < q.1 then (w, t) :: q :: qs else q :: enqueue w t qs

/-- "remove the two lowest-weight nodes; create a new internal node whose weight is their sum and
whose children are the removed pair ...; reinsert" (DOC0 §4.2, R120). -/
def greedyMerge : Nat → List (Count × Tree) → Option Tree
  | 0, _ => none
  | _ + 1, [] => none
  | _ + 1, [a] => some a.2
  | fuel + 1, a :: b :: qs => greedyMerge fuel (enqueue (a.1 + b.1) (.node a.2 b.2) qs)

/-- The Symbols with a positive count, ascending, with their counts (R121). -/
def positives (freq : Vector Count 257) : List (Count × Nat) :=
  freq.toList.zipIdx.filter fun p => decide (0 < p.1)

/-- The greedy tree of a Frequency Table: the queue of DOC0 §4.2, or the twin tree where there is
one leaf only (R125). -/
def greedyTree (freq : Vector Count 257) : Option Tree :=
  match positives freq with
  | [] => none
  | [p] => some (.node (.leaf (BitVec.ofNat 9 p.2)) (.leaf (BitVec.ofNat 9 Config.sentinel)))
  | p :: q :: ps =>
    greedyMerge (p :: q :: ps).length
      ((p :: q :: ps).foldl (fun acc x => enqueue x.1 (.leaf (BitVec.ofNat 9 x.2)) acc) [])

/-- The sum of all counts (R112, R129 (b)). -/
def countSum (freq : Vector Count 257) : Nat := (freq.toList.map (·.toNat)).sum

end Sys2Proof.Machine
end

