-- ==== Sys2Proof/Safety.lean ====
section
/-! DEFINITION. What counts as a safe run, in the terms the statements use: the invariants of
spec/47_properties.md (R262, R264, R265), and the conditions under which a command completes. -/

namespace Sys2Proof.Machine

/-- No port call answers IOERR (20_memory.md R68: "collaborators that never return IOERR"). -/
def State.Quiet (s : State) : Prop := ∀ a ∈ s.answers, a = false

/-- The engine is in IDLE and its ports do not fail. -/
def State.Ready (s : State) : Prop := s.mode = .idle ∧ s.Quiet

/-- `CODE[k]`, for a Symbol `k`. -/
def State.codeAt (s : State) (k : Nat) (h : k < 257) : Code := s.code[k]'h

/-- The node store holds the tree R262 describes: (a) sizes, (b) an internal root, (c) children
that exist and differ, (d) every stored node is reached from ROOT exactly once, (e) labels. -/
def TreeOk (s : State) : Prop :=
  s.ncount.toNat % 2 = 1 ∧ 3 ≤ s.ncount.toNat ∧ s.ncount.toNat ≤ 513 ∧
  s.root.toNat < s.ncount.toNat ∧
  (∃ n, s.node[s.root.toNat]? = some n ∧ n.leaf = false) ∧
  (∀ (i : Nat) (n : Node), i < s.ncount.toNat → s.node[i]? = some n → n.leaf = false →
    n.left.toNat < s.ncount.toNat ∧ n.right.toNat < s.ncount.toNat ∧ n.left ≠ n.right) ∧
  (∃ l, s.visited = some l ∧ l.Perm (List.range s.ncount.toNat)) ∧
  (∀ (i : Nat) (n : Node), i < s.ncount.toNat → s.node[i]? = some n → n.leaf = true →
    n.value.toNat ≤ 256)

/-- CODE is the Code Table of the tree (R264). -/
def CodeOk (s : State) : Prop :=
  ∃ t, s.tree = some t ∧ ∀ (k : Nat) (h : k < 257), s.code[k]'h = codeEntry t k

/-- FREQ is a Frequency Table (R265): the sentinel's count is 1 and the counts do not overflow. -/
def FreqOk (s : State) : Prop := s.freq[256] = 1 ∧ countSum s.freq ≤ 2 ^ 32 - 1

/-- The invariants of the stored products: each flag that reads 1 describes a complete product
(10_state.md R22, R262, R264, R265). -/
def ProductInv (s : State) : Prop :=
  (s.freqValid = true → FreqOk s) ∧ (s.treeValid = true → TreeOk s) ∧
  (s.codeValid = true → s.treeValid = true ∧ CodeOk s)

/-- The invariants of control and of the ports (R265, R28, R31, R51): STATE is IDLE or FAULT between
commands, ERR is 0 outside FAULT and a fault code of R210 in it, the cursor is in range, and unless
the fault is E_IO, STATUS.OUT_CLOSED says whether OUT is closed and a closed output is whole bytes
(R57). -/
def ControlInv (s : State) : Prop :=
  s.mode ≠ .busy ∧ (s.mode = .idle → s.err = .none) ∧
  (s.mode = .fault → 1 ≤ s.err.code.toNat ∧ s.err.code.toNat ≤ 11) ∧
  s.inPos ≤ s.inBits.length ∧
  (s.err.code ≠ FaultCode.io.code → s.outClosed = s.outShut ∧
    (s.outShut = true → s.outBits.length % 8 = 0))

/-- A tree that a header may describe and RDTREE accepts (R160 to R163): an internal root, at most
257 leaves (NODE_CAP = 2 · 257 - 1), labels up to 256. -/
def HeaderTree (t : Tree) : Prop :=
  (∃ l r, t = .node l r) ∧ leafCount t ≤ 257 ∧ labelsFit t = true

/-- Every code that is valid has 1 to 256 bits (R264). -/
def CodesFit (s : State) : Prop :=
  ∀ (k : Nat) (h : k < 257), (s.code[k]'h).valid = true →
    1 ≤ (s.code[k]'h).len.toNat ∧ (s.code[k]'h).len.toNat ≤ 256

/-- A list of leaves of `t` whose labels are literals. -/
def LiteralLeaves (t : Tree) (ws : List (Sym × Bits)) : Prop :=
  ∀ w ∈ ws, w ∈ leafPaths t ∧ w.1.toNat ≠ 256

end Sys2Proof.Machine
end

