-- ==== Sys2Proof/Certificates/Slice0/Obligations.lean ====
section
/-! DEFINITION. The statements for the provers, from the numbered rules of spec/. `Ready` is: STATE
is IDLE and no coming port call answers IOERR. Every conclusion of the form `t = { s with … }` is
the frame as well: what is not listed is unchanged. -/

open Sys2Proof Sys2Proof.Machine

/-! ## Encoding -/

/-- R81: words of the command table, and header tokens of R87 written out bit by bit. -/
def Obligations.SampleWordsDecode : Prop :=
  decodeCommand 0x00 = .command .clear ∧ decodeCommand 0x01 = .command .count ∧
  decodeCommand 0x02 = .command .build ∧ decodeCommand 0x03 = .command .derive ∧
  decodeCommand 0x05 = .command .wrtree ∧ decodeCommand 0x06 = .command .encode ∧
  decodeCommand 0x0A = .command .rdtree ∧ decodeCommand 0x0B = .command .decode ∧
  decodeCommand 0x0C = .command .compress ∧ decodeCommand 0x0D = .command .decompress ∧
  decodeToken .header [false] = .token .hdrInternal [] ∧
  decodeToken .header [true, false, false, true, false, false, false, false, false, true] =
    .token (.hdrLeaf 0x41) [] ∧
  decodeToken .plain [false, true, false, false, false, false, false, true] =
    .token (.literal8 0x41) []

/-- R81, R86, R87, R89, R90: decoding gives back every well-formed instruction from its encoding,
with every field at every value the encoding admits; and a command word has one meaning only. -/
def Obligations.DecodeOfEncodeIsTheInstruction : Prop :=
  (∀ (i : Instr) (w : Byte), i.commandWord = some w ↔ decodeCommand w = .command i) ∧
  (∀ (i : Instr) (w : Byte), i.commandWord = some w → i.bits = bitsOf 8 w.toNat) ∧
  (∀ (m : BitVec 32) (rest : Bits), (Instr.magic m).wellFormed = true →
    decodeToken .magic ((Instr.magic m).bits ++ rest) = .token (.magic m) rest) ∧
  (∀ rest : Bits, decodeToken .header (Instr.hdrInternal.bits ++ rest) = .token .hdrInternal rest) ∧
  (∀ (v : Sym) (rest : Bits), (Instr.hdrLeaf v).wellFormed = true →
    decodeToken .header ((Instr.hdrLeaf v).bits ++ rest) = .token (.hdrLeaf v) rest) ∧
  (∀ (len : CodeLen) (b : BitVec 256) (t : Tree) (v : Sym) (rest : Bits),
    (Instr.codeword len b).wellFormed = true → (v, (Instr.codeword len b).bits) ∈ leafPaths t →
    decodeToken (.symbols t) ((Instr.codeword len b).bits ++ rest) = .token (.codeword len b) rest) ∧
  (∀ (b : Byte) (rest : Bits),
    decodeToken .plain ((Instr.literal8 b).bits ++ rest) = .token (.literal8 b) rest)

/-- R88: a tree with L leaves has L - 1 internal nodes and a header of 11 L - 1 bits. -/
def Obligations.HeaderLengthOfTree : Prop :=
  ∀ t : Tree, internalCount t + 1 = leafCount t ∧ (headerBits t).length = 11 * leafCount t - 1

/-! ## Step, acceptance, faults of the host protocol -/

/-- A step runs the decoded command (R31, R84): when the host's next act writes a word to CMD that
decodes to `i`, the step is `exec i` on the state with that act taken off; nothing else stands
around `exec`. With no act of the host the engine waits (R251). The list of acts, and that CMD takes
the low 8 bits of a wider value, are the model's choices (log entries 7, 13 and 17). -/
def Obligations.StepRunsDecodedCommand : Prop :=
  (∀ (s : State) (v : BitVec 266) (rest : List HostOp) (i : Instr),
    s.hostOps = .regWrite 0x000 v :: rest → decodeCommand (v.setWidth 8) = .command i →
    i.wellFormed = true ∧ step s = exec i { s with hostOps := rest }) ∧
  (∀ (s : State) (w : Nat) (i : Instr), w < 256 → decodeTableWord 8 w = some i →
    step (s.withFetchWord 8 w) = exec i s) ∧
  (∀ s : State, s.hostOps = [] → step s = .next s)

/-- R83, R217: exactly the words with RSV ≠ 0 or OP = 0xE or 0xF name no command; such a word
written in IDLE raises E_ILLCMD with ERR.OP = ERR.CMD = the low four bits; nothing else changes. That
the word is the low 8 bits of a wider value of the host is the model's choice (log entry 13). -/
def Obligations.ReservedWordRaisesIllcmd : Prop :=
  (∀ w : Byte, (∃ why, decodeCommand w = .illegal why) ↔
    (w.extractLsb' 4 4 ≠ 0 ∨ opOf w = 0xE ∨ opOf w = 0xF)) ∧
  (∀ (s : State) (v : BitVec 266) (rest : List HostOp), s.mode = .idle →
    s.hostOps = .regWrite 0x000 v :: rest →
    ((v.setWidth 8).extractLsb' 4 4 ≠ 0#4 ∨ opOf (v.setWidth 8) = 0xE ∨ opOf (v.setWidth 8) = 0xF) →
    step s = .next { s with
      hostOps := rest, mode := .fault, err := ⟨9, opOf (v.setWidth 8), opOf (v.setWidth 8)⟩ })

/-- R31, R218, R246: in FAULT every word but CLEAR, in BUSY every word, is without effect. -/
def Obligations.CommandsIgnoredOutsideIdle : Prop :=
  (∀ (i : Instr) (s : State), s.mode = .fault → i ≠ .clear → exec i s = .next s) ∧
  (∀ (i : Instr) (s : State), s.mode = .busy → exec i s = .next s) ∧
  (∀ (w : Byte) (s : State), s.mode ≠ .idle → illegalCommand w s = .next s)

/-- R216, R82: a command whose precondition fails raises E_SEQ; apart from ERR and STATE nothing
changes. -/
def Obligations.FailedPreconditionRaisesSeq : Prop :=
  ∀ s : State, s.mode = .idle →
    (s.freqValid = false → exec .build s = .next { s with mode := .fault, err := ⟨8, 2, 2⟩ }) ∧
    (s.treeValid = false → exec .derive s = .next { s with mode := .fault, err := ⟨8, 3, 3⟩ }) ∧
    (s.outClosed = true → exec .wrmagic s = .next { s with mode := .fault, err := ⟨8, 4, 4⟩ }) ∧
    (s.treeValid = false ∨ s.outClosed = true →
      exec .wrtree s = .next { s with mode := .fault, err := ⟨8, 5, 5⟩ }) ∧
    (s.codeValid = false ∨ s.outClosed = true →
      exec .encode s = .next { s with mode := .fault, err := ⟨8, 6, 6⟩ }) ∧
    (s.outClosed = true → exec .close s = .next { s with mode := .fault, err := ⟨8, 7, 7⟩ }) ∧
    (s.treeValid = false ∨ s.outClosed = true →
      exec .decode s = .next { s with mode := .fault, err := ⟨8, 0xB, 0xB⟩ }) ∧
    (s.outClosed = true → exec .compress s = .next { s with mode := .fault, err := ⟨8, 0xC, 0xC⟩ }) ∧
    (s.outClosed = true →
      exec .decompress s = .next { s with mode := .fault, err := ⟨8, 0xD, 0xD⟩ })

/-- R59, R68: the first port call of a command answers IOERR: E_IO in that primitive, no further
call, and the other port untouched. -/
def Obligations.FailedPortCallRaisesIo : Prop :=
  ∀ (s : State) (rest : List Bool), s.mode = .idle → s.answers = true :: rest →
    (∀ (i : Instr) (op cmd : OpCode) (n : Nat),
      (i, op, cmd, n) ∈ [(Instr.count, 1, 1, 8), (.rdmagic, 9, 9, 32), (.rdtree, 0xA, 0xA, 1)] ∨
      (s.outClosed = false ∧
        (i, op, cmd, n) ∈ [(Instr.compress, 1, 0xC, 8), (.decompress, 9, 0xD, 32)]) ∨
      (s.outClosed = false ∧ s.codeValid = true ∧ (i, op, cmd, n) = (.encode, 6, 6, 8)) ∨
      (s.outClosed = false ∧ s.treeValid = true ∧ (i, op, cmd, n) = (.decode, 0xB, 0xB, 1)) →
      ∃ t, exec i s = .next t ∧ t.mode = .fault ∧ t.err = ⟨5, op, cmd⟩ ∧ t.answers = rest ∧
        t.trace = s.trace ++ [.readBits n] ∧ t.outBits = s.outBits ∧ t.outShut = s.outShut ∧
        t.outClosed = s.outClosed) ∧
    (∃ t, exec .rewind s = .next t ∧ t.mode = .fault ∧ t.err = ⟨5, 8, 8⟩ ∧ t.answers = rest ∧
      t.trace = s.trace ++ [.rewind] ∧ t.outBits = s.outBits ∧ t.outShut = s.outShut) ∧
    (s.outClosed = false → ∃ t, exec .close s = .next t ∧ t.mode = .fault ∧ t.err = ⟨5, 7, 7⟩ ∧
      t.answers = rest ∧ t.trace = s.trace ++ [.close] ∧ t.inPos = s.inPos ∧
      t.outClosed = false) ∧
    (s.outClosed = false → ∃ t, exec .wrmagic s = .next t ∧ t.mode = .fault ∧
      t.err = ⟨5, 4, 4⟩ ∧ t.answers = rest ∧
      t.trace = s.trace ++ [.writeBits 32 Config.magic.toNat] ∧ t.inPos = s.inPos ∧
      t.outClosed = false) ∧
    (s.outClosed = false → s.treeValid = true → TreeOk s → ∃ t, exec .wrtree s = .next t ∧
      t.mode = .fault ∧ t.err = ⟨5, 5, 5⟩ ∧ t.answers = rest ∧
      t.trace = s.trace ++ [.writeBits 1 0] ∧ t.inPos = s.inPos ∧ t.outClosed = false)

/-! ## Reset, sessions, registers -/

/-- R36, R240: the values the spec gives for reset. FREQ, NODE and CODE are unspecified there and
the input is the host's: nothing is stated of them. -/
def Obligations.ResetLeavesNothingValid : Prop :=
  State.reset.mode = .idle ∧ State.reset.freqValid = false ∧ State.reset.treeValid = false ∧
  State.reset.codeValid = false ∧ State.reset.outClosed = false ∧ State.reset.err = ⟨0, 0, 0⟩ ∧
  State.reset.root = 0 ∧ State.reset.ncount = 0 ∧ State.reset.inPos = 0 ∧
  State.reset.outBits = [] ∧ State.reset.outShut = false ∧
  State.reset.statusWord = 0 ∧ State.reset.err.word = 0

/-- R190, R219: CLEAR, in IDLE and in FAULT, puts every item of R36's table at its reset value,
binds the host's next stream at cursor 0 and an empty open output, and makes no port call (no
answer is used up). The hardware reset does the same (R240). -/
def Obligations.ClearStartsNewSession : Prop :=
  ∀ s : State, s.mode ≠ .busy →
    ∃ t, exec .clear s = .next t ∧ hostStep .hardReset s = .next t ∧
      t = { s with
        mode := .idle, freqValid := false, treeValid := false, codeValid := false,
        outClosed := false, err := ⟨0, 0, 0⟩, root := 0, ncount := 0, freq := t.freq,
        node := t.node, code := t.code, inBits := s.nextIn, inPos := 0, outBits := [],
        outShut := false, trace := [], draws := t.draws }

/-- R22, R28, R24, R25: STATUS = STATE + 4 FREQ_VALID + 8 TREE_VALID + 16 CODE_VALID + 32
OUT_CLOSED, ERR = CODE + 16 OP + 256 CMD, the places of the fields in the inspection words of NODE
and CODE, and nothing of an entry is lost in its word. -/
def Obligations.RegisterWordLayout : Prop :=
  (∀ s : State,
    s.statusWord.toNat = s.mode.bits.toNat + 4 * s.freqValid.toNat + 8 * s.treeValid.toNat +
      16 * s.codeValid.toNat + 32 * s.outClosed.toNat ∧
    s.err.word.toNat = s.err.code.toNat + 16 * s.err.op.toNat + 256 * s.err.cmd.toNat) ∧
  (∀ n : Node,
    n.word.toNat = n.leaf.toNat + 2 * n.value.toNat + 2 ^ 10 * n.left.toNat +
      2 ^ 20 * n.right.toNat + 2 ^ 30 * n.weight.toNat ∧ Node.ofWord n.word = n) ∧
  (∀ c : Code,
    c.word.toNat = c.valid.toNat + 2 * c.len.toNat + 2 ^ 10 * c.bits.toNat ∧
      Code.ofWord c.word = c)

/-- R32, R21, R33: what RegRead returns outside BUSY: the register where its product is valid, 0 for
CMD and for a number not in the table. -/
def Obligations.RegisterReadsGiveTheRegisters : Prop :=
  ∀ s : State, s.mode ≠ .busy →
    (regRead 0x000 s).1 = 0 ∧
    (regRead 0x001 s).1.toNat = s.statusWord.toNat ∧
    (regRead 0x002 s).1.toNat = s.err.word.toNat ∧
    (s.treeValid = true → (regRead 0x003 s).1.toNat = s.root.toNat) ∧
    (s.treeValid = true → (regRead 0x004 s).1.toNat = s.ncount.toNat) ∧
    (∀ (k : Nat) (w : Count), s.freqValid = true → s.freq[k]? = some w →
      (regRead (0x100 + k) s).1.toNat = w.toNat) ∧
    (∀ (k : Nat) (n : Node), s.treeValid = true → k < s.ncount.toNat → s.node[k]? = some n →
      (regRead (0x400 + k) s).1.toNat = n.word.toNat) ∧
    (∀ (k : Nat) (c : Code), s.codeValid = true → s.code[k]? = some c →
      (regRead (0x800 + k) s).1.toNat = c.word.toNat) ∧
    (∀ n : Nat, (6 ≤ n ∧ n < 0x100) ∨ (0x201 ≤ n ∧ n < 0x400) ∨ (0x601 ≤ n ∧ n < 0x800) ∨
      0x901 ≤ n → (regRead n s).1 = 0)

/-- R27: ID is register 0x005, 32 bits wide, reads 0x48460001 in every state ("HF" in bits [31:16], 1
below), and is read-only: a write to it changes nothing. -/
def Obligations.IdAlwaysReadsItsConstant : Prop :=
  regWidth 0x005 = 32 ∧
  ∀ s : State, (regRead 0x005 s).1 = 0x48460001 ∧
    (regRead 0x005 s).1.extractLsb' 16 16 = 0x4846#16 ∧
    (regRead 0x005 s).1.extractLsb' 0 16 = 1#16 ∧
    ∀ v : BitVec 266, hostStep (.regWrite 0x005 v) s = .next s

/-- R232, R32: a read changes nothing of the machine (the model's own read data and draw counter
apart), and a write to any register but CMD is ignored. -/
def Obligations.ReadsAndOtherWritesHaveNoEffect : Prop :=
  (∀ (n : Nat) (s : State), ∃ t, hostStep (.regRead n) s = .next t ∧
    t = { s with readData := t.readData, draws := t.draws }) ∧
  (∀ (n : Nat) (v : BitVec 266) (s : State), n ≠ 0x000 →
    hostStep (.regWrite n v) s = .next s)

/-! ## COUNT -/

/-- R110, R111, R113: COUNT on an input of at most 2^32 - 2 whole bytes from the cursor. -/
def Obligations.CountBuildsFrequencyTable : Prop :=
  ∀ s : State, s.Ready → (bytesOfBits s.unread).length ≤ 2 ^ 32 - 2 →
    ∃ t, exec .count s = .next t ∧
      (∀ v : Byte,
        t.freq[v.toNat]? = some (BitVec.ofNat 32 ((bytesOfBits s.unread).count v))) ∧
      t.freq[256] = 1 ∧
      t = { s with
        freq := t.freq, freqValid := true, treeValid := false, codeValid := false,
        inPos := s.inBits.length,
        answers := s.answers.drop ((bytesOfBits s.unread).length + 1),
        trace := s.trace ++ List.replicate ((bytesOfBits s.unread).length + 1) (.readBits 8) }

/-- R112: on the (2^32 - 1)-th byte COUNT raises E_OVERFLOW, and FREQ_VALID stays 0. -/
def Obligations.CountOverflowFaults : Prop :=
  ∀ s : State, s.Ready → 8 * (2 ^ 32 - 1) ≤ s.unread.length →
    ∃ t, exec .count s = .next t ∧ t.mode = .fault ∧ t.err = ⟨10, 1, 1⟩ ∧
      t.freqValid = false ∧ t.treeValid = false ∧ t.codeValid = false ∧
      t.inPos = s.inPos + 8 * (2 ^ 32 - 1) ∧ t.outBits = s.outBits

/-- R111: FREQ[256] is exactly 1 after every successful COUNT, for every input. -/
def Obligations.SentinelCountIsOne : Prop :=
  ∀ s t : State, s.mode = .idle → exec .count s = .next t → t.freqValid = true →
    t.freq[256] = 1

/-! ## BUILD -/

/-- R122: extraction takes the least (weight, index) and leaves the rest. -/
def Obligations.ExtractionTakesTheLeast : Prop :=
  ∀ live : List Cand, live ≠ [] → (live.map (·.idx)).Nodup →
    ∃ m rest, xmin live = some (m, rest) ∧ m ∈ live ∧
      (∀ c ∈ live, c ≠ m →
        m.weight.toNat < c.weight.toNat ∨ (m.weight = c.weight ∧ m.idx < c.idx)) ∧
      rest = live.erase m ∧ ∀ c, c ∈ rest ↔ (c ∈ live ∧ c ≠ m)

/-- R121, R124, R126: the end state of BUILD, with L the number of Symbols with a positive count. -/
def Obligations.BuildEndState : Prop :=
  ∀ s : State, s.mode = .idle → s.freqValid = true → 0 < s.freq[256] →
    ∃ t, exec .build s = .next t ∧
      t = { s with
        node := t.node, ncount := t.ncount, root := t.root, treeValid := true,
        codeValid := false } ∧
      (∀ (k : Nat) (p : Count × Nat), (positives s.freq)[k]? = some p →
        t.node[k]? = some (Node.mkLeaf (BitVec.ofNat 9 p.2) p.1)) ∧
      ((positives s.freq).length = 1 → t.ncount = 3 ∧ t.root = 2) ∧
      (2 ≤ (positives s.freq).length →
        t.ncount.toNat = 2 * (positives s.freq).length - 1 ∧
        t.root.toNat = 2 * (positives s.freq).length - 2 ∧
        ∀ k, (positives s.freq).length ≤ k → k < t.ncount.toNat →
          ∃ n, t.node[k]? = some n ∧ n.leaf = false) ∧
      t.ncount.toNat ≤ 513 ∧
      ∃ n, t.node[t.root.toNat]? = some n ∧ n.leaf = false

/-- R125: empty input gives the twin-sentinel tree. -/
def Obligations.EmptyInputBuildsTheTwinTree : Prop :=
  ∀ s : State, s.mode = .idle → s.freqValid = true → (∀ k < 256, s.freq[k]? = some 0) →
    0 < s.freq[256] →
    ∃ t, exec .build s = .next t ∧
      t.node[0]? = some ⟨true, 256, 0, 0, s.freq[256]⟩ ∧
      t.node[1]? = some ⟨true, 256, 0, 0, 0⟩ ∧
      t.node[2]? = some ⟨false, 0, 0, 1, s.freq[256]⟩ ∧
      t.root = 2 ∧ t.ncount = 3 ∧ t.treeValid = true ∧
      t.tree = some (.node (.leaf 256) (.leaf 256))

/-- R123: the left child never has a greater weight than the right child, and on equal weights it
has the smaller index (two leaves or more, so that merges made every internal node). -/
def Obligations.LeftChildIsExtractedFirst : Prop :=
  ∀ s : State, s.mode = .idle → s.freqValid = true → 0 < s.freq[256] →
    2 ≤ (positives s.freq).length →
    ∃ t, exec .build s = .next t ∧
      ∀ (k : Nat) (n l r : Node), k < t.ncount.toNat → t.node[k]? = some n → n.leaf = false →
        t.node[n.left.toNat]? = some l → t.node[n.right.toNat]? = some r →
        l.weight.toNat < r.weight.toNat ∨
          (l.weight = r.weight ∧ n.left.toNat < n.right.toNat)

/-- R129 (a) to (d): exact sums, the root's weight, older children, and one leaf per Symbol. -/
def Obligations.BuiltTreeWeights : Prop :=
  ∀ s : State, s.mode = .idle → s.freqValid = true → FreqOk s →
    ∃ t T, exec .build s = .next t ∧ t.tree = some T ∧
      (∀ (k : Nat) (n : Node), k < t.ncount.toNat → t.node[k]? = some n → n.leaf = false →
        ∃ l r, t.node[n.left.toNat]? = some l ∧ t.node[n.right.toNat]? = some r ∧
          n.weight.toNat = l.weight.toNat + r.weight.toNat ∧
          n.left.toNat < k ∧ n.right.toNat < k) ∧
      (∃ n, t.node[t.root.toNat]? = some n ∧ n.weight.toNat = countSum s.freq) ∧
      (∃ W, t.weightedTree = some W ∧ shapeOf W = T ∧ weightsAdd W = true ∧
        (rootWeight W).toNat = countSum s.freq) ∧
      (2 ≤ (positives s.freq).length →
        ((leafPaths T).map (·.1)).Perm ((positives s.freq).map fun p => BitVec.ofNat 9 p.2))

/-- R120 against DOC0 §4.2: the tree in the node store is the tree of the greedy algorithm run on a
queue ordered by weight, ties by insertion order. -/
def Obligations.BuildRefinesTheGreedyQueue : Prop :=
  ∀ s : State, s.mode = .idle → s.freqValid = true → 0 < s.freq[256] →
    ∃ t T, exec .build s = .next t ∧ t.tree = some T ∧ greedyTree s.freq = some T

/-- R128: BUILD on a table without a positive count raises E_INT_EMPTY, TREE_VALID and CODE_VALID
stay 0, no node is made. No run reaches such a table (R111). -/
def Obligations.NoLeafRaisesIntEmpty : Prop :=
  ∀ s : State, s.mode = .idle → s.freqValid = true → (∀ k < 257, s.freq[k]? = some 0) →
    exec .build s = .next { s with
      mode := .fault, err := ⟨11, 2, 2⟩, treeValid := false, codeValid := false, ncount := 0 }

/-! ## DERIVE and the Code Table -/

/-- R140, R141, R142: every Symbol on a leaf gets the path of its rightmost leaf, every other entry
is {0, 0, 0}. -/
def Obligations.DeriveAssignsPaths : Prop :=
  ∀ s : State, s.mode = .idle → s.treeValid = true → TreeOk s →
    ∃ t T, exec .derive s = .next t ∧ s.tree = some T ∧
      (∀ k < 257, t.code[k]? = some (codeEntry T k)) ∧
      t = { s with code := t.code, codeValid := true }

/-- R264: whenever CODE_VALID = 1 a valid entry has 1 to 256 bits and BITS < 2^LEN, and every other
entry is {0, 0, 0}. -/
def Obligations.ValidCodesFitTheirLength : Prop :=
  ∀ s : State, ProductInv s → s.codeValid = true →
    ∀ (k : Nat) (c : Code), s.code[k]? = some c →
      (c.valid = true → 1 ≤ c.len.toNat ∧ c.len.toNat ≤ 256 ∧ c.bits.toNat < 2 ^ c.len.toNat) ∧
      (c.valid = false → c = ⟨false, 0, 0⟩)

/-- R266: whenever CODE_VALID = 1, no code is a prefix of the code of another Symbol. -/
def Obligations.CodesArePrefixFree : Prop :=
  ∀ s : State, ProductInv s → s.codeValid = true →
    ∀ (j k : Nat) (c d : Code), j ≠ k → s.code[j]? = some c → s.code[k]? = some d →
      c.valid = true → d.valid = true → ¬ c.seq <+: d.seq

/-- R263: the sizes of a valid tree. -/
def Obligations.ValidTreeSizeBounds : Prop :=
  ∀ s : State, TreeOk s → ∃ T, s.tree = some T ∧
    s.ncount.toNat = 2 * leafCount T - 1 ∧ internalCount T = leafCount T - 1 ∧
    2 ≤ leafCount T ∧ leafCount T ≤ 257 ∧ treeDepth T ≤ leafCount T - 1

/-! ## The Header Codec -/

/-- R150: WRMAGIC appends the 32 bits of MAGIC. -/
def Obligations.WrmagicAppendsTheMagic : Prop :=
  ∀ s : State, s.Ready → s.outClosed = false →
    exec .wrmagic s = .next { s with
      outBits := s.outBits ++ bitsOf 32 Config.magic.toNat,
      answers := s.answers.drop 1,
      trace := s.trace ++ [.writeBits 32 Config.magic.toNat] }

/-- R152: WRTREE appends the header of the tree, in 3 L - 1 port calls (R252). -/
def Obligations.WrtreeAppendsTheHeader : Prop :=
  ∀ s : State, s.Ready → s.treeValid = true → s.outClosed = false → TreeOk s →
    ∃ t T, exec .wrtree s = .next t ∧ s.tree = some T ∧
      t.trace.length = s.trace.length + (3 * leafCount T - 1) ∧
      t = { s with
        outBits := s.outBits ++ headerBits T,
        answers := s.answers.drop (3 * leafCount T - 1), trace := t.trace }

/-- R156: RDMAGIC succeeds exactly when 32 bits are left and equal MAGIC; otherwise E_FMT_MAGIC. -/
def Obligations.RdmagicChecksTheMagic : Prop :=
  ∀ s : State, s.Ready →
    (s.inPos + 32 ≤ s.inBits.length → fieldAt 32 s.inBits s.inPos = Config.magic →
      exec .rdmagic s = .next { s with
        inPos := s.inPos + 32, answers := s.answers.drop 1,
        trace := s.trace ++ [.readBits 32] }) ∧
    (s.inPos + 32 ≤ s.inBits.length → fieldAt 32 s.inBits s.inPos ≠ Config.magic →
      exec .rdmagic s = .next { s with
        mode := .fault, err := ⟨1, 9, 9⟩, inPos := s.inPos + 32, answers := s.answers.drop 1,
        trace := s.trace ++ [.readBits 32] }) ∧
    (s.inBits.length < s.inPos + 32 →
      exec .rdmagic s = .next { s with
        mode := .fault, err := ⟨1, 9, 9⟩, inPos := s.inBits.length, answers := s.answers.drop 1,
        trace := s.trace ++ [.readBits 32] })

/-- R160: RDTREE rebuilds the tree whose header stands at the cursor, numbered in pre-order with
weights 0, and leaves the cursor on the first bit after it. -/
def Obligations.RdtreeRebuildsTheTree : Prop :=
  ∀ (s : State) (T : Tree) (rest : Bits), s.Ready → HeaderTree T →
    s.unread = headerBits T ++ rest →
    ∃ t, exec .rdtree s = .next t ∧ t.tree = some T ∧
      t.ncount.toNat = 2 * leafCount T - 1 ∧
      t.visited = some (List.range t.ncount.toNat) ∧
      (∀ (k : Nat) (n : Node), k < t.ncount.toNat → t.node[k]? = some n → n.weight = 0) ∧
      (∃ W, t.weightedTree = some W ∧ shapeOf W = T ∧ weightsZero W = true) ∧
      t = { s with
        node := t.node, ncount := t.ncount, root := 0, treeValid := true, codeValid := false,
        inPos := s.inPos + (11 * leafCount T - 1),
        answers := s.answers.drop (3 * leafCount T - 1), trace := t.trace }

/-- R160, R162, DOC0 §4.5: the input ends inside a header, before the token `x` is complete (`ts` are
the whole tokens before it, `q` what is left of `x`): E_FMT_HDR_TRUNC. At most 513 tokens are begun,
none with a label above 256; 513 tokens and then the end is truncation too. -/
def Obligations.TruncatedHeaderFaults : Prop :=
  ∀ (s : State) (T : Tree) (ts us : List Instr) (x : Instr) (q : Bits), s.Ready →
    headerTokens T = ts ++ x :: us → (∀ i ∈ ts, i.wellFormed = true) →
    s.unread = tokenBits ts ++ q → q <+: x.bits → q ≠ x.bits →
    ts.length ≤ 513 → (q ≠ [] → ts.length < 513) →
    ∃ t, exec .rdtree s = .next t ∧
      t = { s with
        mode := .fault, err := ⟨2, 0xA, 0xA⟩, treeValid := false, codeValid := false,
        node := t.node, ncount := t.ncount, inPos := s.inBits.length, answers := t.answers,
        trace := t.trace, draws := t.draws }

/-- R161, R162, R163: after the whole tokens `ts` of a header, a leaf token with a label above 256;
or, after 513 tokens, the first bit of one more; or a first token that is a leaf: E_FMT_HDR_BAD with
the cursor just after those bits, whatever follows. -/
def Obligations.BadHeaderFaults : Prop :=
  ∀ (s : State) (T : Tree) (ts us : List Instr) (x : Instr) (seen rest : Bits), s.Ready →
    headerTokens T = ts ++ x :: us → (∀ i ∈ ts, i.wellFormed = true) →
    s.unread = tokenBits ts ++ seen ++ rest →
    ((∃ v : Sym, x = .hdrLeaf v ∧ 256 < v.toNat ∧ ts.length < 513 ∧ seen = x.bits) ∨
      (ts.length = 513 ∧ seen.length = 1) ∨
      (∃ v : Sym, x = .hdrLeaf v ∧ v.toNat ≤ 256 ∧ ts = [] ∧ seen = x.bits)) →
    ∃ t, exec .rdtree s = .next t ∧
      t = { s with
        mode := .fault, err := ⟨3, 0xA, 0xA⟩, treeValid := false, codeValid := false,
        node := t.node, ncount := t.ncount,
        inPos := s.inPos + (tokenBits ts ++ seen).length, answers := t.answers,
        trace := t.trace, draws := t.draws }

/-- R165: WRTREE, then in the next session RDTREE on the written bits, gives a tree equal in shape
and labels. -/
def Obligations.HeaderRoundTrip : Prop :=
  ∀ s : State, s.Ready → s.treeValid = true → s.outClosed = false → TreeOk s →
    ∃ t u w T, exec .wrtree s = .next t ∧
      exec .clear { t with nextIn := t.outBits.drop s.outBits.length } = .next u ∧
      exec .rdtree u = .next w ∧ w.treeValid = true ∧ s.tree = some T ∧ w.tree = some T

/-! ## The Stream Encoder -/

/-- R170, R172: ENCODE appends the code of every byte and then, once, the sentinel's code. -/
def Obligations.EncodeAppendsTheCodes : Prop :=
  ∀ (s : State) (e : Code), s.Ready → s.codeValid = true → s.outClosed = false → CodesFit s →
    (∀ b ∈ bytesOfBits s.unread, ∃ c, s.code[b.toNat]? = some c ∧ c.valid = true) →
    s.code[256]? = some e → e.valid = true →
    ∃ t, exec .encode s = .next t ∧
      t = { s with
        inPos := s.inBits.length,
        outBits := s.outBits ++ codeBits s.code (bytesOfBits s.unread) ++ e.seq,
        answers := s.answers.drop (2 * (bytesOfBits s.unread).length + 2), trace := t.trace }

/-- R171: a value without a code, or a sentinel without one, is E_INT_LOOKUP; nothing is written
for it and the bits written before stay. -/
def Obligations.EncodeLookupMissFaults : Prop :=
  ∀ s : State, s.Ready → s.codeValid = true → s.outClosed = false → CodesFit s →
    (∀ (good more : List Byte) (b : Byte) (c : Code),
      bytesOfBits s.unread = good ++ b :: more →
      (∀ g ∈ good, ∃ c, s.code[g.toNat]? = some c ∧ c.valid = true) →
      s.code[b.toNat]? = some c → c.valid = false →
      ∃ t, exec .encode s = .next t ∧ t.mode = .fault ∧ t.err = ⟨7, 6, 6⟩ ∧
        t.outBits = s.outBits ++ codeBits s.code good ∧
        t.inPos = s.inPos + 8 * (good.length + 1) ∧ t.outClosed = false) ∧
    (∀ c : Code,
      (∀ b ∈ bytesOfBits s.unread, ∃ c, s.code[b.toNat]? = some c ∧ c.valid = true) →
      s.code[256]? = some c → c.valid = false →
      ∃ t, exec .encode s = .next t ∧ t.mode = .fault ∧ t.err = ⟨7, 6, 6⟩ ∧
        t.outBits = s.outBits ++ codeBits s.code (bytesOfBits s.unread) ∧
        t.inPos = s.inBits.length ∧ t.outClosed = false)

/-! ## The Stream Decoder -/

/-- R180: DECODE of the code words of literal leaves followed by a sentinel leaf's code word writes
the literals and stops right there, whatever bits follow (R92). -/
def Obligations.DecodeWritesTheLiterals : Prop :=
  ∀ (s : State) (l r : Tree) (ws : List (Sym × Bits)) (v : Sym) (p rest : Bits), s.Ready →
    s.treeValid = true → s.outClosed = false → s.tree = some (.node l r) →
    LiteralLeaves (.node l r) ws → (v, p) ∈ leafPaths (.node l r) → v.toNat = 256 →
    s.unread = pathBits ws ++ p ++ rest →
    ∃ t, exec .decode s = .next t ∧
      t = { s with
        inPos := s.inPos + (pathBits ws ++ p).length,
        outBits := s.outBits ++ literalBits ws,
        answers := s.answers.drop ((pathBits ws ++ p).length + ws.length), trace := t.trace }

/-- R181, R183: end of input before a sentinel leaf, inside a code word or between two, is
E_FMT_STREAM; the bytes written before stay and OUT is not closed. -/
def Obligations.TruncatedSymbolStreamFaults : Prop :=
  ∀ (s : State) (l r : Tree) (ws : List (Sym × Bits)) (v : Sym) (p q : Bits), s.Ready →
    s.treeValid = true → s.outClosed = false → s.tree = some (.node l r) →
    LiteralLeaves (.node l r) ws → (v, p) ∈ leafPaths (.node l r) → q <+: p → q ≠ p →
    s.unread = pathBits ws ++ q →
    ∃ t, exec .decode s = .next t ∧ t.mode = .fault ∧ t.err = ⟨4, 0xB, 0xB⟩ ∧
      t.outBits = s.outBits ++ literalBits ws ∧ t.inPos = s.inBits.length ∧
      t.outClosed = false ∧ t.treeValid = true

/-! ## Control -/

/-- R192, R57: CLOSE pads with zero bits to a multiple of 8 and closes. -/
def Obligations.ClosePadsAndCloses : Prop :=
  ∀ s : State, s.Ready → s.outClosed = false →
    exec .close s = .next { s with
      outBits := padded s.outBits, outShut := true, outClosed := true,
      answers := s.answers.drop 1, trace := s.trace ++ [.close] } ∧
    (padded s.outBits).length % 8 = 0 ∧ (padded s.outBits).length < s.outBits.length + 8 ∧
    padded s.outBits = s.outBits ++ List.replicate ((8 - s.outBits.length % 8) % 8) false

/-- R194, R54: REWIND puts the cursor at 0; nothing else changes. -/
def Obligations.RewindSetsTheCursorToZero : Prop :=
  ∀ s : State, s.Ready →
    exec .rewind s = .next { s with
      inPos := 0, answers := s.answers.drop 1, trace := s.trace ++ [.rewind] }

/-- R196, R85: COMPRESS from cursor 0 writes the magic, the header of the greedy tree, the codes of
the input's bytes and the sentinel's, and the padding. -/
def Obligations.CompressWritesTheStream : Prop :=
  ∀ s : State, s.Ready → s.outClosed = false → s.inPos = 0 →
    (bytesOfBits s.inBits).length ≤ 2 ^ 32 - 2 →
    ∃ t T, exec .compress s = .next t ∧ t.tree = some T ∧ greedyTree t.freq = some T ∧
      (∀ v : Byte,
        t.freq[v.toNat]? = some (BitVec.ofNat 32 ((bytesOfBits s.inBits).count v))) ∧
      t.freq[256] = 1 ∧ (∀ k < 257, t.code[k]? = some (codeEntry T k)) ∧
      t = { s with
        freqValid := true, treeValid := true, codeValid := true, outClosed := true,
        outShut := true, inPos := s.inBits.length, freq := t.freq, node := t.node,
        root := t.root, ncount := t.ncount, code := t.code,
        outBits := padded (s.outBits ++ bitsOf 32 Config.magic.toNat ++ headerBits T ++
          codeBits t.code (bytesOfBits s.inBits) ++ (codeEntry T 256).seq),
        answers := t.answers, trace := t.trace }

/-- R198: DECOMPRESS of a stream of R85 writes the literals, closes, and leaves the cursor just after
the sentinel's code. -/
def Obligations.DecompressReadsTheStream : Prop :=
  ∀ (s : State) (T : Tree) (ws : List (Sym × Bits)) (v : Sym) (p rest : Bits), s.Ready →
    s.outClosed = false → HeaderTree T → LiteralLeaves T ws → (v, p) ∈ leafPaths T →
    v.toNat = 256 →
    s.unread = bitsOf 32 Config.magic.toNat ++ headerBits T ++ pathBits ws ++ p ++ rest →
    ∃ t, exec .decompress s = .next t ∧ t.tree = some T ∧
      t = { s with
        treeValid := true, codeValid := false, outClosed := true, outShut := true,
        node := t.node, root := 0, ncount := t.ncount,
        inPos := s.inPos + (32 + (11 * leafCount T - 1) + (pathBits ws).length + p.length),
        outBits := padded (s.outBits ++ literalBits ws),
        answers := t.answers, trace := t.trace }

/-- R272 (d), R200: DECOMPRESS of a stream whose first 32 bits are not MAGIC faults in RDMAGIC and
writes nothing. -/
def Obligations.CorruptedMagicWritesNothing : Prop :=
  ∀ s : State, s.Ready → s.outClosed = false →
    (s.inBits.length < s.inPos + 32 ∨ fieldAt 32 s.inBits s.inPos ≠ Config.magic) →
    ∃ t, exec .decompress s = .next t ∧ t.mode = .fault ∧ t.err = ⟨1, 9, 0xD⟩ ∧
      t.outBits = s.outBits ∧ t.outClosed = false ∧ t.outShut = s.outShut ∧
      t.trace = s.trace ++ [.readBits 32] ∧ t.treeValid = s.treeValid

/-- R272 (e), R200: DECOMPRESS of a stream that ends before a sentinel leaf faults in DECODE; CLOSE
does not run. -/
def Obligations.TruncatedStreamIsNotSuccess : Prop :=
  ∀ (s : State) (T : Tree) (ws : List (Sym × Bits)) (v : Sym) (p q : Bits), s.Ready →
    s.outClosed = false → HeaderTree T → LiteralLeaves T ws → (v, p) ∈ leafPaths T →
    q <+: p → q ≠ p →
    s.unread = bitsOf 32 Config.magic.toNat ++ headerBits T ++ pathBits ws ++ q →
    ∃ t, exec .decompress s = .next t ∧ t.mode = .fault ∧ t.err = ⟨4, 0xB, 0xD⟩ ∧
      t.outClosed = false ∧ t.outShut = s.outShut ∧ t.outBits = s.outBits ++ literalBits ws ∧
      t.treeValid = true

/-- R267: COMPRESS is a function of the input: whatever the products and the counters held before,
equal inputs give equal outputs, tables and trees. -/
def Obligations.CompressDependsOnTheInputOnly : Prop :=
  ∀ s u : State, s.Ready → u.Ready → s.outClosed = false → u.outClosed = false → s.inPos = 0 →
    u.inPos = 0 → s.inBits = u.inBits → s.outBits = u.outBits →
    (bytesOfBits s.inBits).length ≤ 2 ^ 32 - 2 →
    ∃ t w, exec .compress s = .next t ∧ exec .compress u = .next w ∧ t.outBits = w.outBits ∧
      t.freq = w.freq ∧ t.code = w.code ∧ t.tree = w.tree

/-- R271: DECOMPRESS in the next session of what COMPRESS wrote gives the input back, bit for bit,
for every byte sequence of at most 2^32 - 2 bytes, the empty one included. -/
def Obligations.CompressDecompressRoundTrip : Prop :=
  ∀ (s : State) (bs : List Byte), s.Ready → s.outClosed = false → s.outBits = [] →
    s.inPos = 0 → s.inBits = bitsOfBytes bs → bs.length ≤ 2 ^ 32 - 2 →
    ∃ t u w, exec .compress s = .next t ∧
      exec .clear { t with nextIn := t.outBits } = .next u ∧
      exec .decompress u = .next w ∧ w.mode = .idle ∧ w.outClosed = true ∧
      w.outBits = bitsOfBytes bs

/-! ## Stream tokens -/

/-- R86, R87, R89, R90, with the model's reading of a token as the field its command writes (log
entry 10): a well-formed token appends exactly its bits. -/
def Obligations.TokenAppendsItsBits : Prop :=
  ∀ (i : Instr) (s : State), i.commandWord = none → i.wellFormed = true → s.Ready →
    s.outClosed = false →
    ∃ t, exec i s = .next t ∧
      t = { s with outBits := s.outBits ++ i.bits, answers := t.answers, trace := t.trace }

/-- R86, R89, R93, with the model's reading of a token (log entries 10, 11 and 12): an illegal MAGIC
or HDR_LEAF has its reader's fault, every other token written to a closed output raises E_SEQ of the
command that writes it (R82), and a CODEWORD of no legal length is the model's own stop. -/
def Obligations.IllegalTokenIsRejected : Prop :=
  ∀ s : State, s.mode = .idle →
    (∀ v : Sym, 256 < v.toNat →
      exec (.hdrLeaf v) s = .next { s with mode := .fault, err := ⟨3, 0xA, 0xA⟩ }) ∧
    (∀ m : BitVec 32, m ≠ Config.magic →
      exec (.magic m) s = .next { s with mode := .fault, err := ⟨1, 9, 9⟩ }) ∧
    (s.outClosed = true →
      exec (.magic Config.magic) s = .next { s with mode := .fault, err := ⟨8, 4, 4⟩ } ∧
      exec .hdrInternal s = .next { s with mode := .fault, err := ⟨8, 5, 5⟩ } ∧
      (∀ v : Sym, v.toNat ≤ 256 →
        exec (.hdrLeaf v) s = .next { s with mode := .fault, err := ⟨8, 5, 5⟩ }) ∧
      (∀ (len : CodeLen) (b : BitVec 256),
        exec (.codeword len b) s = .next { s with mode := .fault, err := ⟨8, 6, 6⟩ }) ∧
      ∀ b, exec (.literal8 b) s = .next { s with mode := .fault, err := ⟨8, 0xB, 0xB⟩ }) ∧
    (s.outClosed = false → ∀ (len : CodeLen) (b : BitVec 256), len.toNat = 0 ∨ 256 < len.toNat →
      exec (.codeword len b) s = .fault .writeWidth)

/-! ## Frames -/

/-- What the reading commands may change, however they end: COUNT its table and flags, RDTREE the
node store and flags, RDMAGIC and REWIND nothing; each STATE, ERR and the cursor. OUT is
untouched. -/
def Obligations.ReadersFrame : Prop :=
  ∀ s t : State,
    (exec .count s = .next t → t = { s with
      mode := t.mode, err := t.err, freqValid := t.freqValid, treeValid := t.treeValid,
      codeValid := t.codeValid, freq := t.freq, inPos := t.inPos, answers := t.answers,
      trace := t.trace, draws := t.draws }) ∧
    (exec .rdtree s = .next t → t = { s with
      mode := t.mode, err := t.err, treeValid := t.treeValid, codeValid := t.codeValid,
      node := t.node, root := t.root, ncount := t.ncount, inPos := t.inPos,
      answers := t.answers, trace := t.trace, draws := t.draws }) ∧
    (exec .rdmagic s = .next t → t = { s with
      mode := t.mode, err := t.err, inPos := t.inPos, answers := t.answers, trace := t.trace,
      draws := t.draws }) ∧
    (exec .rewind s = .next t → t = { s with
      mode := t.mode, err := t.err, inPos := t.inPos, answers := t.answers, trace := t.trace,
      draws := t.draws })

/-- What BUILD and DERIVE may change, however they end: their product, its flags, STATE and ERR.
Neither touches a port. -/
def Obligations.ProducersFrame : Prop :=
  ∀ s t : State,
    (exec .build s = .next t → t = { s with
      mode := t.mode, err := t.err, treeValid := t.treeValid, codeValid := t.codeValid,
      node := t.node, root := t.root, ncount := t.ncount }) ∧
    (exec .derive s = .next t → t = { s with
      mode := t.mode, err := t.err, codeValid := t.codeValid, code := t.code })

/-- What the writing commands and the stream tokens may change, however they end: STATE, ERR and the
output (CLOSE also OUT_CLOSED). IN and every product are untouched. -/
def Obligations.WritersFrame : Prop :=
  ∀ s t : State,
    (∀ i : Instr, i = .wrmagic ∨ i = .wrtree ∨ i.commandWord = none → exec i s = .next t →
      t = { s with
        mode := t.mode, err := t.err, outBits := t.outBits, outShut := t.outShut,
        answers := t.answers, trace := t.trace, draws := t.draws }) ∧
    (exec .close s = .next t → t = { s with
      mode := t.mode, err := t.err, outBits := t.outBits, outShut := t.outShut,
      outClosed := t.outClosed, answers := t.answers, trace := t.trace, draws := t.draws })

/-- What ENCODE and DECODE may change, however they end: STATE, ERR, the cursor and the output. -/
def Obligations.StreamersFrame : Prop :=
  ∀ (i : Instr) (s t : State), i = .encode ∨ i = .decode → exec i s = .next t →
    t = { s with
      mode := t.mode, err := t.err, inPos := t.inPos, outBits := t.outBits,
      outShut := t.outShut, answers := t.answers, trace := t.trace, draws := t.draws }

/-- What the composites may change, however they end: never the input stream, the host's acts or
the read data; DECOMPRESS neither FREQ nor CODE. -/
def Obligations.CompositesFrame : Prop :=
  ∀ s t : State,
    (exec .compress s = .next t → t.inBits = s.inBits ∧ t.hostOps = s.hostOps ∧
      t.nextIn = s.nextIn ∧ t.readData = s.readData) ∧
    (exec .decompress s = .next t → t = { s with
      mode := t.mode, err := t.err, treeValid := t.treeValid, codeValid := t.codeValid,
      outClosed := t.outClosed, node := t.node, root := t.root, ncount := t.ncount,
      inPos := t.inPos, outBits := t.outBits, outShut := t.outShut, answers := t.answers,
      trace := t.trace, draws := t.draws })

/-- R60, R55, R65 (c): within a session IN.bits never changes, and unless a port call failed the
output only grows at its end. -/
def Obligations.StreamsAreOnlyReadAndAppended : Prop :=
  ∀ (i : Instr) (s t : State), i ≠ .clear → exec i s = .next t →
    t.inBits = s.inBits ∧ (t.err.code ≠ 5 → s.outBits <+: t.outBits)

/-- R192, R82: once OUT_CLOSED = 1 no instruction but CLEAR writes to OUT or opens it. -/
def Obligations.ClosedOutputStaysAsItIs : Prop :=
  ∀ (i : Instr) (s t : State), i ≠ .clear → s.outClosed = true → exec i s = .next t →
    t.outClosed = true ∧ t.outBits = s.outBits ∧ t.outShut = s.outShut

/-! ## Invariants -/

/-- Every step keeps the control invariant (R28, R31, R51, R57, R265). -/
def Obligations.StepKeepsControlInv : Prop :=
  ∀ s t : State, ControlInv s → step s = .next t → ControlInv t

/-- The control invariant and the product invariant hold after reset. -/
def Obligations.InvariantsHoldAtReset : Prop := ControlInv State.reset ∧ ProductInv State.reset

/-- Every step keeps the product invariant: a flag that reads 1 describes a complete product (R22,
R262, R264, R265). -/
def Obligations.StepKeepsProductInv : Prop :=
  ∀ s t : State, ProductInv s → step s = .next t → ProductInv t

/-- R270: from every state in which the flags describe their products, a step ends in a next state:
no command runs on without end and the model's own stops are never reached. -/
def Obligations.StepAlwaysCompletes : Prop :=
  ∀ s : State, ProductInv s → ∃ t, step s = .next t
end

