-- ==== Sys2Proof/Laws/Bits.lean ====
section
/-! SUPPORT. Bit sequences and their values (spec/00_scope.md R9, 20_memory.md R58): `bitsOf` and
`valOf` are inverse to each other, and reading a field off the front of a sequence. -/

namespace Sys2Proof

@[simp] theorem bitsOf_length (n v : Nat) : (bitsOf n v).length = n := by
  induction n with
  | zero => rfl
  | succ n ih => simp [bitsOf, ih]

theorem valFrom_append (acc : Nat) (p q : Bits) : valFrom acc (p ++ q) = valFrom (valFrom acc p) q := by
  induction p generalizing acc with
  | nil => rfl
  | cons b p ih => simp [valFrom, ih]

theorem valFrom_eq (acc : Nat) (q : Bits) : valFrom acc q = acc * 2 ^ q.length + valOf q := by
  induction q generalizing acc with
  | nil => simp [valFrom, valOf]
  | cons b q ih =>
    simp only [valFrom, valOf, List.length_cons, ih (2 * acc + b.toNat), ih (2 * 0 + b.toNat)]
    ring

theorem valOf_cons (b : Bool) (q : Bits) : valOf (b :: q) = b.toNat * 2 ^ q.length + valOf q := by
  have h := valFrom_eq (2 * 0 + b.toNat) q
  simpa [valOf, valFrom] using h

theorem valOf_append_bit (q : Bits) (b : Bool) : valOf (q ++ [b]) = 2 * valOf q + b.toNat := by
  simp [valOf, valFrom_append, valFrom]

theorem valOf_lt (q : Bits) : valOf q < 2 ^ q.length := by
  induction q with
  | nil => simp [valOf, valFrom]
  | cons b q ih =>
    rw [valOf_cons, List.length_cons, pow_succ]
    have hb : b.toNat ≤ 1 := Bool.toNat_le b
    nlinarith [Nat.mul_le_mul_right (2 ^ q.length) hb]

/-- Reading a field's bits gives its value (R9: `val` is the inverse of `bits_N`). -/
theorem valOf_bitsOf (n v : Nat) : valOf (bitsOf n v) = v % 2 ^ n := by
  induction n with
  | zero => simp [bitsOf, valOf, valFrom, Nat.mod_one]
  | succ n ih =>
    rw [bitsOf, valOf_cons, ih, bitsOf_length, Nat.mod_pow_succ, Nat.toNat_testBit]
    ring

theorem valOf_bitsOf_lt {n v : Nat} (h : v < 2 ^ n) : valOf (bitsOf n v) = v := by
  rw [valOf_bitsOf, Nat.mod_eq_of_lt h]

/-- Writing a value's bits gives the sequence it was read from. -/
theorem bitsOf_valOf (q : Bits) : bitsOf q.length (valOf q) = q := by
  induction q with
  | nil => rfl
  | cons b q ih =>
    have hlt := valOf_lt q
    rw [List.length_cons, bitsOf, valOf_cons]
    congr 1
    · rw [Nat.testBit_eq_decide_div_mod_eq, Nat.add_comm,
        Nat.add_mul_div_right _ _ (Nat.two_pow_pos _), Nat.div_eq_of_lt hlt]
      cases b <;> simp
    · have hmod : ∀ m a c : Nat, bitsOf m (a * 2 ^ m + c) = bitsOf m c := by
        intro m
        induction m with
        | zero => intros; rfl
        | succ m ihm =>
          intro a c
          rw [bitsOf, bitsOf]
          congr 1
          · rw [Nat.testBit_eq_decide_div_mod_eq, Nat.testBit_eq_decide_div_mod_eq,
              show a * 2 ^ (m + 1) + c = c + 2 * a * 2 ^ m by rw [pow_succ]; ring,
              Nat.add_mul_div_right _ _ (Nat.two_pow_pos _), Nat.add_mul_mod_self_left]
          · have := ihm (2 * a) c
            rwa [show 2 * a * 2 ^ m = a * 2 ^ (m + 1) by rw [pow_succ]; ring] at this
      rw [hmod, ih]

/-- The field at the cursor, when its bits stand there. -/
theorem fieldAt_of_drop {n : Nat} {q p rest : Bits} {k : Nat} (h : q.drop k = p ++ rest)
    (hp : p.length = n) : fieldAt n q k = BitVec.ofNat n (valOf p) := by
  rw [fieldAt, h, ← hp, List.take_left']
  rfl

theorem fieldAt_bitsOf {n : Nat} {v : BitVec n} {q rest : Bits} {k : Nat}
    (h : q.drop k = bitsOf n v.toNat ++ rest) : fieldAt n q k = v := by
  rw [fieldAt_of_drop h (bitsOf_length _ _), valOf_bitsOf_lt v.isLt, BitVec.ofNat_toNat,
    BitVec.setWidth_eq]

/-- The one-bit field is the next bit. -/
theorem fieldAt_one {q rest : Bits} {b : Bool} {k : Nat} (h : q.drop k = b :: rest) :
    fieldAt 1 q k = BitVec.ofBool b := by
  have := fieldAt_of_drop (n := 1) (p := [b]) (rest := rest) (by simpa using h) rfl
  rw [this]
  cases b <;> rfl

/-! ## Bytes -/

theorem bytesOfBitsAux_short {fuel : Nat} {q : Bits} (h : q.length < 8) :
    bytesOfBitsAux fuel q = [] := by
  cases fuel with
  | zero => rfl
  | succ n => simp [bytesOfBitsAux, Nat.not_le.mpr h]

/-- More fuel than whole bytes changes nothing. -/
theorem bytesOfBitsAux_fuel {q : Bits} {f g : Nat} (hf : q.length < 8 * f + 8)
    (hg : q.length < 8 * g + 8) : bytesOfBitsAux f q = bytesOfBitsAux g q := by
  induction f generalizing q g with
  | zero => rw [bytesOfBitsAux_short (by omega), bytesOfBitsAux_short (by omega)]
  | succ f ih =>
    cases g with
    | zero => rw [bytesOfBitsAux_short (by omega), bytesOfBitsAux_short (by omega)]
    | succ g =>
      by_cases h : 8 ≤ q.length
      · simp only [bytesOfBitsAux, h, if_true]
        rw [ih (g := g)] <;> simp <;> omega
      · simp [bytesOfBitsAux, h]

theorem bytesOfBits_short {q : Bits} (h : q.length < 8) : bytesOfBits q = [] :=
  bytesOfBitsAux_short h

theorem bytesOfBits_cons {q : Bits} (h : 8 ≤ q.length) :
    bytesOfBits q = fieldAt 8 q 0 :: bytesOfBits (q.drop 8) := by
  obtain ⟨n, hn⟩ : ∃ n, q.length = n + 1 := ⟨q.length - 1, by omega⟩
  rw [bytesOfBits, hn, bytesOfBitsAux, if_pos h, bytesOfBits]
  congr 1
  apply bytesOfBitsAux_fuel <;> simp <;> omega

theorem bytesOfBits_length (q : Bits) : (bytesOfBits q).length = q.length / 8 := by
  induction hn : q.length using Nat.strong_induction_on generalizing q with
  | _ n ih =>
    by_cases h : 8 ≤ q.length
    · rw [bytesOfBits_cons h, List.length_cons, ih (q.drop 8).length (by simp; omega) _ rfl]
      simp
      omega
    · rw [bytesOfBits_short (by omega)]
      simp
      omega

@[simp] theorem bitsOfBytes_length (bs : List Byte) : (bitsOfBytes bs).length = 8 * bs.length := by
  induction bs with
  | nil => rfl
  | cons b bs ih => simp [bitsOfBytes, ih]; omega

theorem bytesOfBits_bitsOfBytes (bs : List Byte) : bytesOfBits (bitsOfBytes bs) = bs := by
  induction bs with
  | nil => rfl
  | cons b bs ih =>
    rw [bytesOfBits_cons (by simp), bitsOfBytes, fieldAt_bitsOf (v := b) (rest := bitsOfBytes bs) rfl,
      List.drop_left' (bitsOf_length _ _), ih]

end Sys2Proof
end

