-- ==== Sys2Proof/Laws/State.lean ====
section
/-! SUPPORT. One lemma per field per named update of the state, true by rfl, for simp: later proofs
need not unfold a record update. -/

namespace Sys2Proof.Machine

/-! ### `State.raise` -/

@[simp] theorem State.raise_mode (f : FaultCode) (op cmd : OpCode) (s : State) :
    (State.raise f op cmd s).mode = .fault := rfl
@[simp] theorem State.raise_freqValid (f : FaultCode) (op cmd : OpCode) (s : State) :
    (State.raise f op cmd s).freqValid = s.freqValid := rfl
@[simp] theorem State.raise_treeValid (f : FaultCode) (op cmd : OpCode) (s : State) :
    (State.raise f op cmd s).treeValid = s.treeValid := rfl
@[simp] theorem State.raise_codeValid (f : FaultCode) (op cmd : OpCode) (s : State) :
    (State.raise f op cmd s).codeValid = s.codeValid := rfl
@[simp] theorem State.raise_outClosed (f : FaultCode) (op cmd : OpCode) (s : State) :
    (State.raise f op cmd s).outClosed = s.outClosed := rfl
@[simp] theorem State.raise_err (f : FaultCode) (op cmd : OpCode) (s : State) :
    (State.raise f op cmd s).err = ⟨f.code, op, cmd⟩ := rfl
@[simp] theorem State.raise_root (f : FaultCode) (op cmd : OpCode) (s : State) :
    (State.raise f op cmd s).root = s.root := rfl
@[simp] theorem State.raise_ncount (f : FaultCode) (op cmd : OpCode) (s : State) :
    (State.raise f op cmd s).ncount = s.ncount := rfl
@[simp] theorem State.raise_freq (f : FaultCode) (op cmd : OpCode) (s : State) :
    (State.raise f op cmd s).freq = s.freq := rfl
@[simp] theorem State.raise_node (f : FaultCode) (op cmd : OpCode) (s : State) :
    (State.raise f op cmd s).node = s.node := rfl
@[simp] theorem State.raise_code (f : FaultCode) (op cmd : OpCode) (s : State) :
    (State.raise f op cmd s).code = s.code := rfl
@[simp] theorem State.raise_inBits (f : FaultCode) (op cmd : OpCode) (s : State) :
    (State.raise f op cmd s).inBits = s.inBits := rfl
@[simp] theorem State.raise_inPos (f : FaultCode) (op cmd : OpCode) (s : State) :
    (State.raise f op cmd s).inPos = s.inPos := rfl
@[simp] theorem State.raise_outBits (f : FaultCode) (op cmd : OpCode) (s : State) :
    (State.raise f op cmd s).outBits = s.outBits := rfl
@[simp] theorem State.raise_outShut (f : FaultCode) (op cmd : OpCode) (s : State) :
    (State.raise f op cmd s).outShut = s.outShut := rfl
@[simp] theorem State.raise_hostOps (f : FaultCode) (op cmd : OpCode) (s : State) :
    (State.raise f op cmd s).hostOps = s.hostOps := rfl
@[simp] theorem State.raise_nextIn (f : FaultCode) (op cmd : OpCode) (s : State) :
    (State.raise f op cmd s).nextIn = s.nextIn := rfl
@[simp] theorem State.raise_answers (f : FaultCode) (op cmd : OpCode) (s : State) :
    (State.raise f op cmd s).answers = s.answers := rfl
@[simp] theorem State.raise_trace (f : FaultCode) (op cmd : OpCode) (s : State) :
    (State.raise f op cmd s).trace = s.trace := rfl
@[simp] theorem State.raise_draws (f : FaultCode) (op cmd : OpCode) (s : State) :
    (State.raise f op cmd s).draws = s.draws := rfl
@[simp] theorem State.raise_readData (f : FaultCode) (op cmd : OpCode) (s : State) :
    (State.raise f op cmd s).readData = s.readData := rfl

/-! ### `State.logCall` -/

@[simp] theorem State.logCall_mode (c : PortCall) (s : State) :
    (State.logCall c s).mode = s.mode := rfl
@[simp] theorem State.logCall_freqValid (c : PortCall) (s : State) :
    (State.logCall c s).freqValid = s.freqValid := rfl
@[simp] theorem State.logCall_treeValid (c : PortCall) (s : State) :
    (State.logCall c s).treeValid = s.treeValid := rfl
@[simp] theorem State.logCall_codeValid (c : PortCall) (s : State) :
    (State.logCall c s).codeValid = s.codeValid := rfl
@[simp] theorem State.logCall_outClosed (c : PortCall) (s : State) :
    (State.logCall c s).outClosed = s.outClosed := rfl
@[simp] theorem State.logCall_err (c : PortCall) (s : State) :
    (State.logCall c s).err = s.err := rfl
@[simp] theorem State.logCall_root (c : PortCall) (s : State) :
    (State.logCall c s).root = s.root := rfl
@[simp] theorem State.logCall_ncount (c : PortCall) (s : State) :
    (State.logCall c s).ncount = s.ncount := rfl
@[simp] theorem State.logCall_freq (c : PortCall) (s : State) :
    (State.logCall c s).freq = s.freq := rfl
@[simp] theorem State.logCall_node (c : PortCall) (s : State) :
    (State.logCall c s).node = s.node := rfl
@[simp] theorem State.logCall_code (c : PortCall) (s : State) :
    (State.logCall c s).code = s.code := rfl
@[simp] theorem State.logCall_inBits (c : PortCall) (s : State) :
    (State.logCall c s).inBits = s.inBits := rfl
@[simp] theorem State.logCall_inPos (c : PortCall) (s : State) :
    (State.logCall c s).inPos = s.inPos := rfl
@[simp] theorem State.logCall_outBits (c : PortCall) (s : State) :
    (State.logCall c s).outBits = s.outBits := rfl
@[simp] theorem State.logCall_outShut (c : PortCall) (s : State) :
    (State.logCall c s).outShut = s.outShut := rfl
@[simp] theorem State.logCall_hostOps (c : PortCall) (s : State) :
    (State.logCall c s).hostOps = s.hostOps := rfl
@[simp] theorem State.logCall_nextIn (c : PortCall) (s : State) :
    (State.logCall c s).nextIn = s.nextIn := rfl
@[simp] theorem State.logCall_answers (c : PortCall) (s : State) :
    (State.logCall c s).answers = s.answers.tail := rfl
@[simp] theorem State.logCall_trace (c : PortCall) (s : State) :
    (State.logCall c s).trace = s.trace ++ [c] := rfl
@[simp] theorem State.logCall_draws (c : PortCall) (s : State) :
    (State.logCall c s).draws = s.draws := rfl
@[simp] theorem State.logCall_readData (c : PortCall) (s : State) :
    (State.logCall c s).readData = s.readData := rfl

/-! ### `State.spoilIn` -/

@[simp] theorem State.spoilIn_mode (s : State) : (s.spoilIn).mode = s.mode := rfl
@[simp] theorem State.spoilIn_freqValid (s : State) : (s.spoilIn).freqValid = s.freqValid := rfl
@[simp] theorem State.spoilIn_treeValid (s : State) : (s.spoilIn).treeValid = s.treeValid := rfl
@[simp] theorem State.spoilIn_codeValid (s : State) : (s.spoilIn).codeValid = s.codeValid := rfl
@[simp] theorem State.spoilIn_outClosed (s : State) : (s.spoilIn).outClosed = s.outClosed := rfl
@[simp] theorem State.spoilIn_err (s : State) : (s.spoilIn).err = s.err := rfl
@[simp] theorem State.spoilIn_root (s : State) : (s.spoilIn).root = s.root := rfl
@[simp] theorem State.spoilIn_ncount (s : State) : (s.spoilIn).ncount = s.ncount := rfl
@[simp] theorem State.spoilIn_freq (s : State) : (s.spoilIn).freq = s.freq := rfl
@[simp] theorem State.spoilIn_node (s : State) : (s.spoilIn).node = s.node := rfl
@[simp] theorem State.spoilIn_code (s : State) : (s.spoilIn).code = s.code := rfl
@[simp] theorem State.spoilIn_inBits (s : State) : (s.spoilIn).inBits = s.inBits := rfl
@[simp] theorem State.spoilIn_inPos (s : State) :
    (s.spoilIn).inPos = min (Config.freePos s.draws) s.inBits.length := rfl
@[simp] theorem State.spoilIn_outBits (s : State) : (s.spoilIn).outBits = s.outBits := rfl
@[simp] theorem State.spoilIn_outShut (s : State) : (s.spoilIn).outShut = s.outShut := rfl
@[simp] theorem State.spoilIn_hostOps (s : State) : (s.spoilIn).hostOps = s.hostOps := rfl
@[simp] theorem State.spoilIn_nextIn (s : State) : (s.spoilIn).nextIn = s.nextIn := rfl
@[simp] theorem State.spoilIn_answers (s : State) : (s.spoilIn).answers = s.answers := rfl
@[simp] theorem State.spoilIn_trace (s : State) : (s.spoilIn).trace = s.trace := rfl
@[simp] theorem State.spoilIn_draws (s : State) : (s.spoilIn).draws = s.draws + 1 := rfl
@[simp] theorem State.spoilIn_readData (s : State) : (s.spoilIn).readData = s.readData := rfl

/-! ### `State.spoilOut` -/

@[simp] theorem State.spoilOut_mode (s : State) : (s.spoilOut).mode = s.mode := rfl
@[simp] theorem State.spoilOut_freqValid (s : State) : (s.spoilOut).freqValid = s.freqValid := rfl
@[simp] theorem State.spoilOut_treeValid (s : State) : (s.spoilOut).treeValid = s.treeValid := rfl
@[simp] theorem State.spoilOut_codeValid (s : State) : (s.spoilOut).codeValid = s.codeValid := rfl
@[simp] theorem State.spoilOut_outClosed (s : State) : (s.spoilOut).outClosed = s.outClosed := rfl
@[simp] theorem State.spoilOut_err (s : State) : (s.spoilOut).err = s.err := rfl
@[simp] theorem State.spoilOut_root (s : State) : (s.spoilOut).root = s.root := rfl
@[simp] theorem State.spoilOut_ncount (s : State) : (s.spoilOut).ncount = s.ncount := rfl
@[simp] theorem State.spoilOut_freq (s : State) : (s.spoilOut).freq = s.freq := rfl
@[simp] theorem State.spoilOut_node (s : State) : (s.spoilOut).node = s.node := rfl
@[simp] theorem State.spoilOut_code (s : State) : (s.spoilOut).code = s.code := rfl
@[simp] theorem State.spoilOut_inBits (s : State) : (s.spoilOut).inBits = s.inBits := rfl
@[simp] theorem State.spoilOut_inPos (s : State) : (s.spoilOut).inPos = s.inPos := rfl
@[simp] theorem State.spoilOut_outBits (s : State) :
    (s.spoilOut).outBits = Config.freeStream s.draws := rfl
@[simp] theorem State.spoilOut_outShut (s : State) :
    (s.spoilOut).outShut = Config.freeFlag s.draws := rfl
@[simp] theorem State.spoilOut_hostOps (s : State) : (s.spoilOut).hostOps = s.hostOps := rfl
@[simp] theorem State.spoilOut_nextIn (s : State) : (s.spoilOut).nextIn = s.nextIn := rfl
@[simp] theorem State.spoilOut_answers (s : State) : (s.spoilOut).answers = s.answers := rfl
@[simp] theorem State.spoilOut_trace (s : State) : (s.spoilOut).trace = s.trace := rfl
@[simp] theorem State.spoilOut_draws (s : State) : (s.spoilOut).draws = s.draws + 1 := rfl
@[simp] theorem State.spoilOut_readData (s : State) : (s.spoilOut).readData = s.readData := rfl

/-! ### `State.newSession` -/

@[simp] theorem State.newSession_mode (s : State) : (s.newSession).mode = .idle := rfl
@[simp] theorem State.newSession_freqValid (s : State) : (s.newSession).freqValid = false := rfl
@[simp] theorem State.newSession_treeValid (s : State) : (s.newSession).treeValid = false := rfl
@[simp] theorem State.newSession_codeValid (s : State) : (s.newSession).codeValid = false := rfl
@[simp] theorem State.newSession_outClosed (s : State) : (s.newSession).outClosed = false := rfl
@[simp] theorem State.newSession_err (s : State) : (s.newSession).err = .none := rfl
@[simp] theorem State.newSession_root (s : State) : (s.newSession).root = 0 := rfl
@[simp] theorem State.newSession_ncount (s : State) : (s.newSession).ncount = 0 := rfl
@[simp] theorem State.newSession_inBits (s : State) : (s.newSession).inBits = s.nextIn := rfl
@[simp] theorem State.newSession_inPos (s : State) : (s.newSession).inPos = 0 := rfl
@[simp] theorem State.newSession_outBits (s : State) : (s.newSession).outBits = [] := rfl
@[simp] theorem State.newSession_outShut (s : State) : (s.newSession).outShut = false := rfl
@[simp] theorem State.newSession_hostOps (s : State) : (s.newSession).hostOps = s.hostOps := rfl
@[simp] theorem State.newSession_nextIn (s : State) : (s.newSession).nextIn = s.nextIn := rfl
@[simp] theorem State.newSession_answers (s : State) : (s.newSession).answers = s.answers := rfl
@[simp] theorem State.newSession_trace (s : State) : (s.newSession).trace = [] := rfl
@[simp] theorem State.newSession_draws (s : State) : (s.newSession).draws = s.draws + 1 := rfl
@[simp] theorem State.newSession_readData (s : State) : (s.newSession).readData = s.readData := rfl

/-! ### `State.countByte` -/

@[simp] theorem State.countByte_mode (v : Byte) (s : State) :
    (State.countByte v s).mode = s.mode := rfl
@[simp] theorem State.countByte_freqValid (v : Byte) (s : State) :
    (State.countByte v s).freqValid = s.freqValid := rfl
@[simp] theorem State.countByte_treeValid (v : Byte) (s : State) :
    (State.countByte v s).treeValid = s.treeValid := rfl
@[simp] theorem State.countByte_codeValid (v : Byte) (s : State) :
    (State.countByte v s).codeValid = s.codeValid := rfl
@[simp] theorem State.countByte_outClosed (v : Byte) (s : State) :
    (State.countByte v s).outClosed = s.outClosed := rfl
@[simp] theorem State.countByte_err (v : Byte) (s : State) :
    (State.countByte v s).err = s.err := rfl
@[simp] theorem State.countByte_root (v : Byte) (s : State) :
    (State.countByte v s).root = s.root := rfl
@[simp] theorem State.countByte_ncount (v : Byte) (s : State) :
    (State.countByte v s).ncount = s.ncount := rfl
@[simp] theorem State.countByte_node (v : Byte) (s : State) :
    (State.countByte v s).node = s.node := rfl
@[simp] theorem State.countByte_code (v : Byte) (s : State) :
    (State.countByte v s).code = s.code := rfl
@[simp] theorem State.countByte_inBits (v : Byte) (s : State) :
    (State.countByte v s).inBits = s.inBits := rfl
@[simp] theorem State.countByte_inPos (v : Byte) (s : State) :
    (State.countByte v s).inPos = s.inPos := rfl
@[simp] theorem State.countByte_outBits (v : Byte) (s : State) :
    (State.countByte v s).outBits = s.outBits := rfl
@[simp] theorem State.countByte_outShut (v : Byte) (s : State) :
    (State.countByte v s).outShut = s.outShut := rfl
@[simp] theorem State.countByte_hostOps (v : Byte) (s : State) :
    (State.countByte v s).hostOps = s.hostOps := rfl
@[simp] theorem State.countByte_nextIn (v : Byte) (s : State) :
    (State.countByte v s).nextIn = s.nextIn := rfl
@[simp] theorem State.countByte_answers (v : Byte) (s : State) :
    (State.countByte v s).answers = s.answers := rfl
@[simp] theorem State.countByte_trace (v : Byte) (s : State) :
    (State.countByte v s).trace = s.trace := rfl
@[simp] theorem State.countByte_draws (v : Byte) (s : State) :
    (State.countByte v s).draws = s.draws := rfl
@[simp] theorem State.countByte_readData (v : Byte) (s : State) :
    (State.countByte v s).readData = s.readData := rfl

/-! ### `State.seedFreq` -/

@[simp] theorem State.seedFreq_mode (s : State) : (s.seedFreq).mode = s.mode := rfl
@[simp] theorem State.seedFreq_freqValid (s : State) : (s.seedFreq).freqValid = s.freqValid := rfl
@[simp] theorem State.seedFreq_treeValid (s : State) : (s.seedFreq).treeValid = s.treeValid := rfl
@[simp] theorem State.seedFreq_codeValid (s : State) : (s.seedFreq).codeValid = s.codeValid := rfl
@[simp] theorem State.seedFreq_outClosed (s : State) : (s.seedFreq).outClosed = s.outClosed := rfl
@[simp] theorem State.seedFreq_err (s : State) : (s.seedFreq).err = s.err := rfl
@[simp] theorem State.seedFreq_root (s : State) : (s.seedFreq).root = s.root := rfl
@[simp] theorem State.seedFreq_ncount (s : State) : (s.seedFreq).ncount = s.ncount := rfl
@[simp] theorem State.seedFreq_freq (s : State) :
    (s.seedFreq).freq = (Vector.replicate 257 0).set 256 1 := rfl
@[simp] theorem State.seedFreq_node (s : State) : (s.seedFreq).node = s.node := rfl
@[simp] theorem State.seedFreq_code (s : State) : (s.seedFreq).code = s.code := rfl
@[simp] theorem State.seedFreq_inBits (s : State) : (s.seedFreq).inBits = s.inBits := rfl
@[simp] theorem State.seedFreq_inPos (s : State) : (s.seedFreq).inPos = s.inPos := rfl
@[simp] theorem State.seedFreq_outBits (s : State) : (s.seedFreq).outBits = s.outBits := rfl
@[simp] theorem State.seedFreq_outShut (s : State) : (s.seedFreq).outShut = s.outShut := rfl
@[simp] theorem State.seedFreq_hostOps (s : State) : (s.seedFreq).hostOps = s.hostOps := rfl
@[simp] theorem State.seedFreq_nextIn (s : State) : (s.seedFreq).nextIn = s.nextIn := rfl
@[simp] theorem State.seedFreq_answers (s : State) : (s.seedFreq).answers = s.answers := rfl
@[simp] theorem State.seedFreq_trace (s : State) : (s.seedFreq).trace = s.trace := rfl
@[simp] theorem State.seedFreq_draws (s : State) : (s.seedFreq).draws = s.draws := rfl
@[simp] theorem State.seedFreq_readData (s : State) : (s.seedFreq).readData = s.readData := rfl

/-! ### `State.clearProducts` -/

@[simp] theorem State.clearProducts_mode (s : State) : (s.clearProducts).mode = s.mode := rfl
@[simp] theorem State.clearProducts_freqValid (s : State) :
    (s.clearProducts).freqValid = false := rfl
@[simp] theorem State.clearProducts_treeValid (s : State) :
    (s.clearProducts).treeValid = false := rfl
@[simp] theorem State.clearProducts_codeValid (s : State) :
    (s.clearProducts).codeValid = false := rfl
@[simp] theorem State.clearProducts_outClosed (s : State) :
    (s.clearProducts).outClosed = s.outClosed := rfl
@[simp] theorem State.clearProducts_err (s : State) : (s.clearProducts).err = s.err := rfl
@[simp] theorem State.clearProducts_root (s : State) : (s.clearProducts).root = s.root := rfl
@[simp] theorem State.clearProducts_ncount (s : State) : (s.clearProducts).ncount = s.ncount := rfl
@[simp] theorem State.clearProducts_freq (s : State) : (s.clearProducts).freq = s.freq := rfl
@[simp] theorem State.clearProducts_node (s : State) : (s.clearProducts).node = s.node := rfl
@[simp] theorem State.clearProducts_code (s : State) : (s.clearProducts).code = s.code := rfl
@[simp] theorem State.clearProducts_inBits (s : State) : (s.clearProducts).inBits = s.inBits := rfl
@[simp] theorem State.clearProducts_inPos (s : State) : (s.clearProducts).inPos = s.inPos := rfl
@[simp] theorem State.clearProducts_outBits (s : State) :
    (s.clearProducts).outBits = s.outBits := rfl
@[simp] theorem State.clearProducts_outShut (s : State) :
    (s.clearProducts).outShut = s.outShut := rfl
@[simp] theorem State.clearProducts_hostOps (s : State) :
    (s.clearProducts).hostOps = s.hostOps := rfl
@[simp] theorem State.clearProducts_nextIn (s : State) : (s.clearProducts).nextIn = s.nextIn := rfl
@[simp] theorem State.clearProducts_answers (s : State) :
    (s.clearProducts).answers = s.answers := rfl
@[simp] theorem State.clearProducts_trace (s : State) : (s.clearProducts).trace = s.trace := rfl
@[simp] theorem State.clearProducts_draws (s : State) : (s.clearProducts).draws = s.draws := rfl
@[simp] theorem State.clearProducts_readData (s : State) :
    (s.clearProducts).readData = s.readData := rfl

/-! ### `State.clearTree` -/

@[simp] theorem State.clearTree_mode (s : State) : (s.clearTree).mode = s.mode := rfl
@[simp] theorem State.clearTree_freqValid (s : State) : (s.clearTree).freqValid = s.freqValid := rfl
@[simp] theorem State.clearTree_treeValid (s : State) : (s.clearTree).treeValid = false := rfl
@[simp] theorem State.clearTree_codeValid (s : State) : (s.clearTree).codeValid = false := rfl
@[simp] theorem State.clearTree_outClosed (s : State) : (s.clearTree).outClosed = s.outClosed := rfl
@[simp] theorem State.clearTree_err (s : State) : (s.clearTree).err = s.err := rfl
@[simp] theorem State.clearTree_root (s : State) : (s.clearTree).root = s.root := rfl
@[simp] theorem State.clearTree_ncount (s : State) : (s.clearTree).ncount = s.ncount := rfl
@[simp] theorem State.clearTree_freq (s : State) : (s.clearTree).freq = s.freq := rfl
@[simp] theorem State.clearTree_node (s : State) : (s.clearTree).node = s.node := rfl
@[simp] theorem State.clearTree_code (s : State) : (s.clearTree).code = s.code := rfl
@[simp] theorem State.clearTree_inBits (s : State) : (s.clearTree).inBits = s.inBits := rfl
@[simp] theorem State.clearTree_inPos (s : State) : (s.clearTree).inPos = s.inPos := rfl
@[simp] theorem State.clearTree_outBits (s : State) : (s.clearTree).outBits = s.outBits := rfl
@[simp] theorem State.clearTree_outShut (s : State) : (s.clearTree).outShut = s.outShut := rfl
@[simp] theorem State.clearTree_hostOps (s : State) : (s.clearTree).hostOps = s.hostOps := rfl
@[simp] theorem State.clearTree_nextIn (s : State) : (s.clearTree).nextIn = s.nextIn := rfl
@[simp] theorem State.clearTree_answers (s : State) : (s.clearTree).answers = s.answers := rfl
@[simp] theorem State.clearTree_trace (s : State) : (s.clearTree).trace = s.trace := rfl
@[simp] theorem State.clearTree_draws (s : State) : (s.clearTree).draws = s.draws := rfl
@[simp] theorem State.clearTree_readData (s : State) : (s.clearTree).readData = s.readData := rfl

/-! ### `State.clearCode` -/

@[simp] theorem State.clearCode_mode (s : State) : (s.clearCode).mode = s.mode := rfl
@[simp] theorem State.clearCode_freqValid (s : State) : (s.clearCode).freqValid = s.freqValid := rfl
@[simp] theorem State.clearCode_treeValid (s : State) : (s.clearCode).treeValid = s.treeValid := rfl
@[simp] theorem State.clearCode_codeValid (s : State) : (s.clearCode).codeValid = false := rfl
@[simp] theorem State.clearCode_outClosed (s : State) : (s.clearCode).outClosed = s.outClosed := rfl
@[simp] theorem State.clearCode_err (s : State) : (s.clearCode).err = s.err := rfl
@[simp] theorem State.clearCode_root (s : State) : (s.clearCode).root = s.root := rfl
@[simp] theorem State.clearCode_ncount (s : State) : (s.clearCode).ncount = s.ncount := rfl
@[simp] theorem State.clearCode_freq (s : State) : (s.clearCode).freq = s.freq := rfl
@[simp] theorem State.clearCode_node (s : State) : (s.clearCode).node = s.node := rfl
@[simp] theorem State.clearCode_code (s : State) : (s.clearCode).code = s.code := rfl
@[simp] theorem State.clearCode_inBits (s : State) : (s.clearCode).inBits = s.inBits := rfl
@[simp] theorem State.clearCode_inPos (s : State) : (s.clearCode).inPos = s.inPos := rfl
@[simp] theorem State.clearCode_outBits (s : State) : (s.clearCode).outBits = s.outBits := rfl
@[simp] theorem State.clearCode_outShut (s : State) : (s.clearCode).outShut = s.outShut := rfl
@[simp] theorem State.clearCode_hostOps (s : State) : (s.clearCode).hostOps = s.hostOps := rfl
@[simp] theorem State.clearCode_nextIn (s : State) : (s.clearCode).nextIn = s.nextIn := rfl
@[simp] theorem State.clearCode_answers (s : State) : (s.clearCode).answers = s.answers := rfl
@[simp] theorem State.clearCode_trace (s : State) : (s.clearCode).trace = s.trace := rfl
@[simp] theorem State.clearCode_draws (s : State) : (s.clearCode).draws = s.draws := rfl
@[simp] theorem State.clearCode_readData (s : State) : (s.clearCode).readData = s.readData := rfl

/-! ### `State.setFreqValid` -/

@[simp] theorem State.setFreqValid_mode (s : State) : (s.setFreqValid).mode = s.mode := rfl
@[simp] theorem State.setFreqValid_freqValid (s : State) : (s.setFreqValid).freqValid = true := rfl
@[simp] theorem State.setFreqValid_treeValid (s : State) :
    (s.setFreqValid).treeValid = s.treeValid := rfl
@[simp] theorem State.setFreqValid_codeValid (s : State) :
    (s.setFreqValid).codeValid = s.codeValid := rfl
@[simp] theorem State.setFreqValid_outClosed (s : State) :
    (s.setFreqValid).outClosed = s.outClosed := rfl
@[simp] theorem State.setFreqValid_err (s : State) : (s.setFreqValid).err = s.err := rfl
@[simp] theorem State.setFreqValid_root (s : State) : (s.setFreqValid).root = s.root := rfl
@[simp] theorem State.setFreqValid_ncount (s : State) : (s.setFreqValid).ncount = s.ncount := rfl
@[simp] theorem State.setFreqValid_freq (s : State) : (s.setFreqValid).freq = s.freq := rfl
@[simp] theorem State.setFreqValid_node (s : State) : (s.setFreqValid).node = s.node := rfl
@[simp] theorem State.setFreqValid_code (s : State) : (s.setFreqValid).code = s.code := rfl
@[simp] theorem State.setFreqValid_inBits (s : State) : (s.setFreqValid).inBits = s.inBits := rfl
@[simp] theorem State.setFreqValid_inPos (s : State) : (s.setFreqValid).inPos = s.inPos := rfl
@[simp] theorem State.setFreqValid_outBits (s : State) : (s.setFreqValid).outBits = s.outBits := rfl
@[simp] theorem State.setFreqValid_outShut (s : State) : (s.setFreqValid).outShut = s.outShut := rfl
@[simp] theorem State.setFreqValid_hostOps (s : State) : (s.setFreqValid).hostOps = s.hostOps := rfl
@[simp] theorem State.setFreqValid_nextIn (s : State) : (s.setFreqValid).nextIn = s.nextIn := rfl
@[simp] theorem State.setFreqValid_answers (s : State) : (s.setFreqValid).answers = s.answers := rfl
@[simp] theorem State.setFreqValid_trace (s : State) : (s.setFreqValid).trace = s.trace := rfl
@[simp] theorem State.setFreqValid_draws (s : State) : (s.setFreqValid).draws = s.draws := rfl
@[simp] theorem State.setFreqValid_readData (s : State) :
    (s.setFreqValid).readData = s.readData := rfl

/-! ### `State.setTreeValid` -/

@[simp] theorem State.setTreeValid_mode (r : Nat) (s : State) :
    (State.setTreeValid r s).mode = s.mode := rfl
@[simp] theorem State.setTreeValid_freqValid (r : Nat) (s : State) :
    (State.setTreeValid r s).freqValid = s.freqValid := rfl
@[simp] theorem State.setTreeValid_treeValid (r : Nat) (s : State) :
    (State.setTreeValid r s).treeValid = true := rfl
@[simp] theorem State.setTreeValid_codeValid (r : Nat) (s : State) :
    (State.setTreeValid r s).codeValid = s.codeValid := rfl
@[simp] theorem State.setTreeValid_outClosed (r : Nat) (s : State) :
    (State.setTreeValid r s).outClosed = s.outClosed := rfl
@[simp] theorem State.setTreeValid_err (r : Nat) (s : State) :
    (State.setTreeValid r s).err = s.err := rfl
@[simp] theorem State.setTreeValid_root (r : Nat) (s : State) :
    (State.setTreeValid r s).root = BitVec.ofNat 10 r := rfl
@[simp] theorem State.setTreeValid_ncount (r : Nat) (s : State) :
    (State.setTreeValid r s).ncount = s.ncount := rfl
@[simp] theorem State.setTreeValid_freq (r : Nat) (s : State) :
    (State.setTreeValid r s).freq = s.freq := rfl
@[simp] theorem State.setTreeValid_node (r : Nat) (s : State) :
    (State.setTreeValid r s).node = s.node := rfl
@[simp] theorem State.setTreeValid_code (r : Nat) (s : State) :
    (State.setTreeValid r s).code = s.code := rfl
@[simp] theorem State.setTreeValid_inBits (r : Nat) (s : State) :
    (State.setTreeValid r s).inBits = s.inBits := rfl
@[simp] theorem State.setTreeValid_inPos (r : Nat) (s : State) :
    (State.setTreeValid r s).inPos = s.inPos := rfl
@[simp] theorem State.setTreeValid_outBits (r : Nat) (s : State) :
    (State.setTreeValid r s).outBits = s.outBits := rfl
@[simp] theorem State.setTreeValid_outShut (r : Nat) (s : State) :
    (State.setTreeValid r s).outShut = s.outShut := rfl
@[simp] theorem State.setTreeValid_hostOps (r : Nat) (s : State) :
    (State.setTreeValid r s).hostOps = s.hostOps := rfl
@[simp] theorem State.setTreeValid_nextIn (r : Nat) (s : State) :
    (State.setTreeValid r s).nextIn = s.nextIn := rfl
@[simp] theorem State.setTreeValid_answers (r : Nat) (s : State) :
    (State.setTreeValid r s).answers = s.answers := rfl
@[simp] theorem State.setTreeValid_trace (r : Nat) (s : State) :
    (State.setTreeValid r s).trace = s.trace := rfl
@[simp] theorem State.setTreeValid_draws (r : Nat) (s : State) :
    (State.setTreeValid r s).draws = s.draws := rfl
@[simp] theorem State.setTreeValid_readData (r : Nat) (s : State) :
    (State.setTreeValid r s).readData = s.readData := rfl

/-! ### `State.setCodeValid` -/

@[simp] theorem State.setCodeValid_mode (s : State) : (s.setCodeValid).mode = s.mode := rfl
@[simp] theorem State.setCodeValid_freqValid (s : State) :
    (s.setCodeValid).freqValid = s.freqValid := rfl
@[simp] theorem State.setCodeValid_treeValid (s : State) :
    (s.setCodeValid).treeValid = s.treeValid := rfl
@[simp] theorem State.setCodeValid_codeValid (s : State) : (s.setCodeValid).codeValid = true := rfl
@[simp] theorem State.setCodeValid_outClosed (s : State) :
    (s.setCodeValid).outClosed = s.outClosed := rfl
@[simp] theorem State.setCodeValid_err (s : State) : (s.setCodeValid).err = s.err := rfl
@[simp] theorem State.setCodeValid_root (s : State) : (s.setCodeValid).root = s.root := rfl
@[simp] theorem State.setCodeValid_ncount (s : State) : (s.setCodeValid).ncount = s.ncount := rfl
@[simp] theorem State.setCodeValid_freq (s : State) : (s.setCodeValid).freq = s.freq := rfl
@[simp] theorem State.setCodeValid_node (s : State) : (s.setCodeValid).node = s.node := rfl
@[simp] theorem State.setCodeValid_code (s : State) : (s.setCodeValid).code = s.code := rfl
@[simp] theorem State.setCodeValid_inBits (s : State) : (s.setCodeValid).inBits = s.inBits := rfl
@[simp] theorem State.setCodeValid_inPos (s : State) : (s.setCodeValid).inPos = s.inPos := rfl
@[simp] theorem State.setCodeValid_outBits (s : State) : (s.setCodeValid).outBits = s.outBits := rfl
@[simp] theorem State.setCodeValid_outShut (s : State) : (s.setCodeValid).outShut = s.outShut := rfl
@[simp] theorem State.setCodeValid_hostOps (s : State) : (s.setCodeValid).hostOps = s.hostOps := rfl
@[simp] theorem State.setCodeValid_nextIn (s : State) : (s.setCodeValid).nextIn = s.nextIn := rfl
@[simp] theorem State.setCodeValid_answers (s : State) : (s.setCodeValid).answers = s.answers := rfl
@[simp] theorem State.setCodeValid_trace (s : State) : (s.setCodeValid).trace = s.trace := rfl
@[simp] theorem State.setCodeValid_draws (s : State) : (s.setCodeValid).draws = s.draws := rfl
@[simp] theorem State.setCodeValid_readData (s : State) :
    (s.setCodeValid).readData = s.readData := rfl

/-! ### `State.setOutClosed` -/

@[simp] theorem State.setOutClosed_mode (s : State) : (s.setOutClosed).mode = s.mode := rfl
@[simp] theorem State.setOutClosed_freqValid (s : State) :
    (s.setOutClosed).freqValid = s.freqValid := rfl
@[simp] theorem State.setOutClosed_treeValid (s : State) :
    (s.setOutClosed).treeValid = s.treeValid := rfl
@[simp] theorem State.setOutClosed_codeValid (s : State) :
    (s.setOutClosed).codeValid = s.codeValid := rfl
@[simp] theorem State.setOutClosed_outClosed (s : State) : (s.setOutClosed).outClosed = true := rfl
@[simp] theorem State.setOutClosed_err (s : State) : (s.setOutClosed).err = s.err := rfl
@[simp] theorem State.setOutClosed_root (s : State) : (s.setOutClosed).root = s.root := rfl
@[simp] theorem State.setOutClosed_ncount (s : State) : (s.setOutClosed).ncount = s.ncount := rfl
@[simp] theorem State.setOutClosed_freq (s : State) : (s.setOutClosed).freq = s.freq := rfl
@[simp] theorem State.setOutClosed_node (s : State) : (s.setOutClosed).node = s.node := rfl
@[simp] theorem State.setOutClosed_code (s : State) : (s.setOutClosed).code = s.code := rfl
@[simp] theorem State.setOutClosed_inBits (s : State) : (s.setOutClosed).inBits = s.inBits := rfl
@[simp] theorem State.setOutClosed_inPos (s : State) : (s.setOutClosed).inPos = s.inPos := rfl
@[simp] theorem State.setOutClosed_outBits (s : State) : (s.setOutClosed).outBits = s.outBits := rfl
@[simp] theorem State.setOutClosed_outShut (s : State) : (s.setOutClosed).outShut = s.outShut := rfl
@[simp] theorem State.setOutClosed_hostOps (s : State) : (s.setOutClosed).hostOps = s.hostOps := rfl
@[simp] theorem State.setOutClosed_nextIn (s : State) : (s.setOutClosed).nextIn = s.nextIn := rfl
@[simp] theorem State.setOutClosed_answers (s : State) : (s.setOutClosed).answers = s.answers := rfl
@[simp] theorem State.setOutClosed_trace (s : State) : (s.setOutClosed).trace = s.trace := rfl
@[simp] theorem State.setOutClosed_draws (s : State) : (s.setOutClosed).draws = s.draws := rfl
@[simp] theorem State.setOutClosed_readData (s : State) :
    (s.setOutClosed).readData = s.readData := rfl

/-! ### `State.takeBits` -/

@[simp] theorem State.takeBits_mode (n : Nat) (s : State) :
    (State.takeBits n s).mode = s.mode := rfl
@[simp] theorem State.takeBits_freqValid (n : Nat) (s : State) :
    (State.takeBits n s).freqValid = s.freqValid := rfl
@[simp] theorem State.takeBits_treeValid (n : Nat) (s : State) :
    (State.takeBits n s).treeValid = s.treeValid := rfl
@[simp] theorem State.takeBits_codeValid (n : Nat) (s : State) :
    (State.takeBits n s).codeValid = s.codeValid := rfl
@[simp] theorem State.takeBits_outClosed (n : Nat) (s : State) :
    (State.takeBits n s).outClosed = s.outClosed := rfl
@[simp] theorem State.takeBits_err (n : Nat) (s : State) : (State.takeBits n s).err = s.err := rfl
@[simp] theorem State.takeBits_root (n : Nat) (s : State) :
    (State.takeBits n s).root = s.root := rfl
@[simp] theorem State.takeBits_ncount (n : Nat) (s : State) :
    (State.takeBits n s).ncount = s.ncount := rfl
@[simp] theorem State.takeBits_freq (n : Nat) (s : State) :
    (State.takeBits n s).freq = s.freq := rfl
@[simp] theorem State.takeBits_node (n : Nat) (s : State) :
    (State.takeBits n s).node = s.node := rfl
@[simp] theorem State.takeBits_code (n : Nat) (s : State) :
    (State.takeBits n s).code = s.code := rfl
@[simp] theorem State.takeBits_inBits (n : Nat) (s : State) :
    (State.takeBits n s).inBits = s.inBits := rfl
@[simp] theorem State.takeBits_inPos (n : Nat) (s : State) :
    (State.takeBits n s).inPos = s.inPos + n := rfl
@[simp] theorem State.takeBits_outBits (n : Nat) (s : State) :
    (State.takeBits n s).outBits = s.outBits := rfl
@[simp] theorem State.takeBits_outShut (n : Nat) (s : State) :
    (State.takeBits n s).outShut = s.outShut := rfl
@[simp] theorem State.takeBits_hostOps (n : Nat) (s : State) :
    (State.takeBits n s).hostOps = s.hostOps := rfl
@[simp] theorem State.takeBits_nextIn (n : Nat) (s : State) :
    (State.takeBits n s).nextIn = s.nextIn := rfl
@[simp] theorem State.takeBits_answers (n : Nat) (s : State) :
    (State.takeBits n s).answers = s.answers.tail := rfl
@[simp] theorem State.takeBits_trace (n : Nat) (s : State) :
    (State.takeBits n s).trace = s.trace ++ [.readBits n] := rfl
@[simp] theorem State.takeBits_draws (n : Nat) (s : State) :
    (State.takeBits n s).draws = s.draws := rfl
@[simp] theorem State.takeBits_readData (n : Nat) (s : State) :
    (State.takeBits n s).readData = s.readData := rfl

/-! ### `State.takeRest` -/

@[simp] theorem State.takeRest_mode (n : Nat) (s : State) :
    (State.takeRest n s).mode = s.mode := rfl
@[simp] theorem State.takeRest_freqValid (n : Nat) (s : State) :
    (State.takeRest n s).freqValid = s.freqValid := rfl
@[simp] theorem State.takeRest_treeValid (n : Nat) (s : State) :
    (State.takeRest n s).treeValid = s.treeValid := rfl
@[simp] theorem State.takeRest_codeValid (n : Nat) (s : State) :
    (State.takeRest n s).codeValid = s.codeValid := rfl
@[simp] theorem State.takeRest_outClosed (n : Nat) (s : State) :
    (State.takeRest n s).outClosed = s.outClosed := rfl
@[simp] theorem State.takeRest_err (n : Nat) (s : State) : (State.takeRest n s).err = s.err := rfl
@[simp] theorem State.takeRest_root (n : Nat) (s : State) :
    (State.takeRest n s).root = s.root := rfl
@[simp] theorem State.takeRest_ncount (n : Nat) (s : State) :
    (State.takeRest n s).ncount = s.ncount := rfl
@[simp] theorem State.takeRest_freq (n : Nat) (s : State) :
    (State.takeRest n s).freq = s.freq := rfl
@[simp] theorem State.takeRest_node (n : Nat) (s : State) :
    (State.takeRest n s).node = s.node := rfl
@[simp] theorem State.takeRest_code (n : Nat) (s : State) :
    (State.takeRest n s).code = s.code := rfl
@[simp] theorem State.takeRest_inBits (n : Nat) (s : State) :
    (State.takeRest n s).inBits = s.inBits := rfl
@[simp] theorem State.takeRest_inPos (n : Nat) (s : State) :
    (State.takeRest n s).inPos = s.inBits.length := rfl
@[simp] theorem State.takeRest_outBits (n : Nat) (s : State) :
    (State.takeRest n s).outBits = s.outBits := rfl
@[simp] theorem State.takeRest_outShut (n : Nat) (s : State) :
    (State.takeRest n s).outShut = s.outShut := rfl
@[simp] theorem State.takeRest_hostOps (n : Nat) (s : State) :
    (State.takeRest n s).hostOps = s.hostOps := rfl
@[simp] theorem State.takeRest_nextIn (n : Nat) (s : State) :
    (State.takeRest n s).nextIn = s.nextIn := rfl
@[simp] theorem State.takeRest_answers (n : Nat) (s : State) :
    (State.takeRest n s).answers = s.answers.tail := rfl
@[simp] theorem State.takeRest_trace (n : Nat) (s : State) :
    (State.takeRest n s).trace = s.trace ++ [.readBits n] := rfl
@[simp] theorem State.takeRest_draws (n : Nat) (s : State) :
    (State.takeRest n s).draws = s.draws := rfl
@[simp] theorem State.takeRest_readData (n : Nat) (s : State) :
    (State.takeRest n s).readData = s.readData := rfl

/-! ### `State.rewound` -/

@[simp] theorem State.rewound_mode (s : State) : (s.rewound).mode = s.mode := rfl
@[simp] theorem State.rewound_freqValid (s : State) : (s.rewound).freqValid = s.freqValid := rfl
@[simp] theorem State.rewound_treeValid (s : State) : (s.rewound).treeValid = s.treeValid := rfl
@[simp] theorem State.rewound_codeValid (s : State) : (s.rewound).codeValid = s.codeValid := rfl
@[simp] theorem State.rewound_outClosed (s : State) : (s.rewound).outClosed = s.outClosed := rfl
@[simp] theorem State.rewound_err (s : State) : (s.rewound).err = s.err := rfl
@[simp] theorem State.rewound_root (s : State) : (s.rewound).root = s.root := rfl
@[simp] theorem State.rewound_ncount (s : State) : (s.rewound).ncount = s.ncount := rfl
@[simp] theorem State.rewound_freq (s : State) : (s.rewound).freq = s.freq := rfl
@[simp] theorem State.rewound_node (s : State) : (s.rewound).node = s.node := rfl
@[simp] theorem State.rewound_code (s : State) : (s.rewound).code = s.code := rfl
@[simp] theorem State.rewound_inBits (s : State) : (s.rewound).inBits = s.inBits := rfl
@[simp] theorem State.rewound_inPos (s : State) : (s.rewound).inPos = 0 := rfl
@[simp] theorem State.rewound_outBits (s : State) : (s.rewound).outBits = s.outBits := rfl
@[simp] theorem State.rewound_outShut (s : State) : (s.rewound).outShut = s.outShut := rfl
@[simp] theorem State.rewound_hostOps (s : State) : (s.rewound).hostOps = s.hostOps := rfl
@[simp] theorem State.rewound_nextIn (s : State) : (s.rewound).nextIn = s.nextIn := rfl
@[simp] theorem State.rewound_answers (s : State) : (s.rewound).answers = s.answers.tail := rfl
@[simp] theorem State.rewound_trace (s : State) : (s.rewound).trace = s.trace ++ [.rewind] := rfl
@[simp] theorem State.rewound_draws (s : State) : (s.rewound).draws = s.draws := rfl
@[simp] theorem State.rewound_readData (s : State) : (s.rewound).readData = s.readData := rfl

/-! ### `State.putBits` -/

@[simp] theorem State.putBits_mode (n v : Nat) (s : State) :
    (State.putBits n v s).mode = s.mode := rfl
@[simp] theorem State.putBits_freqValid (n v : Nat) (s : State) :
    (State.putBits n v s).freqValid = s.freqValid := rfl
@[simp] theorem State.putBits_treeValid (n v : Nat) (s : State) :
    (State.putBits n v s).treeValid = s.treeValid := rfl
@[simp] theorem State.putBits_codeValid (n v : Nat) (s : State) :
    (State.putBits n v s).codeValid = s.codeValid := rfl
@[simp] theorem State.putBits_outClosed (n v : Nat) (s : State) :
    (State.putBits n v s).outClosed = s.outClosed := rfl
@[simp] theorem State.putBits_err (n v : Nat) (s : State) : (State.putBits n v s).err = s.err := rfl
@[simp] theorem State.putBits_root (n v : Nat) (s : State) :
    (State.putBits n v s).root = s.root := rfl
@[simp] theorem State.putBits_ncount (n v : Nat) (s : State) :
    (State.putBits n v s).ncount = s.ncount := rfl
@[simp] theorem State.putBits_freq (n v : Nat) (s : State) :
    (State.putBits n v s).freq = s.freq := rfl
@[simp] theorem State.putBits_node (n v : Nat) (s : State) :
    (State.putBits n v s).node = s.node := rfl
@[simp] theorem State.putBits_code (n v : Nat) (s : State) :
    (State.putBits n v s).code = s.code := rfl
@[simp] theorem State.putBits_inBits (n v : Nat) (s : State) :
    (State.putBits n v s).inBits = s.inBits := rfl
@[simp] theorem State.putBits_inPos (n v : Nat) (s : State) :
    (State.putBits n v s).inPos = s.inPos := rfl
@[simp] theorem State.putBits_outBits (n v : Nat) (s : State) :
    (State.putBits n v s).outBits = s.outBits ++ bitsOf n v := rfl
@[simp] theorem State.putBits_outShut (n v : Nat) (s : State) :
    (State.putBits n v s).outShut = s.outShut := rfl
@[simp] theorem State.putBits_hostOps (n v : Nat) (s : State) :
    (State.putBits n v s).hostOps = s.hostOps := rfl
@[simp] theorem State.putBits_nextIn (n v : Nat) (s : State) :
    (State.putBits n v s).nextIn = s.nextIn := rfl
@[simp] theorem State.putBits_answers (n v : Nat) (s : State) :
    (State.putBits n v s).answers = s.answers.tail := rfl
@[simp] theorem State.putBits_trace (n v : Nat) (s : State) :
    (State.putBits n v s).trace = s.trace ++ [.writeBits n v] := rfl
@[simp] theorem State.putBits_draws (n v : Nat) (s : State) :
    (State.putBits n v s).draws = s.draws := rfl
@[simp] theorem State.putBits_readData (n v : Nat) (s : State) :
    (State.putBits n v s).readData = s.readData := rfl

/-! ### `State.closeUp` -/

@[simp] theorem State.closeUp_mode (s : State) : (s.closeUp).mode = s.mode := rfl
@[simp] theorem State.closeUp_freqValid (s : State) : (s.closeUp).freqValid = s.freqValid := rfl
@[simp] theorem State.closeUp_treeValid (s : State) : (s.closeUp).treeValid = s.treeValid := rfl
@[simp] theorem State.closeUp_codeValid (s : State) : (s.closeUp).codeValid = s.codeValid := rfl
@[simp] theorem State.closeUp_outClosed (s : State) : (s.closeUp).outClosed = s.outClosed := rfl
@[simp] theorem State.closeUp_err (s : State) : (s.closeUp).err = s.err := rfl
@[simp] theorem State.closeUp_root (s : State) : (s.closeUp).root = s.root := rfl
@[simp] theorem State.closeUp_ncount (s : State) : (s.closeUp).ncount = s.ncount := rfl
@[simp] theorem State.closeUp_freq (s : State) : (s.closeUp).freq = s.freq := rfl
@[simp] theorem State.closeUp_node (s : State) : (s.closeUp).node = s.node := rfl
@[simp] theorem State.closeUp_code (s : State) : (s.closeUp).code = s.code := rfl
@[simp] theorem State.closeUp_inBits (s : State) : (s.closeUp).inBits = s.inBits := rfl
@[simp] theorem State.closeUp_inPos (s : State) : (s.closeUp).inPos = s.inPos := rfl
@[simp] theorem State.closeUp_outBits (s : State) :
    (s.closeUp).outBits = s.outBits ++ List.replicate (padLen s.outBits.length) false := rfl
@[simp] theorem State.closeUp_outShut (s : State) : (s.closeUp).outShut = true := rfl
@[simp] theorem State.closeUp_hostOps (s : State) : (s.closeUp).hostOps = s.hostOps := rfl
@[simp] theorem State.closeUp_nextIn (s : State) : (s.closeUp).nextIn = s.nextIn := rfl
@[simp] theorem State.closeUp_answers (s : State) : (s.closeUp).answers = s.answers.tail := rfl
@[simp] theorem State.closeUp_trace (s : State) : (s.closeUp).trace = s.trace ++ [.close] := rfl
@[simp] theorem State.closeUp_draws (s : State) : (s.closeUp).draws = s.draws := rfl
@[simp] theorem State.closeUp_readData (s : State) : (s.closeUp).readData = s.readData := rfl

/-! ### `State.setNode` -/

@[simp] theorem State.setNode_mode (i : Nat) (n : Node) (h : i < 513) (s : State) :
    (State.setNode i n h s).mode = s.mode := rfl
@[simp] theorem State.setNode_freqValid (i : Nat) (n : Node) (h : i < 513) (s : State) :
    (State.setNode i n h s).freqValid = s.freqValid := rfl
@[simp] theorem State.setNode_treeValid (i : Nat) (n : Node) (h : i < 513) (s : State) :
    (State.setNode i n h s).treeValid = s.treeValid := rfl
@[simp] theorem State.setNode_codeValid (i : Nat) (n : Node) (h : i < 513) (s : State) :
    (State.setNode i n h s).codeValid = s.codeValid := rfl
@[simp] theorem State.setNode_outClosed (i : Nat) (n : Node) (h : i < 513) (s : State) :
    (State.setNode i n h s).outClosed = s.outClosed := rfl
@[simp] theorem State.setNode_err (i : Nat) (n : Node) (h : i < 513) (s : State) :
    (State.setNode i n h s).err = s.err := rfl
@[simp] theorem State.setNode_root (i : Nat) (n : Node) (h : i < 513) (s : State) :
    (State.setNode i n h s).root = s.root := rfl
@[simp] theorem State.setNode_ncount (i : Nat) (n : Node) (h : i < 513) (s : State) :
    (State.setNode i n h s).ncount = s.ncount := rfl
@[simp] theorem State.setNode_freq (i : Nat) (n : Node) (h : i < 513) (s : State) :
    (State.setNode i n h s).freq = s.freq := rfl
@[simp] theorem State.setNode_node (i : Nat) (n : Node) (h : i < 513) (s : State) :
    (State.setNode i n h s).node = s.node.set i n h := rfl
@[simp] theorem State.setNode_code (i : Nat) (n : Node) (h : i < 513) (s : State) :
    (State.setNode i n h s).code = s.code := rfl
@[simp] theorem State.setNode_inBits (i : Nat) (n : Node) (h : i < 513) (s : State) :
    (State.setNode i n h s).inBits = s.inBits := rfl
@[simp] theorem State.setNode_inPos (i : Nat) (n : Node) (h : i < 513) (s : State) :
    (State.setNode i n h s).inPos = s.inPos := rfl
@[simp] theorem State.setNode_outBits (i : Nat) (n : Node) (h : i < 513) (s : State) :
    (State.setNode i n h s).outBits = s.outBits := rfl
@[simp] theorem State.setNode_outShut (i : Nat) (n : Node) (h : i < 513) (s : State) :
    (State.setNode i n h s).outShut = s.outShut := rfl
@[simp] theorem State.setNode_hostOps (i : Nat) (n : Node) (h : i < 513) (s : State) :
    (State.setNode i n h s).hostOps = s.hostOps := rfl
@[simp] theorem State.setNode_nextIn (i : Nat) (n : Node) (h : i < 513) (s : State) :
    (State.setNode i n h s).nextIn = s.nextIn := rfl
@[simp] theorem State.setNode_answers (i : Nat) (n : Node) (h : i < 513) (s : State) :
    (State.setNode i n h s).answers = s.answers := rfl
@[simp] theorem State.setNode_trace (i : Nat) (n : Node) (h : i < 513) (s : State) :
    (State.setNode i n h s).trace = s.trace := rfl
@[simp] theorem State.setNode_draws (i : Nat) (n : Node) (h : i < 513) (s : State) :
    (State.setNode i n h s).draws = s.draws := rfl
@[simp] theorem State.setNode_readData (i : Nat) (n : Node) (h : i < 513) (s : State) :
    (State.setNode i n h s).readData = s.readData := rfl

/-! ### `State.takeIndex` -/

@[simp] theorem State.takeIndex_mode (s : State) : (s.takeIndex).mode = s.mode := rfl
@[simp] theorem State.takeIndex_freqValid (s : State) : (s.takeIndex).freqValid = s.freqValid := rfl
@[simp] theorem State.takeIndex_treeValid (s : State) : (s.takeIndex).treeValid = s.treeValid := rfl
@[simp] theorem State.takeIndex_codeValid (s : State) : (s.takeIndex).codeValid = s.codeValid := rfl
@[simp] theorem State.takeIndex_outClosed (s : State) : (s.takeIndex).outClosed = s.outClosed := rfl
@[simp] theorem State.takeIndex_err (s : State) : (s.takeIndex).err = s.err := rfl
@[simp] theorem State.takeIndex_root (s : State) : (s.takeIndex).root = s.root := rfl
@[simp] theorem State.takeIndex_ncount (s : State) : (s.takeIndex).ncount = s.ncount + 1 := rfl
@[simp] theorem State.takeIndex_freq (s : State) : (s.takeIndex).freq = s.freq := rfl
@[simp] theorem State.takeIndex_node (s : State) : (s.takeIndex).node = s.node := rfl
@[simp] theorem State.takeIndex_code (s : State) : (s.takeIndex).code = s.code := rfl
@[simp] theorem State.takeIndex_inBits (s : State) : (s.takeIndex).inBits = s.inBits := rfl
@[simp] theorem State.takeIndex_inPos (s : State) : (s.takeIndex).inPos = s.inPos := rfl
@[simp] theorem State.takeIndex_outBits (s : State) : (s.takeIndex).outBits = s.outBits := rfl
@[simp] theorem State.takeIndex_outShut (s : State) : (s.takeIndex).outShut = s.outShut := rfl
@[simp] theorem State.takeIndex_hostOps (s : State) : (s.takeIndex).hostOps = s.hostOps := rfl
@[simp] theorem State.takeIndex_nextIn (s : State) : (s.takeIndex).nextIn = s.nextIn := rfl
@[simp] theorem State.takeIndex_answers (s : State) : (s.takeIndex).answers = s.answers := rfl
@[simp] theorem State.takeIndex_trace (s : State) : (s.takeIndex).trace = s.trace := rfl
@[simp] theorem State.takeIndex_draws (s : State) : (s.takeIndex).draws = s.draws := rfl
@[simp] theorem State.takeIndex_readData (s : State) : (s.takeIndex).readData = s.readData := rfl

/-! ### `State.setCode` -/

@[simp] theorem State.setCode_mode (k : Nat) (c : Code) (h : k < 257) (s : State) :
    (State.setCode k c h s).mode = s.mode := rfl
@[simp] theorem State.setCode_freqValid (k : Nat) (c : Code) (h : k < 257) (s : State) :
    (State.setCode k c h s).freqValid = s.freqValid := rfl
@[simp] theorem State.setCode_treeValid (k : Nat) (c : Code) (h : k < 257) (s : State) :
    (State.setCode k c h s).treeValid = s.treeValid := rfl
@[simp] theorem State.setCode_codeValid (k : Nat) (c : Code) (h : k < 257) (s : State) :
    (State.setCode k c h s).codeValid = s.codeValid := rfl
@[simp] theorem State.setCode_outClosed (k : Nat) (c : Code) (h : k < 257) (s : State) :
    (State.setCode k c h s).outClosed = s.outClosed := rfl
@[simp] theorem State.setCode_err (k : Nat) (c : Code) (h : k < 257) (s : State) :
    (State.setCode k c h s).err = s.err := rfl
@[simp] theorem State.setCode_root (k : Nat) (c : Code) (h : k < 257) (s : State) :
    (State.setCode k c h s).root = s.root := rfl
@[simp] theorem State.setCode_ncount (k : Nat) (c : Code) (h : k < 257) (s : State) :
    (State.setCode k c h s).ncount = s.ncount := rfl
@[simp] theorem State.setCode_freq (k : Nat) (c : Code) (h : k < 257) (s : State) :
    (State.setCode k c h s).freq = s.freq := rfl
@[simp] theorem State.setCode_node (k : Nat) (c : Code) (h : k < 257) (s : State) :
    (State.setCode k c h s).node = s.node := rfl
@[simp] theorem State.setCode_code (k : Nat) (c : Code) (h : k < 257) (s : State) :
    (State.setCode k c h s).code = s.code.set k c h := rfl
@[simp] theorem State.setCode_inBits (k : Nat) (c : Code) (h : k < 257) (s : State) :
    (State.setCode k c h s).inBits = s.inBits := rfl
@[simp] theorem State.setCode_inPos (k : Nat) (c : Code) (h : k < 257) (s : State) :
    (State.setCode k c h s).inPos = s.inPos := rfl
@[simp] theorem State.setCode_outBits (k : Nat) (c : Code) (h : k < 257) (s : State) :
    (State.setCode k c h s).outBits = s.outBits := rfl
@[simp] theorem State.setCode_outShut (k : Nat) (c : Code) (h : k < 257) (s : State) :
    (State.setCode k c h s).outShut = s.outShut := rfl
@[simp] theorem State.setCode_hostOps (k : Nat) (c : Code) (h : k < 257) (s : State) :
    (State.setCode k c h s).hostOps = s.hostOps := rfl
@[simp] theorem State.setCode_nextIn (k : Nat) (c : Code) (h : k < 257) (s : State) :
    (State.setCode k c h s).nextIn = s.nextIn := rfl
@[simp] theorem State.setCode_answers (k : Nat) (c : Code) (h : k < 257) (s : State) :
    (State.setCode k c h s).answers = s.answers := rfl
@[simp] theorem State.setCode_trace (k : Nat) (c : Code) (h : k < 257) (s : State) :
    (State.setCode k c h s).trace = s.trace := rfl
@[simp] theorem State.setCode_draws (k : Nat) (c : Code) (h : k < 257) (s : State) :
    (State.setCode k c h s).draws = s.draws := rfl
@[simp] theorem State.setCode_readData (k : Nat) (c : Code) (h : k < 257) (s : State) :
    (State.setCode k c h s).readData = s.readData := rfl

/-! ### `State.withMode` -/

@[simp] theorem State.withMode_mode (m : Mode) (s : State) : (State.withMode m s).mode = m := rfl
@[simp] theorem State.withMode_freqValid (m : Mode) (s : State) :
    (State.withMode m s).freqValid = s.freqValid := rfl
@[simp] theorem State.withMode_treeValid (m : Mode) (s : State) :
    (State.withMode m s).treeValid = s.treeValid := rfl
@[simp] theorem State.withMode_codeValid (m : Mode) (s : State) :
    (State.withMode m s).codeValid = s.codeValid := rfl
@[simp] theorem State.withMode_outClosed (m : Mode) (s : State) :
    (State.withMode m s).outClosed = s.outClosed := rfl
@[simp] theorem State.withMode_err (m : Mode) (s : State) : (State.withMode m s).err = s.err := rfl
@[simp] theorem State.withMode_root (m : Mode) (s : State) :
    (State.withMode m s).root = s.root := rfl
@[simp] theorem State.withMode_ncount (m : Mode) (s : State) :
    (State.withMode m s).ncount = s.ncount := rfl
@[simp] theorem State.withMode_freq (m : Mode) (s : State) :
    (State.withMode m s).freq = s.freq := rfl
@[simp] theorem State.withMode_node (m : Mode) (s : State) :
    (State.withMode m s).node = s.node := rfl
@[simp] theorem State.withMode_code (m : Mode) (s : State) :
    (State.withMode m s).code = s.code := rfl
@[simp] theorem State.withMode_inBits (m : Mode) (s : State) :
    (State.withMode m s).inBits = s.inBits := rfl
@[simp] theorem State.withMode_inPos (m : Mode) (s : State) :
    (State.withMode m s).inPos = s.inPos := rfl
@[simp] theorem State.withMode_outBits (m : Mode) (s : State) :
    (State.withMode m s).outBits = s.outBits := rfl
@[simp] theorem State.withMode_outShut (m : Mode) (s : State) :
    (State.withMode m s).outShut = s.outShut := rfl
@[simp] theorem State.withMode_hostOps (m : Mode) (s : State) :
    (State.withMode m s).hostOps = s.hostOps := rfl
@[simp] theorem State.withMode_nextIn (m : Mode) (s : State) :
    (State.withMode m s).nextIn = s.nextIn := rfl
@[simp] theorem State.withMode_answers (m : Mode) (s : State) :
    (State.withMode m s).answers = s.answers := rfl
@[simp] theorem State.withMode_trace (m : Mode) (s : State) :
    (State.withMode m s).trace = s.trace := rfl
@[simp] theorem State.withMode_draws (m : Mode) (s : State) :
    (State.withMode m s).draws = s.draws := rfl
@[simp] theorem State.withMode_readData (m : Mode) (s : State) :
    (State.withMode m s).readData = s.readData := rfl

/-! ### `State.noNodes` -/

@[simp] theorem State.noNodes_mode (s : State) : (s.noNodes).mode = s.mode := rfl
@[simp] theorem State.noNodes_freqValid (s : State) : (s.noNodes).freqValid = s.freqValid := rfl
@[simp] theorem State.noNodes_treeValid (s : State) : (s.noNodes).treeValid = s.treeValid := rfl
@[simp] theorem State.noNodes_codeValid (s : State) : (s.noNodes).codeValid = s.codeValid := rfl
@[simp] theorem State.noNodes_outClosed (s : State) : (s.noNodes).outClosed = s.outClosed := rfl
@[simp] theorem State.noNodes_err (s : State) : (s.noNodes).err = s.err := rfl
@[simp] theorem State.noNodes_root (s : State) : (s.noNodes).root = s.root := rfl
@[simp] theorem State.noNodes_ncount (s : State) : (s.noNodes).ncount = 0 := rfl
@[simp] theorem State.noNodes_freq (s : State) : (s.noNodes).freq = s.freq := rfl
@[simp] theorem State.noNodes_node (s : State) : (s.noNodes).node = s.node := rfl
@[simp] theorem State.noNodes_code (s : State) : (s.noNodes).code = s.code := rfl
@[simp] theorem State.noNodes_inBits (s : State) : (s.noNodes).inBits = s.inBits := rfl
@[simp] theorem State.noNodes_inPos (s : State) : (s.noNodes).inPos = s.inPos := rfl
@[simp] theorem State.noNodes_outBits (s : State) : (s.noNodes).outBits = s.outBits := rfl
@[simp] theorem State.noNodes_outShut (s : State) : (s.noNodes).outShut = s.outShut := rfl
@[simp] theorem State.noNodes_hostOps (s : State) : (s.noNodes).hostOps = s.hostOps := rfl
@[simp] theorem State.noNodes_nextIn (s : State) : (s.noNodes).nextIn = s.nextIn := rfl
@[simp] theorem State.noNodes_answers (s : State) : (s.noNodes).answers = s.answers := rfl
@[simp] theorem State.noNodes_trace (s : State) : (s.noNodes).trace = s.trace := rfl
@[simp] theorem State.noNodes_draws (s : State) : (s.noNodes).draws = s.draws := rfl
@[simp] theorem State.noNodes_readData (s : State) : (s.noNodes).readData = s.readData := rfl

/-! ### `State.emptyCode` -/

@[simp] theorem State.emptyCode_mode (s : State) : (s.emptyCode).mode = s.mode := rfl
@[simp] theorem State.emptyCode_freqValid (s : State) : (s.emptyCode).freqValid = s.freqValid := rfl
@[simp] theorem State.emptyCode_treeValid (s : State) : (s.emptyCode).treeValid = s.treeValid := rfl
@[simp] theorem State.emptyCode_codeValid (s : State) : (s.emptyCode).codeValid = s.codeValid := rfl
@[simp] theorem State.emptyCode_outClosed (s : State) : (s.emptyCode).outClosed = s.outClosed := rfl
@[simp] theorem State.emptyCode_err (s : State) : (s.emptyCode).err = s.err := rfl
@[simp] theorem State.emptyCode_root (s : State) : (s.emptyCode).root = s.root := rfl
@[simp] theorem State.emptyCode_ncount (s : State) : (s.emptyCode).ncount = s.ncount := rfl
@[simp] theorem State.emptyCode_freq (s : State) : (s.emptyCode).freq = s.freq := rfl
@[simp] theorem State.emptyCode_node (s : State) : (s.emptyCode).node = s.node := rfl
@[simp] theorem State.emptyCode_code (s : State) :
    (s.emptyCode).code = Vector.replicate 257 Code.none := rfl
@[simp] theorem State.emptyCode_inBits (s : State) : (s.emptyCode).inBits = s.inBits := rfl
@[simp] theorem State.emptyCode_inPos (s : State) : (s.emptyCode).inPos = s.inPos := rfl
@[simp] theorem State.emptyCode_outBits (s : State) : (s.emptyCode).outBits = s.outBits := rfl
@[simp] theorem State.emptyCode_outShut (s : State) : (s.emptyCode).outShut = s.outShut := rfl
@[simp] theorem State.emptyCode_hostOps (s : State) : (s.emptyCode).hostOps = s.hostOps := rfl
@[simp] theorem State.emptyCode_nextIn (s : State) : (s.emptyCode).nextIn = s.nextIn := rfl
@[simp] theorem State.emptyCode_answers (s : State) : (s.emptyCode).answers = s.answers := rfl
@[simp] theorem State.emptyCode_trace (s : State) : (s.emptyCode).trace = s.trace := rfl
@[simp] theorem State.emptyCode_draws (s : State) : (s.emptyCode).draws = s.draws := rfl
@[simp] theorem State.emptyCode_readData (s : State) : (s.emptyCode).readData = s.readData := rfl

end Sys2Proof.Machine
end

