-- ==== Sys2Proof/Laws/Ops.lean ====
section
/-! SUPPORT. What each shared operation can do, said once: the checked port calls, the register
files, the running of a list of primitives, the acceptance of a command. Later proofs cite these
instead of unfolding the operations. -/

namespace Sys2Proof.Machine

/-! ## Res -/

@[simp] theorem Res.bind_ok {α β : Type} (a : α) (s : State) (k : α → State → Res β) :
    (Res.ok a s).bind k = k a s := rfl

@[simp] theorem Res.bind_raise {α β : Type} (f : FaultCode) (s : State) (k : α → State → Res β) :
    (Res.raise f s).bind k = .raise f s := rfl

@[simp] theorem Res.bind_stop {α β : Type} (x : Fault) (k : α → State → Res β) :
    (Res.stop x).bind k = .stop x := rfl

theorem Res.bind_eq_ok {α β : Type} {r : Res α} {k : α → State → Res β} {b : β} {t : State}
    (h : r.bind k = .ok b t) : ∃ a u, r = .ok a u ∧ k a u = .ok b t := by
  cases r with
  | ok a u => exact ⟨a, u, rfl, h⟩
  | raise f u => simp at h
  | stop x => simp at h

theorem Res.bind_eq_raise {α β : Type} {r : Res α} {k : α → State → Res β} {f : FaultCode}
    {t : State} (h : r.bind k = .raise f t) :
    r = .raise f t ∨ ∃ a u, r = .ok a u ∧ k a u = .raise f t := by
  cases r with
  | ok a u => exact .inr ⟨a, u, rfl, h⟩
  | raise g u => exact .inl (by simpa using h)
  | stop x => simp at h

theorem Res.bind_eq_stop {α β : Type} {r : Res α} {k : α → State → Res β} {x : Fault}
    (h : r.bind k = .stop x) : r = .stop x ∨ ∃ a u, r = .ok a u ∧ k a u = .stop x := by
  cases r with
  | ok a u => exact .inr ⟨a, u, rfl, h⟩
  | raise g u => simp at h
  | stop y => exact .inl (by simpa using h)

/-- A property of the state a part of a command leaves, however it ends. -/
def Res.Leaves {α : Type} (P : State → Prop) : Res α → Prop
  | .ok _ s => P s
  | .raise _ s => P s
  | .stop _ => True

/-- Say a property once per part, and it holds of the whole. -/
theorem Res.Leaves.bind {α β : Type} {P Q : State → Prop} {r : Res α} {k : α → State → Res β}
    (hr : r.Leaves P) (hk : ∀ a u, P u → (k a u).Leaves Q) (hPQ : ∀ u, P u → Q u) :
    (r.bind k).Leaves Q := by
  cases r with
  | ok a u => exact hk a u hr
  | raise f u => exact hPQ u hr
  | stop x => trivial

theorem Res.Leaves.mono {α : Type} {P Q : State → Prop} {r : Res α} (h : r.Leaves P)
    (hPQ : ∀ u, P u → Q u) : r.Leaves Q := by
  cases r with
  | ok a u => exact hPQ u h
  | raise f u => exact hPQ u h
  | stop x => trivial

/-! ## Ports that do not fail -/

theorem State.Quiet.failsNext {s : State} (h : s.Quiet) : s.failsNext = false := by
  unfold State.failsNext
  cases ha : s.answers with
  | nil => rfl
  | cons a as => exact h a (by simp [ha])

theorem State.Quiet.of_drop {s t : State} {n : Nat} (h : s.Quiet)
    (ht : t.answers = s.answers.drop n) : t.Quiet := by
  intro a ha
  rw [ht] at ha
  exact h a (List.mem_of_mem_drop ha)

theorem State.Quiet.of_tail {s t : State} (h : s.Quiet) (ht : t.answers = s.answers.tail) :
    t.Quiet := by
  intro a ha
  rw [ht] at ha
  exact h a (List.mem_of_mem_tail ha)

theorem State.Quiet.of_eq {s t : State} (h : s.Quiet) (ht : t.answers = s.answers) : t.Quiet := by
  intro a ha
  rw [ht] at ha
  exact h a ha

@[simp] theorem drop_tail_answers (l : List Bool) (n : Nat) : l.tail.drop n = l.drop (n + 1) := by
  cases l <;> simp

theorem State.unread_length (s : State) : s.unread.length = s.inBits.length - s.inPos := by
  simp [State.unread]

/-! ## The checked port calls -/

/-- A read that finds its n bits (R52). -/
theorem rd_value {n : Nat} {s : State} (hq : s.failsNext = false) (hn : 0 < n)
    (h : n ≤ s.unread.length) :
    rd n s = .ok (some (fieldAt n s.unread 0))
      (s.takeBits n) := by
  have hle : s.inPos + n ≤ s.inBits.length := by rw [State.unread_length] at h; omega
  have hf : fieldAt n s.unread 0 = fieldAt n s.inBits s.inPos := by simp [fieldAt, State.unread]
  simp [rd, readBits, hq, hle, hf]

/-- A read that finds fewer than n bits is EOS and consumes them (R53). -/
theorem rd_eos {n : Nat} {s : State} (hq : s.failsNext = false) (h : s.unread.length < n) :
    rd n s = .ok none (s.takeRest n) := by
  have hle : ¬ s.inPos + n ≤ s.inBits.length := by rw [State.unread_length] at h; omega
  simp [rd, readBits, hq, hle]

/-- A read that the collaborator fails (R59, R68). -/
theorem rd_ioerr {n : Nat} {s : State} (hq : s.failsNext = true) :
    rd n s = .raise .io (s.logCall (.readBits n)).spoilIn := by
  simp [rd, readBits, hq]

/-- Everything a checked read can do. -/
theorem rd_cases (n : Nat) (s : State) :
    rd n s = .raise .io (s.logCall (.readBits n)).spoilIn ∨
    rd n s = .ok none (s.takeRest n) ∨
    (s.inPos + n ≤ s.inBits.length ∧
      rd n s = .ok (some (fieldAt n s.inBits s.inPos))
        (s.takeBits n)) := by
  by_cases hq : s.failsNext = true
  · exact .inl (rd_ioerr hq)
  · have hq' : s.failsNext = false := by simpa using hq
    by_cases hle : s.inPos + n ≤ s.inBits.length
    · exact .inr (.inr ⟨hle, by simp [rd, readBits, hq', hle]⟩)
    · exact .inr (.inl (by simp [rd, readBits, hq', hle]))

/-- A write within R56's widths, with a port that does not fail. -/
theorem wr_ok {n v : Nat} {s : State} (hq : s.failsNext = false) (h0 : 1 ≤ n) (h1 : n ≤ 256) :
    wr n v s = .ok () (s.putBits n v) := by
  have hw : ¬ (n = 0 ∨ Config.maxLen < n) := by simp [Config.maxLen]; omega
  simp [wr, hw, hq]

/-- Everything a checked write can do. -/
theorem wr_cases (n v : Nat) (s : State) :
    (wr n v s = .stop .writeWidth ∧ (n = 0 ∨ 256 < n)) ∨
    wr n v s = .raise .io (s.logCall (.writeBits n v)).spoilOut ∨
    wr n v s =
      .ok () (s.putBits n v) := by
  by_cases hw : n = 0 ∨ Config.maxLen < n
  · exact .inl ⟨by simp only [wr, hw, if_true], hw⟩
  · by_cases hq : s.failsNext = true
    · exact .inr (.inl (by simp only [wr, hw, hq, if_true, if_false]))
    · exact .inr (.inr (by simp [wr, hw, hq]))

theorem wr_ioerr {n v : Nat} {s : State} (hq : s.failsNext = true) (h0 : 1 ≤ n) (h1 : n ≤ 256) :
    wr n v s = .raise .io (s.logCall (.writeBits n v)).spoilOut := by
  have hw : ¬ (n = 0 ∨ Config.maxLen < n) := by simp [Config.maxLen]; omega
  simp only [wr, hw, hq, if_true, if_false]

theorem rewindIn_ok {s : State} (hq : s.failsNext = false) :
    rewindIn s = .ok () s.rewound := by
  simp [rewindIn, hq]

/-- Everything a checked rewind can do. -/
theorem rewindIn_cases (s : State) :
    rewindIn s = .raise .io (s.logCall .rewind).spoilIn ∨
    rewindIn s = .ok () s.rewound := by
  by_cases hq : s.failsNext = true
  · exact .inl (by simp [rewindIn, hq])
  · exact .inr (by simp [rewindIn, hq])

theorem closeOut_ok {s : State} (hq : s.failsNext = false) :
    closeOut s = .ok () s.closeUp := by
  simp [closeOut, hq]

/-- Everything a checked close can do. -/
theorem closeOut_cases (s : State) :
    closeOut s = .raise .io (s.logCall .close).spoilOut ∨
    closeOut s = .ok () s.closeUp := by
  by_cases hq : s.failsNext = true
  · exact .inl (by simp [closeOut, hq])
  · exact .inr (by simp [closeOut, hq])

theorem padded_length_mod (q : Bits) : (padded q).length % 8 = 0 := by
  simp [padded, padLen]
  omega

/-! ## The register files -/

theorem readNode_some {i : Nat} {s : State} {n : Node} (h : s.node[i]? = some n) :
    readNode i s = .ok n s := by
  simp [readNode, h]

theorem readNode_cases (i : Nat) (s : State) :
    readNode i s = .stop .noSuchNode ∨ ∃ n, s.node[i]? = some n ∧ readNode i s = .ok n s := by
  cases h : s.node[i]? with
  | none => exact .inl (by simp [readNode, h])
  | some n => exact .inr ⟨n, rfl, readNode_some h⟩

theorem writeNode_lt {i : Nat} {s : State} (n : Node) (h : i < 513) :
    writeNode i n s = .ok () (s.setNode i n h) := by
  simp [writeNode, h]

theorem writeNode_cases (i : Nat) (n : Node) (s : State) :
    writeNode i n s = .stop .noSuchNode ∨
    ∃ h : i < 513, writeNode i n s = .ok () (s.setNode i n h) := by
  by_cases h : i < 513
  · exact .inr ⟨h, writeNode_lt n h⟩
  · exact .inl (by simp [writeNode, h])

theorem pushNode_lt {s : State} (n : Node) (h : s.ncount.toNat < 513) :
    pushNode n s = .ok s.ncount.toNat
      (s.takeIndex.setNode s.ncount.toNat n h) := by
  simp [pushNode, allocIndex, writeNode, h]

theorem writeCode_lt {k : Nat} {s : State} (c : Code) (h : k < 257) :
    writeCode k c s = .ok () (s.setCode k c h) := by
  simp [writeCode, h]

theorem writeCode_cases (k : Nat) (c : Code) (s : State) :
    writeCode k c s = .stop .noSuchSymbol ∨
    ∃ h : k < 257, writeCode k c s = .ok () (s.setCode k c h) := by
  by_cases h : k < 257
  · exact .inr ⟨h, writeCode_lt c h⟩
  · exact .inl (by simp [writeCode, h])

theorem readCode_valid {k : Nat} {s : State} {c : Code} (h : s.code[k]? = some c)
    (hv : c.valid = true) : readCode k s = .ok (some c) s := by
  simp [readCode, h, hv]

theorem readCode_miss {k : Nat} {s : State} {c : Code} (h : s.code[k]? = some c)
    (hv : c.valid = false) : readCode k s = .ok none s := by
  simp [readCode, h, hv]

/-- Everything a lookup can do. -/
theorem readCode_cases (k : Nat) (s : State) :
    readCode k s = .stop .noSuchSymbol ∨ readCode k s = .ok none s ∨
    ∃ c, s.code[k]? = some c ∧ c.valid = true ∧ readCode k s = .ok (some c) s := by
  cases h : s.code[k]? with
  | none => exact .inl (by simp [readCode, h])
  | some c =>
    cases hv : c.valid with
    | true => exact .inr (.inr ⟨c, rfl, hv, readCode_valid h hv⟩)
    | false => exact .inr (.inl (readCode_miss h hv))

/-! ## Running a command -/

theorem require_true {b : Bool} {s : State} (h : b = true) : require b s = .ok () s := by
  simp [require, h]

theorem require_false {b : Bool} {s : State} (h : b = false) : require b s = .raise .seq s := by
  simp [require, h]

@[simp] theorem runPrimitives_nil (c : OpCode) (s : State) :
    runPrimitives c [] s = .next (s.withMode .idle) := rfl

theorem runPrimitives_ok {c : OpCode} {p : Primitive} {ps : List Primitive} {s t : State}
    (h : p.body s = .ok () t) : runPrimitives c (p :: ps) s = runPrimitives c ps t := by
  simp [runPrimitives, h]

theorem runPrimitives_raise {c : OpCode} {p : Primitive} {ps : List Primitive} {s t : State}
    {f : FaultCode} (h : p.body s = .raise f t) :
    runPrimitives c (p :: ps) s = .next (t.raise f p.op c) := by
  simp [runPrimitives, h]

theorem runPrimitives_stop {c : OpCode} {p : Primitive} {ps : List Primitive} {s : State}
    {x : Fault} (h : p.body s = .stop x) : runPrimitives c (p :: ps) s = .fault x := by
  simp [runPrimitives, h]

/-- A property that every primitive of a list keeps, and that neither the fault entry nor the return
to IDLE breaks, holds after the command. -/
theorem runPrimitives_leaves {P Q : State → Prop} {c : OpCode} {ps : List Primitive} {s t : State}
    (hs : P s) (hp : ∀ p ∈ ps, ∀ u, P u → (p.body u).Leaves P)
    (hr : ∀ u f op, P u → Q (u.raise f op c)) (hi : ∀ u, P u → Q (u.withMode .idle))
    (h : runPrimitives c ps s = .next t) : Q t := by
  induction ps generalizing s with
  | nil => simp at h; exact h ▸ hi s hs
  | cons p ps ih =>
    have hb := hp p (by simp) s hs
    cases hres : p.body s with
    | ok a u =>
      rw [runPrimitives_ok hres] at h
      rw [hres] at hb
      exact ih hb (fun q hq => hp q (by simp [hq])) h
    | raise f u =>
      rw [runPrimitives_raise hres] at h
      rw [hres] at hb
      simp at h
      exact h ▸ hr u f p.op hb
    | stop x => rw [runPrimitives_stop hres] at h; simp at h

theorem acceptIdle_idle {run : State → Host.Outcome State Fault Refusal} {s : State}
    (h : s.mode = .idle) : acceptIdle run s = run (s.withMode .busy) := by
  simp [acceptIdle, h]

theorem acceptIdle_other {run : State → Host.Outcome State Fault Refusal} {s : State}
    (h : s.mode ≠ .idle) : acceptIdle run s = .next s := by
  cases hm : s.mode with
  | idle => exact absurd hm h
  | busy => simp [acceptIdle, hm]
  | fault => simp [acceptIdle, hm]

/-- A one-primitive command that runs to its end. -/
theorem runCommand_ok {op : OpCode} {body : State → Res Unit} {s t : State} (hm : s.mode = .idle)
    (h : body (s.withMode .busy) = .ok () t) :
    runCommand op body s = .next (t.withMode .idle) := by
  rw [runCommand, acceptIdle_idle hm, runPrimitives_ok h, runPrimitives_nil]

/-- A one-primitive command that raises. -/
theorem runCommand_raise {op : OpCode} {body : State → Res Unit} {s t : State} {f : FaultCode}
    (hm : s.mode = .idle) (h : body (s.withMode .busy) = .raise f t) :
    runCommand op body s = .next (t.raise f op op) := by
  rw [runCommand, acceptIdle_idle hm, runPrimitives_raise h]

/-- Everything a one-primitive command can leave. -/
theorem runCommand_leaves {P : State → Prop} {op : OpCode} {body : State → Res Unit} {s t : State}
    (h : runCommand op body s = .next t) (hs : P s)
    (hb : (body (s.withMode .busy)).Leaves fun u =>
      P (u.withMode .idle) ∧ ∀ f, P (u.raise f op op)) : P t := by
  by_cases hm : s.mode = .idle
  · cases hres : body (s.withMode .busy) with
    | ok a u =>
      rw [runCommand_ok hm hres] at h
      rw [hres] at hb
      simp at h
      exact h ▸ hb.1
    | raise f u =>
      rw [runCommand_raise hm hres] at h
      rw [hres] at hb
      simp at h
      exact h ▸ hb.2 f
    | stop x =>
      rw [runCommand, acceptIdle_idle hm, runPrimitives_stop hres] at h
      simp at h
  · rw [runCommand, acceptIdle_other hm] at h
    simp at h
    exact h ▸ hs

end Sys2Proof.Machine
end

