-- ==== Sys2Proof/Laws/Loops.lean ====
section
/-! SUPPORT. The loops of COUNT (spec/40_frequency.md R110, R112) and ENCODE
(spec/44_stream_encoder.md R170, R171): what each leaves, over a port that does not fail. -/

namespace Sys2Proof.Machine

/-! ## Named updates -/

@[simp] theorem State.unread_takeBits (s : State) (n : Nat) :
    (s.takeBits n).unread = s.unread.drop n := by
  simp [State.unread]

@[simp] theorem State.unread_takeRest (s : State) (n : Nat) : (s.takeRest n).unread = [] := by
  simp [State.unread]

@[simp] theorem State.unread_putBits (s : State) (n v : Nat) :
    (s.putBits n v).unread = s.unread := rfl

@[simp] theorem State.unread_countByte (s : State) (b : Byte) :
    (s.countByte b).unread = s.unread := rfl

@[simp] theorem tail_tail (l : List Bool) : l.tail.tail = l.drop 2 := by
  simp [← List.drop_one]

theorem State.Quiet.takeBits {s : State} (h : s.Quiet) (n : Nat) : (s.takeBits n).Quiet :=
  h.of_tail rfl

theorem State.Quiet.takeRest {s : State} (h : s.Quiet) (n : Nat) : (s.takeRest n).Quiet :=
  h.of_tail rfl

theorem State.Quiet.putBits {s : State} (h : s.Quiet) (n v : Nat) : (s.putBits n v).Quiet :=
  h.of_tail rfl

/-! ## COUNT -/

/-- The Frequency Table after counting some bytes (R110). -/
def countBytes (f : Vector Count 257) (bs : List Byte) : Vector Count 257 :=
  bs.foldl (fun f v => f.set v.toNat (f[v.toNat]'(by have := v.isLt; omega) + 1)
    (by have := v.isLt; omega)) f

@[simp] theorem countBytes_nil (f : Vector Count 257) : countBytes f [] = f := rfl

theorem countBytes_cons (s : State) (b : Byte) (bs : List Byte) :
    countBytes (s.countByte b).freq bs = countBytes s.freq (b :: bs) := rfl

/-- A counter grows by the number of times its value was counted. -/
theorem countBytes_get (f : Vector Count 257) (bs : List Byte) (k : Nat) (h : k < 257) :
    (countBytes f bs)[k] = f[k] + BitVec.ofNat 32 (bs.countP fun b => b.toNat == k) := by
  induction bs generalizing f with
  | nil => simp
  | cons b bs ih =>
    rw [countBytes, List.foldl_cons, ← countBytes, ih, List.countP_cons, Vector.getElem_set]
    by_cases hb : b.toNat = k
    · subst hb
      simp only [if_true, beq_self_eq_true]
      rw [BitVec.add_assoc, show (1 : BitVec 32) = BitVec.ofNat 32 1 from rfl, ← BitVec.ofNat_add,
        Nat.add_comm]
    · simp [hb]

/-- COUNT's loop over a port that does not fail, within the limit of R112. -/
theorem countLoop_ok {fuel n : Nat} {s : State} (hq : s.Quiet) (hf : s.unread.length < 8 * fuel)
    (hn : n + (bytesOfBits s.unread).length ≤ maxBytes) :
    countLoop fuel n s = .ok ()
      { s with
        freq := countBytes s.freq (bytesOfBits s.unread), inPos := s.inBits.length,
        answers := s.answers.drop ((bytesOfBits s.unread).length + 1),
        trace := s.trace ++ List.replicate ((bytesOfBits s.unread).length + 1) (.readBits 8) } := by
  induction fuel generalizing n s with
  | zero => omega
  | succ fuel ih =>
    rw [countLoop]
    by_cases h : 8 ≤ s.unread.length
    · have hb := bytesOfBits_cons h
      rw [hb, List.length_cons] at hn
      rw [rd_value hq.failsNext (by omega) h, Res.bind_ok]
      simp only []
      rw [if_neg (by omega), ih (hq.of_tail rfl) (by simp; omega) (by simp; omega)]
      simp only [State.unread_countByte, State.unread_takeBits]
      rw [hb, countBytes_cons]
      simp [State.countByte, State.takeBits, State.logCall, List.replicate_succ]
    · rw [rd_eos hq.failsNext (by omega), Res.bind_ok, bytesOfBits_short (by omega)]
      simp [State.takeRest, State.logCall]

/-- COUNT's loop meets one byte too many (R112). -/
theorem countLoop_overflow {fuel n : Nat} {s : State} (hq : s.Quiet) (hm : n ≤ maxBytes)
    (hf : maxBytes - n < fuel) (hn : 8 * (maxBytes - n + 1) ≤ s.unread.length) :
    ∃ t, countLoop fuel n s = .raise .overflow t ∧
      t = { s with freq := t.freq, inPos := s.inPos + 8 * (maxBytes - n + 1), answers := t.answers,
                   trace := t.trace } := by
  induction fuel generalizing n s with
  | zero => omega
  | succ fuel ih =>
    rw [countLoop, rd_value hq.failsNext (by omega) (by omega), Res.bind_ok]
    simp only []
    by_cases h : n = maxBytes
    · rw [if_pos h]
      exact ⟨_, rfl, by simp [State.takeBits, State.logCall, h]⟩
    · rw [if_neg h]
      obtain ⟨t, ht, he⟩ := ih (n := n + 1)
        (s := (s.takeBits 8).countByte (fieldAt 8 s.unread 0)) (hq.of_tail rfl) (by omega)
        (by omega) (by simp; omega)
      refine ⟨t, ht, ?_⟩
      rw [he]
      simp [State.countByte, State.takeBits, State.logCall]
      omega

/-! ## ENCODE -/

/-- Writing one valid code (R170). -/
theorem emitSymbol_ok {k : Nat} {s : State} {c : Code} (hq : s.failsNext = false)
    (hc : s.code[k]? = some c) (hv : c.valid = true) (h1 : 1 ≤ c.len.toNat)
    (h2 : c.len.toNat ≤ 256) :
    emitSymbol k s = .ok () (s.putBits c.len.toNat c.bits.toNat) := by
  rw [emitSymbol, readCode_valid hc hv, Res.bind_ok]
  exact wr_ok hq h1 h2

/-- A miss raises E_INT_LOOKUP and touches nothing (R171). -/
theorem emitSymbol_miss {k : Nat} {s : State} {c : Code} (hc : s.code[k]? = some c)
    (hv : c.valid = false) : emitSymbol k s = .raise .intLookup s := by
  rw [emitSymbol, readCode_miss hc hv, Res.bind_ok]

theorem CodesFit.of_get {s : State} (h : CodesFit s) {k : Nat} {c : Code}
    (hc : s.code[k]? = some c) (hv : c.valid = true) : 1 ≤ c.len.toNat ∧ c.len.toNat ≤ 256 := by
  obtain ⟨hk, rfl⟩ := Vector.getElem?_eq_some_iff.mp hc
  exact h k hk hv

theorem codeBits_cons {code : Vector Code 257} {b : Byte} {c : Code} (bs : List Byte)
    (h : code[b.toNat]? = some c) : codeBits code (b :: bs) = c.seq ++ codeBits code bs := by
  simp [codeBits, (Vector.getElem?_eq_some_iff.mp h).2]

/-- ENCODE's loop where every byte has a code. -/
theorem encodeLoop_ok {fuel : Nat} {s : State} (hq : s.Quiet) (hf : s.unread.length < 8 * fuel)
    (hc : CodesFit s)
    (hv : ∀ b ∈ bytesOfBits s.unread, ∃ c, s.code[b.toNat]? = some c ∧ c.valid = true) :
    ∃ tr, encodeLoop fuel s = .ok ()
      { s with
        inPos := s.inBits.length, outBits := s.outBits ++ codeBits s.code (bytesOfBits s.unread),
        answers := s.answers.drop (2 * (bytesOfBits s.unread).length + 1), trace := tr } := by
  induction fuel generalizing s with
  | zero => omega
  | succ fuel ih =>
    rw [encodeLoop]
    by_cases h : 8 ≤ s.unread.length
    · have hb := bytesOfBits_cons h
      rw [hb] at hv
      obtain ⟨c, hget, hval⟩ := hv (fieldAt 8 s.unread 0) (by simp)
      have hfit := hc.of_get hget hval
      rw [rd_value hq.failsNext (by omega) h, Res.bind_ok]
      simp only []
      rw [emitSymbol_ok (hq.takeBits 8).failsNext hget hval hfit.1 hfit.2, Res.bind_ok]
      obtain ⟨tr, htr⟩ := ih (s := (s.takeBits 8).putBits c.len.toNat c.bits.toNat)
        ((hq.takeBits 8).putBits _ _) (by simp; omega) hc
        (by simpa using fun b hb => hv b (List.mem_cons_of_mem _ hb))
      refine ⟨tr, ?_⟩
      simp only [State.unread_putBits, State.unread_takeBits] at htr
      rw [htr, hb, codeBits_cons _ hget]
      simp [State.takeBits, State.putBits, State.logCall, Code.seq, Nat.mul_add]
      omega
    · rw [rd_eos hq.failsNext (by omega), Res.bind_ok, bytesOfBits_short (by omega)]
      exact ⟨_, by simp [State.takeRest, State.logCall, codeBits]; rfl⟩

/-- ENCODE's loop up to the first byte without a code (R171). -/
theorem encodeLoop_miss {fuel : Nat} {s : State} {good more : List Byte} {b : Byte} {c : Code}
    (hq : s.Quiet) (hf : s.unread.length < 8 * fuel) (hc : CodesFit s)
    (hsplit : bytesOfBits s.unread = good ++ b :: more)
    (hv : ∀ g ∈ good, ∃ c, s.code[g.toNat]? = some c ∧ c.valid = true)
    (hget : s.code[b.toNat]? = some c) (hmiss : c.valid = false) :
    ∃ t, encodeLoop fuel s = .raise .intLookup t ∧
      t = { s with
        inPos := s.inPos + 8 * (good.length + 1), outBits := s.outBits ++ codeBits s.code good,
        answers := t.answers, trace := t.trace } := by
  induction fuel generalizing s good with
  | zero => omega
  | succ fuel ih =>
    have h : 8 ≤ s.unread.length := by
      by_contra hlt
      rw [bytesOfBits_short (by omega)] at hsplit
      simp at hsplit
    rw [bytesOfBits_cons h] at hsplit
    rw [encodeLoop, rd_value hq.failsNext (by omega) h, Res.bind_ok]
    simp only []
    cases good with
    | nil =>
      simp only [List.nil_append, List.cons.injEq] at hsplit
      rw [hsplit.1, emitSymbol_miss (s := s.takeBits 8) hget hmiss, Res.bind_raise]
      exact ⟨_, rfl, by simp [State.takeBits, State.logCall, codeBits]⟩
    | cons g good =>
      simp only [List.cons_append, List.cons.injEq] at hsplit
      obtain ⟨d, hd, hval⟩ := hv g (by simp)
      have hfit := hc.of_get hd hval
      rw [hsplit.1, emitSymbol_ok (hq.takeBits 8).failsNext hd hval hfit.1 hfit.2, Res.bind_ok]
      obtain ⟨t, ht, he⟩ := ih (s := (s.takeBits 8).putBits d.len.toNat d.bits.toNat)
        (good := good) ((hq.takeBits 8).putBits _ _) (by simp; omega) hc (by simpa using hsplit.2)
        (fun x hx => hv x (List.mem_cons_of_mem _ hx)) hget
      refine ⟨t, ht, ?_⟩
      rw [he, codeBits_cons _ hd]
      simp [State.takeBits, State.putBits, State.logCall, Code.seq, Nat.mul_add]
      omega

end Sys2Proof.Machine
end

