-- ==== Sys2Proof/Laws/Trees.lean ====
section
/-! SUPPORT. Trees in the node store (spec/00_scope.md R11): the walks of WRTREE, DERIVE, RDTREE and
DECODE over them (spec/42 R140, 43 R152, R160, 45 R180), and the trees R262 describes. -/

namespace Sys2Proof.Machine

/-! ## The walk over a stored tree -/

theorem leafCount_pos (t : Tree) : 1 ≤ leafCount t := by
  induction t with
  | leaf v => exact Nat.le_refl 1
  | node l r ihl ihr => simp [leafCount]; omega

/-- What `treeAt` says of a node: a leaf, or an internal node with the trees of its children. -/
theorem treeAt_cases {node : Vector Node 513} {fuel i : Nat} {t : Tree}
    (h : treeAt node (fuel + 1) i = some t) :
    ∃ n, node[i]? = some n ∧
      ((n.leaf = true ∧ t = .leaf n.value) ∨
        (n.leaf = false ∧ ∃ l r, treeAt node fuel n.left.toNat = some l ∧
          treeAt node fuel n.right.toNat = some r ∧ t = .node l r)) := by
  rw [treeAt] at h
  cases hn : node[i]? with
  | none => simp [hn] at h
  | some n =>
    refine ⟨n, rfl, ?_⟩
    simp only [hn] at h
    cases hl : n.leaf with
    | true => simp [hl] at h; exact .inl ⟨rfl, h.symm⟩
    | false =>
      simp only [hl] at h
      cases h1 : treeAt node fuel n.left.toNat with
      | none => simp [h1] at h
      | some l =>
        cases h2 : treeAt node fuel n.right.toNat with
        | none => simp [h1, h2] at h
        | some r =>
          simp [h1, h2] at h
          exact .inr ⟨rfl, l, r, rfl, rfl, h.symm⟩

theorem treeAt_leaf {node : Vector Node 513} {fuel i : Nat} {n : Node} (hn : node[i]? = some n)
    (hl : n.leaf = true) : treeAt node (fuel + 1) i = some (.leaf n.value) := by
  simp [treeAt, hn, hl]

theorem treeAt_node {node : Vector Node 513} {fuel i : Nat} {n : Node} {l r : Tree}
    (hn : node[i]? = some n) (hl : n.leaf = false) (h1 : treeAt node fuel n.left.toNat = some l)
    (h2 : treeAt node fuel n.right.toNat = some r) :
    treeAt node (fuel + 1) i = some (.node l r) := by
  simp [treeAt, hn, hl, h1, h2]

/-- More fuel finds the same tree. -/
theorem treeAt_mono {node : Vector Node 513} {f g i : Nat} {t : Tree} (h : treeAt node f i = some t)
    (hfg : f ≤ g) : treeAt node g i = some t := by
  induction f generalizing g i t with
  | zero => simp [treeAt] at h
  | succ f ih =>
    obtain ⟨g, rfl⟩ : ∃ k, g = k + 1 := ⟨g - 1, by omega⟩
    obtain ⟨n, hn, ⟨hl, rfl⟩ | ⟨hl, l, r, h1, h2, rfl⟩⟩ := treeAt_cases h
    · exact treeAt_leaf hn hl
    · exact treeAt_node hn hl (ih h1 (by omega)) (ih h2 (by omega))

/-- `Tw(i)` without its weights is `T(i)` (R11). -/
theorem weightedTreeAt_shape (node : Vector Node 513) (f i : Nat) :
    (weightedTreeAt node f i).map shapeOf = treeAt node f i := by
  induction f generalizing i with
  | zero => rfl
  | succ f ih =>
    rw [weightedTreeAt, treeAt]
    cases node[i]? with
    | none => rfl
    | some n =>
      simp only []
      split
      · rfl
      · rw [← ih n.left.toNat, ← ih n.right.toNat]
        cases weightedTreeAt node f n.left.toNat with
        | none => rfl
        | some l => cases weightedTreeAt node f n.right.toNat <;> rfl

/-- What `Tw(i)` is made of. -/
theorem weightedTreeAt_cases {node : Vector Node 513} {f i : Nat} {W : WTree}
    (h : weightedTreeAt node (f + 1) i = some W) :
    ∃ n, node[i]? = some n ∧ ((n.leaf = true ∧ W = .leaf n.value n.weight) ∨
      (n.leaf = false ∧ ∃ l r, weightedTreeAt node f n.left.toNat = some l ∧
        weightedTreeAt node f n.right.toNat = some r ∧ W = .node n.weight l r)) := by
  rw [weightedTreeAt] at h
  split at h
  · cases h
  · rename_i n hn
    refine ⟨n, hn, ?_⟩
    split at h
    · exact .inl ⟨‹_›, by simpa using h.symm⟩
    · rename_i hl
      split at h
      · cases h
      · split at h
        · cases h
        · exact .inr ⟨by simpa using hl, _, _, ‹_›, ‹_›, by simpa using h.symm⟩

/-- The root of `Tw(i)` weighs what node `i` weighs. -/
theorem rootWeight_eq {node : Vector Node 513} {f i : Nat} {W : WTree} {n : Node}
    (h : weightedTreeAt node f i = some W) (hn : node[i]? = some n) : rootWeight W = n.weight := by
  cases f with
  | zero => cases h
  | succ f =>
    obtain ⟨m, hm, ⟨-, rfl⟩ | ⟨-, l, r, -, -, rfl⟩⟩ := weightedTreeAt_cases h <;>
      cases hn.symm.trans hm <;> rfl

/-- Exact sums at every stored node below `nc` are exact sums in the tree (R129 (a)). -/
theorem weightsAdd_of {node : Vector Node 513} {nc f i : Nat} {W : WTree}
    (h : weightedTreeAt node f i = some W) (hi : i < nc)
    (hs : ∀ (k : Nat) (n : Node), k < nc → node[k]? = some n → n.leaf = false →
      ∃ l r, node[n.left.toNat]? = some l ∧ node[n.right.toNat]? = some r ∧
        n.weight.toNat = l.weight.toNat + r.weight.toNat ∧ n.left.toNat < nc ∧
        n.right.toNat < nc) : weightsAdd W = true := by
  induction f generalizing i W with
  | zero => cases h
  | succ f ih =>
    obtain ⟨n, hn, ⟨-, rfl⟩ | ⟨hl, l, r, h1, h2, rfl⟩⟩ := weightedTreeAt_cases h
    · rfl
    · obtain ⟨a, b, ha, hb, hw, c1, c2⟩ := hs i n hi hn hl
      simp [weightsAdd, ih h1 c1, ih h2 c2, rootWeight_eq h1 ha, rootWeight_eq h2 hb, hw]

/-- Weight 0 at every stored node below `nc` is weight 0 in the tree (R160). -/
theorem weightsZero_of {node : Vector Node 513} {nc f i : Nat} {W : WTree}
    (h : weightedTreeAt node f i = some W) (hi : i < nc)
    (hz : ∀ (k : Nat) (n : Node), k < nc → node[k]? = some n → n.weight = 0)
    (hc : ∀ (k : Nat) (n : Node), k < nc → node[k]? = some n → n.leaf = false →
      n.left.toNat < nc ∧ n.right.toNat < nc) : weightsZero W = true := by
  induction f generalizing i W with
  | zero => cases h
  | succ f ih =>
    obtain ⟨n, hn, ⟨-, rfl⟩ | ⟨hl, l, r, h1, h2, rfl⟩⟩ := weightedTreeAt_cases h
    · simp [weightsZero, hz i n hi hn]
    · obtain ⟨c1, c2⟩ := hc i n hi hn hl
      simp [weightsZero, hz i n hi hn, ih h1 c1, ih h2 c2]

/-- Where the node store holds `T(i)` it holds `Tw(i)` (R11). -/
theorem weightedTreeAt_of_tree {node : Vector Node 513} {f i : Nat} {t : Tree}
    (h : treeAt node f i = some t) : ∃ W, weightedTreeAt node f i = some W ∧ shapeOf W = t := by
  rw [← weightedTreeAt_shape] at h
  exact Option.map_eq_some_iff.mp h

theorem putLeafToken_ok {v : Sym} {s : State} (hq : s.Quiet) :
    putLeafToken v s = .ok () ((s.putBits 1 1).putBits 9 v.toNat) := by
  rw [putLeafToken, wr_ok hq.failsNext (by omega) (by omega), Res.bind_ok,
    wr_ok (hq.putBits 1 1).failsNext (by omega) (by omega)]

/-- WRTREE's walk writes the header of the tree (R87, R152). -/
theorem putTree_ok {fuel i : Nat} {s : State} {t : Tree} (hq : s.Quiet)
    (h : treeAt s.node fuel i = some t) :
    ∃ tr, tr.length = s.trace.length + (3 * leafCount t - 1) ∧ putTree fuel i s = .ok ()
      { s with outBits := s.outBits ++ headerBits t,
               answers := s.answers.drop (3 * leafCount t - 1), trace := tr } := by
  induction fuel generalizing i s t with
  | zero => simp [treeAt] at h
  | succ fuel ih =>
    obtain ⟨n, hn, ⟨hl, rfl⟩ | ⟨hl, l, r, h1, h2, rfl⟩⟩ := treeAt_cases h
    · rw [putTree, readNode_some hn, Res.bind_ok, if_pos hl, putLeafToken_ok hq]
      refine ⟨s.trace ++ [.writeBits 1 1, .writeBits 9 n.value.toNat], by simp [leafCount], ?_⟩
      simp [State.putBits, State.logCall, headerBits, bitsOf, leafCount]
    · have hl1 := leafCount_pos l
      have hr1 := leafCount_pos r
      rw [putTree, readNode_some hn, Res.bind_ok, if_neg (by simp [hl]), putInternalToken,
        wr_ok hq.failsNext (by omega) (by omega), Res.bind_ok]
      obtain ⟨tr1, hlen1, he1⟩ := ih (s := s.putBits 1 0) (hq.putBits 1 0) h1
      rw [he1, Res.bind_ok]
      simp at hlen1
      have hq2 := ((hq.putBits 1 0).of_drop (t := { s.putBits 1 0 with
        outBits := (s.putBits 1 0).outBits ++ headerBits l,
        answers := (s.putBits 1 0).answers.drop (3 * leafCount l - 1), trace := tr1 }) rfl)
      obtain ⟨tr2, hlen2, he2⟩ := ih hq2 h2
      refine ⟨tr2, ?_, ?_⟩
      · simp at hlen2
        simp [leafCount]
        omega
      · rw [he2]
        have : 3 * leafCount l - 1 + 1 + (3 * leafCount r - 1) =
          3 * (leafCount l + leafCount r) - 1 := by omega
        simp [State.putBits, State.logCall, headerBits, bitsOf, leafCount, ← this]

/-! ## DERIVE -/

/-- The Code Table after binding some paths in order (R140): the last write wins. -/
def bindPaths (code : Vector Code 257) (ws : List (Sym × Bits)) : Vector Code 257 :=
  ws.foldl
    (fun c w => if h : w.1.toNat < 257 then c.set w.1.toNat (codeOfPath w.2) h else c) code

theorem bindPaths_append (code : Vector Code 257) (a b : List (Sym × Bits)) :
    bindPaths code (a ++ b) = bindPaths (bindPaths code a) b := by
  simp [bindPaths]

/-- An entry after binding: the last path bound to it, or what it was. -/
theorem bindPaths_get (code : Vector Code 257) (ws : List (Sym × Bits)) (k : Nat) (h : k < 257) :
    (bindPaths code ws)[k] =
      match ((ws.filter fun p => p.1.toNat == k).getLast?).map (·.2) with
      | some q => codeOfPath q
      | none => code[k] := by
  induction ws using List.reverseRecOn with
  | nil => simp [bindPaths]
  | append_singleton ws w ih =>
    rw [bindPaths_append]
    by_cases hw : w.1.toNat = k
    · subst hw
      simp [bindPaths, h]
    · simp only [List.filter_append, List.filter_cons, List.filter_nil, beq_iff_eq, hw, if_false,
        List.append_nil, ← ih]
      rw [bindPaths]
      simp only [List.foldl_cons, List.foldl_nil]
      split
      · rw [Vector.getElem_set_ne _ _ hw]
      · rfl

/-- DERIVE's walk binds the path of every leaf, left to right (R140). -/
theorem walk_ok {fuel i : Nat} {s : State} {t : Tree} {pre : Bits}
    (h : treeAt s.node fuel i = some t) (hd : pre.length + treeDepth t ≤ 256)
    (hl : labelsFit t = true) :
    walk fuel i pre.length (valOf pre) s = .ok ()
      { s with code := bindPaths s.code ((leafPaths t).map fun w => (w.1, pre ++ w.2)) } := by
  induction fuel generalizing i s t pre with
  | zero => simp [treeAt] at h
  | succ fuel ih =>
    obtain ⟨n, hn, ⟨hlf, rfl⟩ | ⟨hlf, a, b, h1, h2, rfl⟩⟩ := treeAt_cases h
    · simp [labelsFit, Config.sentinel] at hl
      simp [treeDepth] at hd
      rw [walk, readNode_some hn, Res.bind_ok, if_pos hlf, bindCode, if_pos hd,
        writeCode_lt _ (by omega)]
      simp [leafPaths, bindPaths, State.setCode, codeOfPath, show n.value.toNat < 257 by omega]
    · simp [labelsFit] at hl
      simp [treeDepth] at hd
      have e0 : 2 * valOf pre = valOf (pre ++ [false]) := by simp [valOf_append_bit]
      have e1 : 2 * valOf pre + 1 = valOf (pre ++ [true]) := by simp [valOf_append_bit]
      have e2 : ∀ b : Bool, pre.length + 1 = (pre ++ [b]).length := by simp
      rw [walk, readNode_some hn, Res.bind_ok, if_neg (by simp [hlf]), e1, e0, e2 false,
        ih h1 (by simp; omega) hl.1, Res.bind_ok,
        show (pre ++ [false]).length = (pre ++ [true]).length by simp,
        ih (s := { s with
          code := bindPaths s.code ((leafPaths a).map fun w => (w.1, pre ++ [false] ++ w.2)) }) h2 (by simp; omega) hl.2]
      simp [leafPaths, bindPaths_append, Function.comp_def]

/-! ## RDTREE -/

/-- `T` stands in the node store from index `i` on, in pre-order, with weights 0 (R160). -/
def PreOrder (node : Vector Node 513) : Tree → Nat → Prop
  | .leaf v, i => node[i]? = some (Node.mkLeaf v 0)
  | .node l r, i =>
    node[i]? = some (Node.mkNode (i + 1) (i + 1 + (2 * leafCount l - 1)) 0) ∧
    PreOrder node l (i + 1) ∧ PreOrder node r (i + 1 + (2 * leafCount l - 1))

/-- Only the entries of the tree matter. -/
theorem PreOrder.congr {node node' : Vector Node 513} {t : Tree} {i : Nat}
    (h : PreOrder node t i)
    (he : ∀ j, i ≤ j → j < i + (2 * leafCount t - 1) → node'[j]? = node[j]?) :
    PreOrder node' t i := by
  induction t generalizing i with
  | leaf v => simpa [PreOrder, leafCount] using (he i (by omega) (by simp [leafCount])).trans h
  | node l r ihl ihr =>
    have := leafCount_pos l
    have := leafCount_pos r
    simp only [leafCount] at he
    exact ⟨(he i (by omega) (by omega)).trans h.1,
      ihl h.2.1 fun j h1 h2 => he j (by omega) (by omega),
      ihr h.2.2 fun j h1 h2 => he j (by omega) (by omega)⟩

theorem PreOrder.treeAt {node : Vector Node 513} {t : Tree} {i : Nat} (h : PreOrder node t i)
    (hi : i + (2 * leafCount t - 1) ≤ 1024) :
    Machine.treeAt node (treeDepth t + 1) i = some t := by
  induction t generalizing i with
  | leaf v => exact treeAt_leaf h rfl
  | node l r ihl ihr =>
    have := leafCount_pos l
    have := leafCount_pos r
    simp only [leafCount] at hi
    obtain ⟨h0, h1, h2⟩ := h
    refine treeAt_node h0 rfl ?_ ?_
    · rw [show (Node.mkNode (i + 1) (i + 1 + (2 * leafCount l - 1)) 0).left.toNat = i + 1 by
        simp [Node.mkNode]; omega]
      exact treeAt_mono (ihl h1 (by omega)) (by simp [treeDepth])
    · rw [show (Node.mkNode (i + 1) (i + 1 + (2 * leafCount l - 1)) 0).right.toNat =
        i + 1 + (2 * leafCount l - 1) by simp [Node.mkNode]; omega]
      exact treeAt_mono (ihr h2 (by omega)) (by simp [treeDepth])

theorem visits_mono {node : Vector Node 513} {f g i : Nat} {l : List Nat}
    (h : visits node f i = some l) (hfg : f ≤ g) : visits node g i = some l := by
  induction f generalizing g i l with
  | zero => simp [visits] at h
  | succ f ih =>
    obtain ⟨g, rfl⟩ : ∃ k, g = k + 1 := ⟨g - 1, by omega⟩
    rw [visits] at h ⊢
    cases hn : node[i]? with
    | none => simp [hn] at h
    | some n =>
      simp only [hn] at h ⊢
      cases hl : n.leaf with
      | true => simpa [hl] using h
      | false =>
        simp only [hl] at h ⊢
        cases h1 : visits node f n.left.toNat with
        | none => simp [h1] at h
        | some a =>
          cases h2 : visits node f n.right.toNat with
          | none => simp [h1, h2] at h
          | some b =>
            rw [ih h1 (show f ≤ g by omega), ih h2 (show f ≤ g by omega)]
            simpa [h1, h2] using h

theorem visits_leaf {node : Vector Node 513} {fuel i : Nat} {n : Node} (hn : node[i]? = some n)
    (hl : n.leaf = true) : visits node (fuel + 1) i = some [i] := by
  simp [visits, hn, hl]

theorem visits_node {node : Vector Node 513} {fuel i : Nat} {n : Node} {l r : List Nat}
    (hn : node[i]? = some n) (hl : n.leaf = false) (h1 : visits node fuel n.left.toNat = some l)
    (h2 : visits node fuel n.right.toNat = some r) :
    visits node (fuel + 1) i = some (i :: (l ++ r)) := by
  simp [visits, hn, hl, h1, h2]

theorem PreOrder.visits {node : Vector Node 513} {t : Tree} {i : Nat} (h : PreOrder node t i)
    (hi : i + (2 * leafCount t - 1) ≤ 1024) :
    Machine.visits node (treeDepth t + 1) i = some (List.range' i (2 * leafCount t - 1)) := by
  induction t generalizing i with
  | leaf v => exact visits_leaf h rfl
  | node l r ihl ihr =>
    have hl := leafCount_pos l
    have hr := leafCount_pos r
    simp only [leafCount] at hi
    obtain ⟨h0, h1, h2⟩ := h
    have e1 : (Node.mkNode (i + 1) (i + 1 + (2 * leafCount l - 1)) 0).left.toNat = i + 1 := by
      simp [Node.mkNode]; omega
    have e2 : (Node.mkNode (i + 1) (i + 1 + (2 * leafCount l - 1)) 0).right.toNat =
      i + 1 + (2 * leafCount l - 1) := by simp [Node.mkNode]; omega
    have hv := visits_node (fuel := treeDepth (.node l r)) h0 rfl
      (by rw [e1]; exact visits_mono (ihl h1 (by omega)) (by simp [treeDepth]))
      (by rw [e2]; exact visits_mono (ihr h2 (by omega)) (by simp [treeDepth]))
    rw [hv, List.range'_append_1, show 2 * leafCount (.node l r) - 1 =
      (2 * leafCount l - 1 + (2 * leafCount r - 1)) + 1 by simp [leafCount]; omega,
      List.range'_succ]

theorem headerBits_length (t : Tree) : (headerBits t).length = 11 * leafCount t - 1 := by
  induction t with
  | leaf v => simp [headerBits, leafCount]
  | node l r ihl ihr =>
    have := leafCount_pos l
    have := leafCount_pos r
    simp [headerBits, leafCount, ihl, ihr]
    omega

theorem internalCount_succ (t : Tree) : internalCount t + 1 = leafCount t := by
  induction t with
  | leaf v => rfl
  | node l r ihl ihr => simp [internalCount, leafCount]; omega

theorem treeDepth_lt (t : Tree) : treeDepth t + 1 ≤ leafCount t := by
  induction t with
  | leaf v => exact Nat.le_refl 1
  | node l r ihl ihr =>
    have := leafCount_pos l
    have := leafCount_pos r
    simp [treeDepth, leafCount]
    omega

/-- Reading one bit that is there. -/
theorem rd_bit {s : State} {b : Bool} {rest : Bits} (hq : s.Quiet) (h : s.unread = b :: rest) :
    rd 1 s = .ok (some (BitVec.ofBool b)) (s.takeBits 1) := by
  rw [rd_value hq.failsNext (by omega) (by simp [h]), fieldAt_one (rest := rest) (by simpa using h)]

/-- Reading an n-bit field that is there. -/
theorem rd_field {n : Nat} {v : BitVec n} {s : State} {rest : Bits} (hn : 0 < n) (hq : s.Quiet)
    (h : s.unread = bitsOf n v.toNat ++ rest) : rd n s = .ok (some v) (s.takeBits n) := by
  rw [rd_value hq.failsNext hn (by simp [h]), fieldAt_bitsOf (rest := rest) (by simpa using h)]

theorem State.unread_takeIndex (s : State) : s.takeIndex.unread = s.unread := rfl

theorem State.Quiet.takeIndex {s : State} (h : s.Quiet) : s.takeIndex.Quiet := h

theorem vector_set_get? {α : Type} {n : Nat} {v : Vector α n} {i : Nat} {a : α} {h : i < n} :
    (v.set i a h)[i]? = some a := by simp

theorem vector_set_get?_ne {α : Type} {n : Nat} {v : Vector α n} {i j : Nat} {a : α} {h : i < n}
    (hij : i ≠ j) : (v.set i a h)[j]? = v[j]? := by
  simp [Vector.getElem?_set_ne _ hij]

theorem headerTokens_length (t : Tree) : (headerTokens t).length = 2 * leafCount t - 1 := by
  induction t with
  | leaf v => rfl
  | node l r ihl ihr =>
    have := leafCount_pos l
    have := leafCount_pos r
    simp [headerTokens, leafCount, ihl, ihr]
    omega

theorem tokenBits_append (a b : List Instr) : tokenBits (a ++ b) = tokenBits a ++ tokenBits b := by
  simp [tokenBits]

/-- The tokens of a header, one after the other, are its bits (R87). -/
theorem tokenBits_headerTokens (t : Tree) : tokenBits (headerTokens t) = headerBits t := by
  induction t with
  | leaf v => simp [tokenBits, headerTokens, headerBits, Instr.bits]
  | node l r ihl ihr =>
    rw [headerTokens, headerBits, ← ihl, ← ihr, ← tokenBits_append]
    rfl

theorem headerTokens_mem {t : Tree} {x : Instr} (h : x ∈ headerTokens t) :
    x = .hdrInternal ∨ ∃ v, x = .hdrLeaf v := by
  induction t with
  | leaf v => exact .inr ⟨v, by simpa [headerTokens] using h⟩
  | node l r ihl ihr =>
    simp only [headerTokens, List.mem_cons, List.mem_append] at h
    rcases h with h | h | h
    · exact .inl h
    · exact ihl h
    · exact ihr h

theorem labelsFit_of_tokens {t : Tree} (h : ∀ i ∈ headerTokens t, i.wellFormed = true) :
    labelsFit t = true := by
  induction t with
  | leaf v => exact h (.hdrLeaf v) (by simp [headerTokens])
  | node l r ihl ihr =>
    simp only [headerTokens, List.mem_cons, List.mem_append] at h
    simp [labelsFit, ihl fun i hi => h i (.inr (.inl hi)), ihr fun i hi => h i (.inr (.inr hi))]

/-- What RDTREE's recursion leaves when it reads a whole tree. -/
theorem getTree_ok {fuel : Nat} {s : State} {t : Tree} {rest : Bits} (hq : s.Quiet)
    (hu : s.unread = headerBits t ++ rest) (hl : labelsFit t = true)
    (hc : s.ncount.toNat + (2 * leafCount t - 1) ≤ 513) (hf : treeDepth t < fuel) :
    ∃ node tr,
      getTree fuel s = .ok s.ncount.toNat
        { s with
          node := node, ncount := BitVec.ofNat 10 (s.ncount.toNat + (2 * leafCount t - 1)),
          inPos := s.inPos + (11 * leafCount t - 1),
          answers := s.answers.drop (3 * leafCount t - 1), trace := tr } ∧
      PreOrder node t s.ncount.toNat ∧
      (∀ j, (j < s.ncount.toNat ∨ s.ncount.toNat + (2 * leafCount t - 1) ≤ j) →
        node[j]? = s.node[j]?) := by
  induction t generalizing fuel s rest with
  | leaf v =>
    obtain ⟨fuel, rfl⟩ : ∃ k, fuel = k + 1 := ⟨fuel - 1, by omega⟩
    simp only [leafCount] at hc
    simp only [labelsFit, Config.sentinel, decide_eq_true_eq] at hl
    simp only [headerBits, List.cons_append] at hu
    have hinc : s.ncount + 1#10 = BitVec.ofNat 10 (s.ncount.toNat + 1) := by
      apply BitVec.eq_of_toNat_eq; simp
    rw [getTree, rd_bit hq hu, Res.bind_ok]
    simp only []
    rw [if_neg (by simp [Config.nodeCap]; omega), allocIndex, Res.bind_ok, if_pos (by rfl), getLeaf,
      rd_field (v := v) (rest := rest) (by omega) (hq.takeBits 1).takeIndex
        (by rw [State.unread_takeIndex, State.unread_takeBits, hu]; rfl), Res.bind_ok]
    simp only []
    rw [if_neg (by simp [Config.sentinel]; omega), writeNode_lt _ (by simp; omega), Res.bind_ok]
    refine ⟨s.node.set s.ncount.toNat (Node.mkLeaf v 0) (by omega),
      s.trace ++ [.readBits 1, .readBits 9], ?_, vector_set_get?, ?_⟩
    · simp [State.takeBits, State.takeIndex, State.setNode, State.logCall, leafCount, hinc]
    · intro j hj
      exact vector_set_get?_ne (by simp [leafCount] at hj; omega)
  | node l r ihl ihr =>
    obtain ⟨fuel, rfl⟩ : ∃ k, fuel = k + 1 := ⟨fuel - 1, by omega⟩
    have hl1 := leafCount_pos l
    have hr1 := leafCount_pos r
    simp only [leafCount] at hc
    simp only [treeDepth] at hf
    simp only [labelsFit, Bool.and_eq_true] at hl
    simp only [headerBits, List.cons_append, List.append_assoc] at hu
    have hinc : s.ncount + 1#10 = BitVec.ofNat 10 (s.ncount.toNat + 1) := by
      apply BitVec.eq_of_toNat_eq; simp
    have hn1 : (BitVec.ofNat 10 (s.ncount.toNat + 1)).toNat = s.ncount.toNat + 1 := by
      simp; omega
    rw [getTree, rd_bit hq hu, Res.bind_ok]
    simp only []
    rw [if_neg (by simp [Config.nodeCap]; omega), allocIndex, Res.bind_ok, if_neg (by decide)]
    have hnc : (s.takeBits 1).takeIndex.ncount.toNat = s.ncount.toNat + 1 := by
      rw [State.takeIndex_ncount, State.takeBits_ncount]
      exact (congrArg BitVec.toNat hinc).trans hn1
    obtain ⟨nd1, tr1, e1, p1, k1⟩ := ihl (fuel := fuel) (s := (s.takeBits 1).takeIndex)
      (rest := headerBits r ++ rest) (hq.takeBits 1).takeIndex
      (by rw [State.unread_takeIndex, State.unread_takeBits, hu]; rfl) hl.1 (by omega) (by omega)
    rw [e1, Res.bind_ok]
    rw [hnc] at p1 k1
    generalize hs1 : ({ (s.takeBits 1).takeIndex with
        node := nd1
        ncount := BitVec.ofNat 10 ((s.takeBits 1).takeIndex.ncount.toNat + (2 * leafCount l - 1))
        inPos := (s.takeBits 1).takeIndex.inPos + (11 * leafCount l - 1)
        answers := (s.takeBits 1).takeIndex.answers.drop (3 * leafCount l - 1)
        trace := tr1 } : State) = s1
    have hnc1 : s1.ncount.toNat = s.ncount.toNat + 1 + (2 * leafCount l - 1) := by
      rw [← hs1]
      simp only [hnc]
      simp
      omega
    have hnode : s1.node = nd1 := by rw [← hs1]
    have hq1 : s1.Quiet := by
      rw [← hs1]
      exact (hq.takeBits 1).takeIndex.of_drop rfl
    have hu1 : s1.unread = headerBits r ++ rest := by
      rw [← hs1]
      have h1 : s.inBits.drop (s.inPos + 1 + (11 * leafCount l - 1)) =
          (s.unread.drop 1).drop (11 * leafCount l - 1) := by simp [State.unread]
      refine h1.trans ?_
      rw [hu, List.drop_succ_cons, List.drop_zero, ← headerBits_length l, List.drop_left]
    obtain ⟨nd2, tr2, e2, p2, k2⟩ := ihr (fuel := fuel) (s := s1) (rest := rest) hq1 hu1 hl.2
      (by omega) (by omega)
    rw [e2, Res.bind_ok]
    simp only [State.takeBits_ncount]
    rw [writeNode_lt _ (by omega), Res.bind_ok]
    rw [hnc1] at p2 k2
    rw [hnode] at k2
    refine ⟨nd2.set s.ncount.toNat
      (Node.mkNode (s.ncount.toNat + 1) (s.ncount.toNat + 1 + (2 * leafCount l - 1)) 0) (by omega),
      tr2, ?_, ⟨vector_set_get?, ?_, ?_⟩, ?_⟩
    · have a1 : s.ncount.toNat + 1 + (2 * leafCount l - 1) + (2 * leafCount r - 1) =
        s.ncount.toNat + (2 * (leafCount l + leafCount r) - 1) := by omega
      have a2 : s.inPos + 1 + (11 * leafCount l - 1) + (11 * leafCount r - 1) =
        s.inPos + (11 * (leafCount l + leafCount r) - 1) := by omega
      have a3 : 3 * leafCount l - 1 + 1 + (3 * leafCount r - 1) =
        3 * (leafCount l + leafCount r) - 1 := by omega
      rw [hnc1, hnc, a1]
      simp [← hs1, State.setNode, State.takeIndex, State.takeBits, State.logCall, leafCount, a2, a3]
    · exact (p1.congr fun j h1 h2 => k2 j (by omega)).congr fun j h1 h2 =>
        vector_set_get?_ne (by omega)
    · exact p2.congr fun j h1 h2 => vector_set_get?_ne (by omega)
    · intro j hj
      simp only [leafCount] at hj
      rw [vector_set_get?_ne (by omega), k2 j (by omega), k1 j (by omega)]
      rfl

/-- Only NODE, NCOUNT and IN differ. -/
def HeaderFrame (s t : State) : Prop :=
  t = { s with node := t.node, ncount := t.ncount, inPos := t.inPos, answers := t.answers,
               trace := t.trace, draws := t.draws }

theorem HeaderFrame.trans {s t u : State} (h : HeaderFrame s t) (h' : HeaderFrame t u) :
    HeaderFrame s u := by
  unfold HeaderFrame at *
  rw [h'] at *
  rw [h]

/-- RDTREE's recursion reads the whole tokens `ts` of a header and then raises whatever `get()` raises
on the bits `q` after them; `P` is what that call leaves. -/
theorem getTree_at {fuel : Nat} {s : State} {t : Tree} {ts us : List Instr} {x : Instr} {q : Bits}
    {f : FaultCode} {P : State → Prop} (hq : s.Quiet) (ht : headerTokens t = ts ++ x :: us)
    (hw : ∀ i ∈ ts, i.wellFormed = true) (hu : s.unread = tokenBits ts ++ q)
    (hn : s.ncount.toNat + ts.length ≤ 513) (hf : 514 ≤ fuel + s.ncount.toNat)
    (hx : ∀ (k : Nat) (v : State), v.Quiet → v.inBits = s.inBits → v.unread = q →
      v.ncount.toNat = s.ncount.toNat + ts.length →
      v.inPos = s.inPos + (tokenBits ts).length →
      ∃ u, getTree (k + 1) v = .raise f u ∧ HeaderFrame v u ∧ P u) :
    ∃ u, getTree fuel s = .raise f u ∧ HeaderFrame s u ∧ P u := by
  induction t generalizing fuel s ts us with
  | leaf v =>
    obtain ⟨fuel, rfl⟩ : ∃ k, fuel = k + 1 := ⟨fuel - 1, by omega⟩
    obtain rfl : ts = [] := by
      cases ts with
      | nil => rfl
      | cons a l => simp [headerTokens] at ht
    exact hx fuel s hq rfl hu (by simp) (by simp [tokenBits])
  | node l r ihl ihr =>
    obtain ⟨fuel, rfl⟩ : ∃ k, fuel = k + 1 := ⟨fuel - 1, by omega⟩
    cases ts with
    | nil => exact hx fuel s hq rfl hu (by simp) (by simp [tokenBits])
    | cons a ts =>
      simp only [headerTokens, List.cons_append, List.cons.injEq] at ht
      obtain ⟨rfl, ht⟩ := ht
      have hw' : ∀ i ∈ ts, i.wellFormed = true := fun i hi => hw i (List.mem_cons_of_mem _ hi)
      simp only [List.length_cons] at hn
      have hu' : s.unread = false :: (tokenBits ts ++ q) := by rw [hu]; rfl
      have hinc : s.ncount + 1#10 = BitVec.ofNat 10 (s.ncount.toNat + 1) := by
        apply BitVec.eq_of_toNat_eq; simp
      have hnc : (s.takeBits 1).takeIndex.ncount.toNat = s.ncount.toNat + 1 := by
        rw [State.takeIndex_ncount, State.takeBits_ncount]
        refine (congrArg BitVec.toNat hinc).trans ?_
        simp
        omega
      have huq : (s.takeBits 1).takeIndex.unread = tokenBits ts ++ q := by
        rw [State.unread_takeIndex, State.unread_takeBits, hu']; rfl
      have hfr : HeaderFrame s (s.takeBits 1).takeIndex := by
        simp [HeaderFrame, State.takeIndex, State.takeBits, State.logCall]
      rw [getTree, rd_bit hq hu', Res.bind_ok]
      simp only []
      rw [if_neg (by simp [Config.nodeCap]; omega), allocIndex, Res.bind_ok, if_neg (by decide)]
      have hbits : (tokenBits (.hdrInternal :: ts)).length = 1 + (tokenBits ts).length := by
        simp [tokenBits, Instr.bits]; omega
      have hsplit : (∃ ts', ts = headerTokens l ++ ts' ∧ headerTokens r = ts' ++ x :: us) ∨
          ∃ us', headerTokens l = ts ++ x :: us' := by
        rcases List.append_eq_append_iff.mp ht with ⟨ts', h1, h2⟩ | ⟨us', h1, h2⟩
        · exact .inl ⟨ts', h1, h2⟩
        · cases us' with
          | nil => exact .inl ⟨[], by simpa using h1.symm, by simpa using h2.symm⟩
          | cons y us' =>
            obtain ⟨rfl, -⟩ := List.cons.inj h2
            exact .inr ⟨us', h1⟩
      rcases hsplit with ⟨ts', rfl, hr⟩ | ⟨us', hl⟩
      · have hlen := headerTokens_length l
        have hl1 := leafCount_pos l
        simp only [List.length_append] at hn
        have hlf : labelsFit l = true :=
          labelsFit_of_tokens fun i hi => hw' i (List.mem_append_left _ hi)
        have hul : tokenBits (headerTokens l ++ ts') ++ q = headerBits l ++ (tokenBits ts' ++ q) := by
          rw [tokenBits_append, tokenBits_headerTokens, List.append_assoc]
        obtain ⟨nd1, tr1, e1, -, -⟩ := getTree_ok (fuel := fuel) (s := (s.takeBits 1).takeIndex)
          (hq.takeBits 1).takeIndex (huq.trans hul) hlf (by omega)
          (by have := treeDepth_lt l; omega)
        rw [e1, Res.bind_ok]
        generalize hs1 : ({ (s.takeBits 1).takeIndex with
            node := nd1
            ncount := BitVec.ofNat 10
              ((s.takeBits 1).takeIndex.ncount.toNat + (2 * leafCount l - 1))
            inPos := (s.takeBits 1).takeIndex.inPos + (11 * leafCount l - 1)
            answers := (s.takeBits 1).takeIndex.answers.drop (3 * leafCount l - 1)
            trace := tr1 } : State) = s1
        have hnc1 : s1.ncount.toNat = s.ncount.toNat + 1 + (2 * leafCount l - 1) := by
          rw [← hs1]
          simp only [hnc]
          simp
          omega
        have hq1 : s1.Quiet := by
          rw [← hs1]
          exact (hq.takeBits 1).takeIndex.of_drop rfl
        have hp1 : s1.inPos = s.inPos + 1 + (headerBits l).length := by
          rw [← hs1, headerBits_length]; rfl
        have hb1 : s1.inBits = s.inBits := by rw [← hs1]; rfl
        have hu1 : s1.unread = tokenBits ts' ++ q := by
          rw [State.unread, hb1, hp1, ← List.drop_drop, ← List.drop_drop]
          change (s.unread.drop 1).drop _ = _
          rw [hu', List.drop_succ_cons, List.drop_zero, hul, List.drop_left]
        have hfr1 : HeaderFrame s s1 := by
          rw [← hs1]; simp [HeaderFrame, State.takeIndex, State.takeBits, State.logCall]
        obtain ⟨u, e2, f2, p2⟩ := ihr (fuel := fuel) (s := s1) hq1 hr
          (fun i hi => hw' i (List.mem_append_right _ hi)) hu1 (by omega) (by omega)
          fun k v h1 h2 h3 h4 h5 => hx k v h1 (h2.trans hb1) h3
            (by simp only [List.length_cons, List.length_append]; omega)
            (by
              rw [h5, hp1, hbits, tokenBits_append, tokenBits_headerTokens, List.length_append]
              omega)
        rw [e2, Res.bind_raise]
        exact ⟨u, rfl, hfr1.trans f2, p2⟩
      · obtain ⟨u, e1, f1, p1⟩ := ihl (fuel := fuel) (s := (s.takeBits 1).takeIndex)
          (hq.takeBits 1).takeIndex hl hw' huq (by omega) (by omega)
          fun k v h1 h2 h3 h4 h5 => hx k v h1 h2 h3 (by simp only [List.length_cons]; omega)
            (by rw [h5, hbits]; simp; omega)
        rw [e1, Res.bind_raise]
        exact ⟨u, rfl, hfr.trans f1, p1⟩

/-- `get()` finds the end of the input before the token `x` is complete (R160). -/
theorem getTree_eos {k : Nat} {s : State} {x : Instr} {q : Bits} (hq : s.Quiet)
    (hx : x = .hdrInternal ∨ ∃ v, x = .hdrLeaf v) (hu : s.unread = q) (hp : q <+: x.bits)
    (hne : q ≠ x.bits) (hc : q ≠ [] → s.ncount.toNat < 513) :
    ∃ u, getTree (k + 1) s = .raise .fmtHdrTrunc u ∧ HeaderFrame s u ∧
      u.inPos = s.inBits.length := by
  rw [getTree]
  cases q with
  | nil =>
    rw [rd_eos hq.failsNext (by simp [hu]), Res.bind_ok]
    exact ⟨_, rfl, by simp [HeaderFrame, State.takeRest, State.logCall], by simp⟩
  | cons b q =>
    rcases hx with rfl | ⟨v, rfl⟩
    · have h1 := hp.length_le
      refine absurd (hp.eq_of_length ?_) hne
      simp [Instr.bits] at h1 ⊢
      omega
    · rw [Instr.bits, List.cons_prefix_cons] at hp
      obtain ⟨rfl, hp⟩ := hp
      have hlen : q.length < 9 := by
        have h1 := hp.length_le
        simp at h1
        by_contra h9
        exact hne (by rw [Instr.bits, hp.eq_of_length (by simp; omega)])
      have := hc (by simp)
      rw [rd_bit hq hu, Res.bind_ok]
      simp only []
      rw [if_neg (by simp [Config.nodeCap]; omega), allocIndex, Res.bind_ok, if_pos (by rfl),
        getLeaf, rd_eos (hq.takeBits 1).takeIndex.failsNext
          (by rw [State.unread_takeIndex, State.unread_takeBits, hu]; exact hlen), Res.bind_ok]
      exact ⟨_, rfl, by simp [HeaderFrame, State.takeRest, State.takeIndex, State.takeBits,
        State.logCall], by simp⟩

/-- `get()` meets a Symbol above 256 (R161). -/
theorem getTree_label {k : Nat} {s : State} {v : Sym} {rest : Bits} (hq : s.Quiet)
    (hu : s.unread = (Instr.hdrLeaf v).bits ++ rest) (hv : 256 < v.toNat)
    (hc : s.ncount.toNat < 513) :
    ∃ u, getTree (k + 1) s = .raise .fmtHdrBad u ∧ HeaderFrame s u ∧ u.inPos = s.inPos + 10 := by
  rw [getTree, rd_bit (b := true) (rest := bitsOf 9 v.toNat ++ rest) hq hu, Res.bind_ok]
  simp only []
  rw [if_neg (by simp [Config.nodeCap]; omega), allocIndex, Res.bind_ok, if_pos (by rfl),
    getLeaf, rd_field (v := v) (rest := rest) (by omega) (hq.takeBits 1).takeIndex
      (by rw [State.unread_takeIndex, State.unread_takeBits, hu]; rfl), Res.bind_ok]
  simp only []
  rw [if_pos (by simpa [Config.sentinel] using hv)]
  exact ⟨_, rfl, by simp [HeaderFrame, State.takeIndex, State.takeBits, State.logCall], rfl⟩

/-- `get()` meets a token when the node store is full (R162). -/
theorem getTree_full {k : Nat} {s : State} {b : Bool} {rest : Bits} (hq : s.Quiet)
    (hu : s.unread = b :: rest) (hc : s.ncount.toNat = 513) :
    ∃ u, getTree (k + 1) s = .raise .fmtHdrBad u ∧ HeaderFrame s u ∧ u.inPos = s.inPos + 1 := by
  rw [getTree, rd_bit hq hu, Res.bind_ok]
  simp only []
  rw [if_pos (by simpa [Config.nodeCap] using hc)]
  exact ⟨_, rfl, by simp [HeaderFrame, State.takeBits, State.logCall], rfl⟩

/-! ## DECODE -/

/-- What DECODE does with the leaf a code word ends at (R180). -/
def afterLeaf (fuel : Nat) (v : Sym) (s : State) : Res Unit :=
  if v.toNat = 256 then .ok () s
  else (putLiteral v.toNat s).bind fun _ s => decodeLoop fuel s.root.toNat s

/-- A path goes on in the child its first bit selects. -/
theorem child_of_path {node : Vector Node 513} {f : Nat} {n : Node} {l r : Tree} {v : Sym}
    {b : Bool} {p : Bits} (h1 : treeAt node f n.left.toNat = some l)
    (h2 : treeAt node f n.right.toNat = some r) (hp : (v, b :: p) ∈ leafPaths (.node l r)) :
    ∃ c, treeAt node f (n.child (BitVec.ofBool b)) = some c ∧ (v, p) ∈ leafPaths c := by
  simp only [leafPaths, List.mem_append, List.mem_map, Prod.mk.injEq, List.cons.injEq] at hp
  cases b with
  | false =>
    refine ⟨l, by simpa [Node.child] using h1, ?_⟩
    rcases hp with ⟨⟨v', p'⟩, hm, rfl, -, rfl⟩ | ⟨⟨v', p'⟩, hm, rfl, h, -⟩
    · exact hm
    · cases h
  | true =>
    refine ⟨r, by simpa [Node.child] using h2, ?_⟩
    rcases hp with ⟨⟨v', p'⟩, hm, rfl, h, -⟩ | ⟨⟨v', p'⟩, hm, rfl, -, rfl⟩
    · cases h
    · exact hm

/-- DECODE's walk over one whole code word. -/
theorem decodeLoop_path {fuel f cur : Nat} {s : State} {l r : Tree} {v : Sym} {p rest : Bits}
    (hq : s.Quiet) (ht : treeAt s.node f cur = some (.node l r))
    (hp : (v, p) ∈ leafPaths (.node l r)) (hu : s.unread = p ++ rest) :
    ∃ tr, decodeLoop (fuel + p.length) cur s = afterLeaf fuel v
      { s with inPos := s.inPos + p.length, answers := s.answers.drop p.length, trace := tr } := by
  induction p generalizing f cur s l r with
  | nil =>
    simp [leafPaths] at hp
  | cons b p ih =>
    obtain ⟨f, rfl⟩ : ∃ k, f = k + 1 := by
      cases f with
      | zero => simp [treeAt] at ht
      | succ k => exact ⟨k, rfl⟩
    obtain ⟨n, hn, ⟨hl, h⟩ | ⟨hl, l', r', h1, h2, h⟩⟩ := treeAt_cases ht
    · cases h
    · cases h
      obtain ⟨c, hc, hm⟩ := child_of_path h1 h2 hp
      rw [List.length_cons, ← Nat.add_assoc, decodeLoop, rd_bit hq hu, Res.bind_ok]
      simp only []
      rw [readNode_some (s := s.takeBits 1) hn, Res.bind_ok]
      obtain ⟨f, rfl⟩ : ∃ k, f = k + 1 := by
        cases f with
        | zero => simp [treeAt] at hc
        | succ k => exact ⟨k, rfl⟩
      have hc' := hc
      obtain ⟨m, hm1, ⟨hml, rfl⟩ | ⟨hml, a, b', -, -, rfl⟩⟩ := treeAt_cases hc
      · simp only [leafPaths, List.mem_singleton, Prod.mk.injEq] at hm
        obtain ⟨rfl, rfl⟩ := hm
        rw [readNode_some (s := s.takeBits 1) hm1, Res.bind_ok, if_pos hml]
        exact ⟨s.trace ++ [.readBits 1], by
          simp [afterLeaf, Config.sentinel, State.takeBits, State.logCall, ← List.drop_one]⟩
      · rw [readNode_some (s := s.takeBits 1) hm1, Res.bind_ok, if_neg (by simp [hml])]
        obtain ⟨tr, e⟩ := ih (s := s.takeBits 1) (hq.takeBits 1) hc' hm
          (by rw [State.unread_takeBits, hu]; rfl)
        refine ⟨tr, ?_⟩
        rw [e]
        simp [State.takeBits, State.logCall, Nat.add_assoc, Nat.add_comm 1]

/-- DECODE's walk over a code word cut short (R181). -/
theorem decodeLoop_short {fuel f cur : Nat} {s : State} {l r : Tree} {v : Sym} {p q : Bits}
    (hq : s.Quiet) (ht : treeAt s.node f cur = some (.node l r))
    (hp : (v, p) ∈ leafPaths (.node l r)) (hqp : q <+: p) (hne : q ≠ p) (hu : s.unread = q)
    (hf : q.length < fuel) :
    ∃ tr, decodeLoop fuel cur s = .raise .fmtStream
      { s with inPos := s.inBits.length, answers := s.answers.drop (q.length + 1), trace := tr } := by
  obtain ⟨fuel, rfl⟩ : ∃ k, fuel = k + 1 := ⟨fuel - 1, by omega⟩
  induction q generalizing f cur s l r p fuel with
  | nil =>
    rw [decodeLoop, rd_eos hq.failsNext (by simp [hu]), Res.bind_ok]
    exact ⟨s.trace ++ [.readBits 1], by simp [State.takeRest, State.logCall]⟩
  | cons b q ih =>
    obtain ⟨p, rfl⟩ : ∃ p', p = b :: p' := by
      cases p with
      | nil => simp at hqp
      | cons c p => rw [List.cons_prefix_cons] at hqp; exact ⟨p, by rw [hqp.1]⟩
    rw [List.cons_prefix_cons] at hqp
    obtain ⟨f, rfl⟩ : ∃ k, f = k + 1 := by
      cases f with
      | zero => simp [treeAt] at ht
      | succ k => exact ⟨k, rfl⟩
    obtain ⟨n, hn, ⟨hl, h⟩ | ⟨hl, l', r', h1, h2, h⟩⟩ := treeAt_cases ht
    · cases h
    · cases h
      obtain ⟨c, hc, hm⟩ := child_of_path h1 h2 hp
      rw [decodeLoop, rd_bit hq hu, Res.bind_ok]
      simp only []
      rw [readNode_some (s := s.takeBits 1) hn, Res.bind_ok]
      obtain ⟨f, rfl⟩ : ∃ k, f = k + 1 := by
        cases f with
        | zero => simp [treeAt] at hc
        | succ k => exact ⟨k, rfl⟩
      have hc' := hc
      obtain ⟨m, hm1, ⟨hml, rfl⟩ | ⟨hml, a, b', -, -, rfl⟩⟩ := treeAt_cases hc
      · simp only [leafPaths, List.mem_singleton, Prod.mk.injEq] at hm
        obtain ⟨rfl, rfl⟩ := hm
        simp at hqp
        simp [hqp] at hne
      · rw [readNode_some (s := s.takeBits 1) hm1, Res.bind_ok, if_neg (by simp [hml])]
        simp only [List.length_cons] at hf
        obtain ⟨fuel, rfl⟩ : ∃ k, fuel = k + 1 := ⟨fuel - 1, by omega⟩
        obtain ⟨tr, e⟩ := ih (s := s.takeBits 1) (p := p) (hq.takeBits 1) hc' hm hqp.2
          (by rintro rfl; exact hne rfl) (by rw [State.unread_takeBits, hu]; rfl) fuel (by omega)
        refine ⟨tr, ?_⟩
        rw [e]
        simp [State.takeBits, State.logCall, Nat.add_assoc]

/-- DECODE's loop over the code words of some literals. -/
theorem decodeLoop_literals {fuel f : Nat} {s : State} {l r : Tree} {ws : List (Sym × Bits)}
    {rest : Bits} (hq : s.Quiet) (ht : treeAt s.node f s.root.toNat = some (.node l r))
    (hw : LiteralLeaves (.node l r) ws) (hu : s.unread = pathBits ws ++ rest) :
    ∃ tr, decodeLoop (fuel + (pathBits ws).length) s.root.toNat s = decodeLoop fuel s.root.toNat
      { s with
        inPos := s.inPos + (pathBits ws).length, outBits := s.outBits ++ literalBits ws,
        answers := s.answers.drop ((pathBits ws).length + ws.length), trace := tr } := by
  induction ws generalizing s with
  | nil => exact ⟨s.trace, by simp [pathBits, literalBits]⟩
  | cons w ws ih =>
    obtain ⟨hm, hlit⟩ := hw w (by simp)
    have hpb : pathBits (w :: ws) = w.2 ++ pathBits ws := by simp [pathBits]
    have hlb : literalBits (w :: ws) = bitsOf 8 w.1.toNat ++ literalBits ws := by
      simp [literalBits]
    rw [hpb] at hu ⊢
    rw [hlb]
    rw [List.append_assoc] at hu
    obtain ⟨tr, e⟩ := decodeLoop_path (fuel := fuel + (pathBits ws).length) (v := w.1) (p := w.2)
      hq ht hm hu
    rw [List.length_append, Nat.add_comm w.2.length, ← Nat.add_assoc, e, afterLeaf, if_neg hlit]
    generalize hs1 : ({ s with
        inPos := s.inPos + w.2.length
        answers := s.answers.drop w.2.length
        trace := tr } : State) = s1
    have hq1 : s1.Quiet := by rw [← hs1]; exact hq.of_drop rfl
    have hu1 : s1.unread = pathBits ws ++ rest := by
      rw [← hs1]
      have : s.inBits.drop (s.inPos + w.2.length) = s.unread.drop w.2.length := by
        simp [State.unread]
      refine this.trans ?_
      rw [hu, List.drop_left]
    rw [putLiteral, wr_ok hq1.failsNext (by omega) (by omega), Res.bind_ok]
    have ht1 : treeAt (s1.putBits 8 w.1.toNat).node f (s1.putBits 8 w.1.toNat).root.toNat =
        some (.node l r) := by rw [← hs1]; exact ht
    obtain ⟨tr2, e2⟩ := ih (s := s1.putBits 8 w.1.toNat) (hq1.putBits 8 w.1.toNat) ht1
      (fun x hx => hw x (List.mem_cons_of_mem _ hx)) (by rw [State.unread_putBits, hu1])
    refine ⟨tr2, ?_⟩
    rw [e2, ← hs1]
    have h1 : w.2.length + 1 + ((pathBits ws).length + ws.length) =
      (pathBits ws).length + w.2.length + (ws.length + 1) := by omega
    have h2 : s.inPos + w.2.length + (pathBits ws).length =
      s.inPos + ((pathBits ws).length + w.2.length) := by omega
    simp [State.putBits, State.logCall, ← List.drop_one, h1, h2]

/-! ## Trees that R262 describes -/

/-- The indexes a walk visits and the tree it finds. -/
theorem visits_treeAt {node : Vector Node 513} {f i : Nat} {l : List Nat}
    (h : visits node f i = some l) :
    ∃ t, treeAt node f i = some t ∧ l.length = 2 * leafCount t - 1 ∧
      ((∀ j ∈ l, ∀ n, node[j]? = some n → n.leaf = true → n.value.toNat ≤ 256) →
        labelsFit t = true) := by
  induction f generalizing i l with
  | zero => simp [visits] at h
  | succ f ih =>
    rw [visits] at h
    cases hn : node[i]? with
    | none => simp [hn] at h
    | some n =>
      simp only [hn] at h
      cases hl : n.leaf with
      | true =>
        simp only [hl, if_true, Option.some.injEq] at h
        subst h
        exact ⟨_, treeAt_leaf hn hl, rfl, fun hv => by
          simpa [labelsFit, Config.sentinel] using hv i (by simp) n hn hl⟩
      | false =>
        simp only [hl] at h
        cases h1 : visits node f n.left.toNat with
        | none => simp [h1] at h
        | some a =>
          cases h2 : visits node f n.right.toNat with
          | none => simp [h1, h2] at h
          | some b =>
            simp [h1, h2] at h
            subst h
            obtain ⟨ta, ea, la, va⟩ := ih h1
            obtain ⟨tb, eb, lb, vb⟩ := ih h2
            have := leafCount_pos ta
            have := leafCount_pos tb
            refine ⟨_, treeAt_node hn hl ea eb, by simp [leafCount]; omega, fun hv => ?_⟩
            simp [labelsFit, va fun j hj => hv j (by simp [hj]), vb fun j hj => hv j (by simp [hj])]

/-- What the tree of a state with `TreeOk` is like (R262, R263). -/
theorem TreeOk.tree {s : State} (h : TreeOk s) :
    ∃ l r, s.tree = some (.node l r) ∧ leafCount (.node l r) ≤ 257 ∧
      s.ncount.toNat = 2 * leafCount (.node l r) - 1 ∧ labelsFit (.node l r) = true := by
  obtain ⟨-, -, h513, -, ⟨n, hn, hl⟩, -, ⟨l, hv, hperm⟩, hlab⟩ := h
  obtain ⟨t, ht, hlen, hfit⟩ := visits_treeAt hv
  have hlen2 := hperm.length_eq
  rw [List.length_range] at hlen2
  have hpos := leafCount_pos t
  have hf : labelsFit t = true := hfit fun j hj => by
    have := (hperm.mem_iff).mp hj
    exact fun n hn hlf => hlab j n (by simpa using this) hn hlf
  obtain ⟨m, hm, ⟨hml, -⟩ | ⟨-, a, b, -, -, rfl⟩⟩ := treeAt_cases (fuel := 513) ht
  · rw [hn] at hm
    cases hm
    rw [hl] at hml
    cases hml
  · exact ⟨a, b, ht, by omega, by omega, hf⟩

/-- A tree stored in pre-order from index 0 is a tree R262 describes. -/
theorem TreeOk.of_preOrder {s : State} {l r : Tree} (h : PreOrder s.node (.node l r) 0)
    (hroot : s.root = 0) (hn : s.ncount.toNat = 2 * leafCount (.node l r) - 1)
    (hc : leafCount (.node l r) ≤ 257) (hl : labelsFit (.node l r) = true) : TreeOk s := by
  have h1 := leafCount_pos l
  have h2 := leafCount_pos r
  have hd := treeDepth_lt (.node l r)
  have hv : s.visited = some (List.range' 0 (2 * leafCount (.node l r) - 1)) := by
    rw [State.visited, hroot]
    exact visits_mono (h.visits (by omega)) (by simp only [walkBound, Config.nodeCap]; omega)
  have key : ∀ (t : Tree) (i : Nat), PreOrder s.node t i → i + (2 * leafCount t - 1) ≤ 513 →
      labelsFit t = true → ∀ j n, i ≤ j → j < i + (2 * leafCount t - 1) → s.node[j]? = some n →
      (n.leaf = false → n.left.toNat < i + (2 * leafCount t - 1) ∧
        n.right.toNat < i + (2 * leafCount t - 1) ∧ n.left ≠ n.right) ∧
      (n.leaf = true → n.value.toNat ≤ 256) := by
    intro t
    induction t with
    | leaf v =>
      intro i hp hb hf j n hij hji hj
      simp only [leafCount] at hji
      obtain rfl : j = i := by omega
      rw [PreOrder] at hp
      rw [hp] at hj
      cases hj
      exact ⟨fun h => by simp [Node.mkLeaf] at h,
        fun _ => by simpa [labelsFit, Config.sentinel, Node.mkLeaf] using hf⟩
    | node a b iha ihb =>
      intro i hp hb hf j n hij hji hj
      have ha := leafCount_pos a
      have hb' := leafCount_pos b
      simp only [leafCount] at hb hji ⊢
      simp only [labelsFit, Bool.and_eq_true] at hf
      obtain ⟨p0, p1, p2⟩ := hp
      by_cases e0 : j = i
      · subst e0
        rw [p0] at hj
        cases hj
        refine ⟨fun _ => ?_, fun h => by simp [Node.mkNode] at h⟩
        have e1 : (Node.mkNode (j + 1) (j + 1 + (2 * leafCount a - 1)) 0).left.toNat = j + 1 := by
          simp [Node.mkNode]; omega
        have e2 : (Node.mkNode (j + 1) (j + 1 + (2 * leafCount a - 1)) 0).right.toNat =
          j + 1 + (2 * leafCount a - 1) := by simp [Node.mkNode]; omega
        refine ⟨by omega, by omega, fun h => ?_⟩
        have := congrArg BitVec.toNat h
        omega
      · by_cases e1 : j < i + 1 + (2 * leafCount a - 1)
        · obtain ⟨q1, q2⟩ := iha (i + 1) p1 (by omega) hf.1 j n (by omega) (by omega) hj
          exact ⟨fun h => ⟨by have := (q1 h).1; omega, by have := (q1 h).2.1; omega, (q1 h).2.2⟩, q2⟩
        · obtain ⟨q1, q2⟩ := ihb _ p2 (by omega) hf.2 j n (by omega) (by omega) hj
          exact ⟨fun h => ⟨by have := (q1 h).1; omega, by have := (q1 h).2.1; omega, (q1 h).2.2⟩, q2⟩
  have key0 := key _ 0 h (by omega) hl
  simp only [Nat.zero_add] at key0
  have hlc : leafCount (.node l r) = leafCount l + leafCount r := rfl
  have hr0 : s.root.toNat = 0 := by rw [hroot]; rfl
  refine ⟨by omega, by omega, by omega, by omega, ⟨_, by rw [hr0]; exact h.1, rfl⟩, ?_, ?_, ?_⟩
  · intro i n hi hn' hlf
    rw [hn] at hi ⊢
    exact (key0 i n (by omega) hi hn').1 hlf
  · exact ⟨_, hv, by rw [hn, List.range_eq_range']⟩
  · intro i n hi hn' hlf
    rw [hn] at hi
    exact (key0 i n (by omega) hi hn').2 hlf

end Sys2Proof.Machine
end

