-- ==== Sys2Proof/Laws/Build.lean ====
section
/-! SUPPORT. BUILD (spec/41_tree_builder.md R120 to R129): extraction takes the least candidate, a merge
keeps the live set a forest over the node store, and the merge loop follows the queue of DOC0 §4.2. -/

namespace Sys2Proof.Machine

/-! ## BUILD -/

theorem Cand.before_iff (a b : Cand) :
    a.before b = true ↔ a.weight.toNat < b.weight.toNat ∨
      (a.weight.toNat = b.weight.toNat ∧ a.idx < b.idx) := by
  simp [Cand.before, BitVec.lt_def, ← BitVec.toNat_inj]

theorem Cand.not_before_iff (a b : Cand) :
    a.before b = false ↔ b.weight.toNat < a.weight.toNat ∨
      (b.weight.toNat = a.weight.toNat ∧ b.idx ≤ a.idx) := by
  rw [← Bool.not_eq_true, Cand.before_iff]
  omega

theorem Cand.eq_of_keys {a b : Cand} (hw : a.weight.toNat = b.weight.toNat) (hi : a.idx = b.idx) :
    a = b := by
  cases a
  cases b
  simp only at hw hi
  rw [hi, BitVec.eq_of_toNat_eq hw]

theorem leastOf_mem (m : Cand) (cs : List Cand) : leastOf m cs ∈ m :: cs := by
  induction cs generalizing m with
  | nil => simp [leastOf]
  | cons c cs ih =>
    rw [leastOf]
    split
    · exact List.mem_cons_of_mem _ (ih c)
    · rcases List.mem_cons.mp (ih m) with h | h
      · rw [h]; exact List.mem_cons_self
      · exact List.mem_cons_of_mem _ (List.mem_cons_of_mem _ h)

/-- No candidate comes before the least one (R122). -/
theorem leastOf_le (m : Cand) (cs : List Cand) :
    ∀ c ∈ m :: cs, c.before (leastOf m cs) = false := by
  induction cs generalizing m with
  | nil => simp [leastOf, Cand.not_before_iff]
  | cons c cs ih =>
    intro x hx
    rw [leastOf]
    by_cases h : c.before m = true
    · rw [if_pos h]
      rcases List.mem_cons.mp hx with rfl | hx
      · have := ih c c (by simp)
        rw [Cand.not_before_iff] at this ⊢
        rw [Cand.before_iff] at h
        omega
      · exact ih c x hx
    · rw [if_neg h]
      have hm := ih m m (by simp)
      rcases List.mem_cons.mp hx with rfl | hx
      · exact hm
      · rcases List.mem_cons.mp hx with rfl | hx
        · rw [Cand.before_iff] at h
          rw [Cand.not_before_iff] at hm ⊢
          omega
        · exact ih m x (by simp [hx])

/-- The least candidate is the first of any sorted arrangement (R122). -/
theorem xmin_eq {live : List Cand} {a : Cand} {sl : List Cand} (hp : (a :: sl).Perm live)
    (hs : ∀ c ∈ sl, a.before c = true) : xmin live = some (a, live.erase a) := by
  cases live with
  | nil => simp at hp
  | cons c cs =>
    have h : leastOf c cs = a := by
      have h1 := leastOf_le c cs a (hp.subset (by simp))
      have h2 := hp.symm.subset (leastOf_mem c cs)
      rcases List.mem_cons.mp h2 with h2 | h2
      · exact h2
      · have h3 := hs _ h2
        rw [Cand.before_iff] at h3
        rw [Cand.not_before_iff] at h1
        omega
    rw [xmin, h]

/-- A live node with the tree it stands for and the indexes of that tree in pre-order. -/
structure Entry where
  cand : Cand
  tree : Tree
  vis : List Nat

/-- The entry of the merged node, at index `nc`. -/
def Entry.merge (x y : Entry) (nc : Nat) : Entry :=
  ⟨⟨x.cand.weight + y.cand.weight, nc⟩, .node x.tree y.tree, nc :: (x.vis ++ y.vis)⟩

/-- The sum of the counts of some Symbols. -/
def weightSum (ps : List (Count × Nat)) : Nat := (ps.map fun p => p.1.toNat).sum

/-- What BUILD's node store holds (R121, R123): the leaves of `ps` first, then internal nodes whose
children are older, whose weight is the children's sum, and whose left child was extracted
first. -/
structure Built (ps : List (Count × Nat)) (node : Vector Node 513) (nc : Nat) : Prop where
  leaves : ∀ (k : Nat) (p : Count × Nat), ps[k]? = some p →
    node[k]? = some (Node.mkLeaf (BitVec.ofNat 9 p.2) p.1)
  inner : ∀ k, ps.length ≤ k → k < nc → ∃ a b l r,
    node[k]? = some (Node.mkNode a b (l.weight + r.weight)) ∧ a < k ∧ b < k ∧ a ≠ b ∧
    node[a]? = some l ∧ node[b]? = some r ∧
    (l.weight.toNat < r.weight.toNat ∨ (l.weight.toNat = r.weight.toNat ∧ a < b)) ∧
    (weightSum ps < 2 ^ 32 → (l.weight + r.weight).toNat = l.weight.toNat + r.weight.toNat)

/-- The live set as a forest over the node store. -/
structure Forest (ps : List (Count × Nat)) (node : Vector Node 513) (nc : Nat)
    (es : List Entry) : Prop where
  tree : ∀ e ∈ es, treeAt node (e.cand.idx + 1) e.cand.idx = some e.tree
  vis : ∀ e ∈ es, visits node (e.cand.idx + 1) e.cand.idx = some e.vis
  weight : ∀ e ∈ es, ∃ n, node[e.cand.idx]? = some n ∧ n.weight = e.cand.weight
  lt : ∀ e ∈ es, e.cand.idx < nc
  ascending : (es.map (·.cand.idx)).Pairwise (· < ·)
  all : (es.flatMap (·.vis)).Perm (List.range nc)
  labels : (es.flatMap fun e => (leafPaths e.tree).map (·.1)).Perm
    (ps.map fun p => BitVec.ofNat 9 p.2)
  count : nc + es.length = 2 * ps.length
  sum : weightSum ps < 2 ^ 32 → (es.map (·.cand.weight.toNat)).sum = weightSum ps

/-- A tree whose nodes are all older than `nc` is not changed by a write at `nc`. -/
theorem treeAt_write {ps : List (Count × Nat)} {node : Vector Node 513} {nc i f : Nat} {n : Node}
    {h : nc < 513} (hb : Built ps node nc) (hi : i < nc) :
    treeAt (node.set nc n h) f i = treeAt node f i := by
  induction f generalizing i with
  | zero => rfl
  | succ f ih =>
    have hn : (node.set nc n h)[i]? = node[i]? := vector_set_get?_ne (by omega)
    rw [treeAt, treeAt, hn]
    cases hm : node[i]? with
    | none => rfl
    | some m =>
      by_cases hl : m.leaf = true
      · simp [hl]
      · by_cases hk : i < ps.length
        · rw [hb.leaves i ps[i] (by simp [hk])] at hm
          cases hm
          simp [Node.mkLeaf] at hl
        · obtain ⟨a, b, l, r, h1, h2, h3, -⟩ := hb.inner i (by omega) hi
          rw [h1] at hm
          cases hm
          have e1 : (Node.mkNode a b (l.weight + r.weight)).left.toNat = a := by
            simp [Node.mkNode]; omega
          have e2 : (Node.mkNode a b (l.weight + r.weight)).right.toNat = b := by
            simp [Node.mkNode]; omega
          simp only [e1, e2, ih (show a < nc by omega), ih (show b < nc by omega)]

theorem visits_write {ps : List (Count × Nat)} {node : Vector Node 513} {nc i f : Nat} {n : Node}
    {h : nc < 513} (hb : Built ps node nc) (hi : i < nc) :
    visits (node.set nc n h) f i = visits node f i := by
  induction f generalizing i with
  | zero => rfl
  | succ f ih =>
    have hn : (node.set nc n h)[i]? = node[i]? := vector_set_get?_ne (by omega)
    rw [visits, visits, hn]
    cases hm : node[i]? with
    | none => rfl
    | some m =>
      by_cases hl : m.leaf = true
      · simp [hl]
      · by_cases hk : i < ps.length
        · rw [hb.leaves i ps[i] (by simp [hk])] at hm
          cases hm
          simp [Node.mkLeaf] at hl
        · obtain ⟨a, b, l, r, h1, h2, h3, -⟩ := hb.inner i (by omega) hi
          rw [h1] at hm
          cases hm
          have e1 : (Node.mkNode a b (l.weight + r.weight)).left.toNat = a := by
            simp [Node.mkNode]; omega
          have e2 : (Node.mkNode a b (l.weight + r.weight)).right.toNat = b := by
            simp [Node.mkNode]; omega
          simp only [e1, e2, ih (show a < nc by omega), ih (show b < nc by omega)]

/-- One merge: the two least entries become one, behind all others (R123). -/
theorem Forest.merge {ps : List (Count × Nat)} {node : Vector Node 513} {nc : Nat}
    {es rest : List Entry} {x y : Entry} (h : nc < 513) (hb : Built ps node nc)
    (hps : ps.length ≤ nc) (hf : Forest ps node nc es) (hp : (x :: y :: rest).Perm es)
    (hasc : (rest.map (·.cand.idx)).Pairwise (· < ·)) (hxy : x.cand.before y.cand = true) :
    let w := x.cand.weight + y.cand.weight
    let node' := node.set nc (Node.mkNode x.cand.idx y.cand.idx w) h
    let z := x.merge y nc
    Built ps node' (nc + 1) ∧ Forest ps node' (nc + 1) (rest ++ [z]) := by
  intro w node' z
  have hx := hp.subset (show x ∈ x :: y :: rest by simp)
  have hy := hp.subset (show y ∈ x :: y :: rest by simp)
  have hr : ∀ e ∈ rest, e ∈ es := fun e he => hp.subset (by simp [he])
  have hxl := hf.lt x hx
  have hyl := hf.lt y hy
  obtain ⟨nx, hnx, hwx⟩ := hf.weight x hx
  obtain ⟨ny, hny, hwy⟩ := hf.weight y hy
  rw [Cand.before_iff] at hxy
  have hold : ∀ i, i < nc → node'[i]? = node[i]? := fun i hi => vector_set_get?_ne (by omega)
  have hnew : node'[nc]? = some (Node.mkNode x.cand.idx y.cand.idx w) := vector_set_get?
  have e1 : (Node.mkNode x.cand.idx y.cand.idx w).left.toNat = x.cand.idx := by
    simp [Node.mkNode]; omega
  have e2 : (Node.mkNode x.cand.idx y.cand.idx w).right.toNat = y.cand.idx := by
    simp [Node.mkNode]; omega
  have hlen := hp.length_eq
  simp only [List.length_cons] at hlen
  have hne : x.cand.idx ≠ y.cand.idx := by
    have h1 := (List.Perm.map (fun e : Entry => e.cand.idx) hp).symm.nodup
      (hf.ascending.imp fun h => by omega)
    simp at h1
    exact h1.1.1
  have hz : z.cand.idx = nc := rfl
  have hsum : weightSum ps < 2 ^ 32 → w.toNat = x.cand.weight.toNat + y.cand.weight.toNat ∧
      w.toNat + (rest.map (·.cand.weight.toNat)).sum = weightSum ps := by
    intro hlt
    have h1 := (hp.map (fun e : Entry => e.cand.weight.toNat)).sum_eq
    rw [hf.sum hlt] at h1
    simp only [List.map_cons, List.sum_cons] at h1
    have h2 : w.toNat = x.cand.weight.toNat + y.cand.weight.toNat := by
      simp only [w, BitVec.toNat_add]
      rw [Nat.mod_eq_of_lt (by omega)]
    exact ⟨h2, by omega⟩
  refine ⟨⟨?_, ?_⟩, ⟨?_, ?_, ?_, ?_, ?_, ?_, ?_, ?_, ?_⟩⟩
  · intro k p hk
    have : k < ps.length := by
      by_contra hc
      rw [List.getElem?_eq_none (by omega)] at hk
      cases hk
    rw [hold k (by omega)]
    exact hb.leaves k p hk
  · intro k hk hk'
    by_cases hkn : k = nc
    · subst hkn
      refine ⟨_, _, nx, ny, ?_, hxl, hyl, hne, ?_, ?_, ?_, ?_⟩
      · rw [hwx, hwy]; exact hnew
      · rw [hold _ hxl]; exact hnx
      · rw [hold _ hyl]; exact hny
      · rw [hwx, hwy]; exact hxy
      · rw [hwx, hwy]; exact fun hlt => (hsum hlt).1
    · obtain ⟨a, b, l, r, h1, h2, h3, h4, h5, h6, h7⟩ := hb.inner k hk (by omega)
      exact ⟨a, b, l, r, by rw [hold k (by omega)]; exact h1, h2, h3, h4,
        by rw [hold a (by omega)]; exact h5, by rw [hold b (by omega)]; exact h6, h7⟩
  · intro e he
    rw [List.mem_append, List.mem_singleton] at he
    rcases he with he | rfl
    · rw [treeAt_write hb (hf.lt e (hr e he))]
      exact hf.tree e (hr e he)
    · refine treeAt_node hnew rfl ?_ ?_
      · rw [e1, treeAt_write hb hxl]
        exact treeAt_mono (hf.tree x hx) (by omega)
      · rw [e2, treeAt_write hb hyl]
        exact treeAt_mono (hf.tree y hy) (by omega)
  · intro e he
    rw [List.mem_append, List.mem_singleton] at he
    rcases he with he | rfl
    · rw [visits_write hb (hf.lt e (hr e he))]
      exact hf.vis e (hr e he)
    · refine visits_node hnew rfl ?_ ?_
      · rw [e1, visits_write hb hxl]
        exact visits_mono (hf.vis x hx) (by omega)
      · rw [e2, visits_write hb hyl]
        exact visits_mono (hf.vis y hy) (by omega)
  · intro e he
    rw [List.mem_append, List.mem_singleton] at he
    rcases he with he | rfl
    · rw [hold _ (hf.lt e (hr e he))]
      exact hf.weight e (hr e he)
    · exact ⟨_, hnew, rfl⟩
  · intro e he
    rw [List.mem_append, List.mem_singleton] at he
    rcases he with he | rfl
    · have := hf.lt e (hr e he)
      omega
    · exact Nat.lt_succ_self nc
  · rw [List.map_append, List.pairwise_append]
    refine ⟨hasc, by simp, ?_⟩
    intro a ha b hb'
    simp only [List.map_cons, List.map_nil, List.mem_singleton] at hb'
    rw [List.mem_map] at ha
    obtain ⟨e, he, rfl⟩ := ha
    rw [hb']
    exact hf.lt e (hr e he)
  · have h1 : (x.vis ++ (y.vis ++ rest.flatMap (·.vis))).Perm (List.range nc) := by
      have := (hp.flatMap_right (fun e : Entry => e.vis)).trans hf.all
      simpa using this
    rw [List.range_succ, List.flatMap_append]
    simp only [List.flatMap_cons, List.flatMap_nil, List.append_nil]
    refine List.Perm.trans ?_ (h1.append_right [nc])
    refine List.perm_append_comm.trans ?_
    refine List.Perm.trans ?_ (List.perm_append_comm (l₁ := [nc]))
    simp [z, Entry.merge]
  · have h1 := (hp.flatMap_right (fun e : Entry => (leafPaths e.tree).map (·.1))).trans hf.labels
    refine List.Perm.trans ?_ h1
    rw [List.flatMap_append]
    simp only [List.flatMap_cons, List.flatMap_nil, List.append_nil]
    refine List.perm_append_comm.trans ?_
    simp [z, Entry.merge, leafPaths, Function.comp_def]
  · have := hf.count
    simp only [List.length_append, List.length_singleton]
    omega
  · intro hlt
    have := (hsum hlt).2
    simp [z, Entry.merge]
    omega

/-- Taking an entry out of the live set. -/
theorem erase_entry {es : List Entry} {x : Entry} (hx : x ∈ es)
    (hasc : (es.map (·.cand.idx)).Pairwise (· < ·)) :
    ∃ es', (es.map (·.cand)).erase x.cand = es'.map (·.cand) ∧ (x :: es').Perm es ∧
      es'.Sublist es := by
  have hnd : (es.map (·.cand.idx)).Nodup := hasc.imp fun h => by omega
  obtain ⟨a, l1, l2, -, ha, hl, he⟩ := List.exists_of_eraseP (p := fun e : Entry => e.cand == x.cand)
    hx (by simp)
  have hax : a = x := by
    apply List.inj_on_of_nodup_map hnd (by rw [hl]; simp) hx
    rw [eq_of_beq ha]
  subst hax
  refine ⟨l1 ++ l2, ?_, ?_, ?_⟩
  · rw [List.erase_eq_eraseP', List.eraseP_map]
    exact congrArg _ he
  · rw [hl]; exact List.perm_middle.symm
  · rw [hl]; exact List.Sublist.append (List.Sublist.refl _) (List.sublist_cons_self _ _)

/-- The weight and tree of an entry: its place in the queue of DOC0 §4.2. -/
def Entry.queued (e : Entry) : Count × Tree := (e.cand.weight, e.tree)

/-- Entries in the order of extraction (R122). -/
def Sorted (sl : List Entry) : Prop := sl.Pairwise fun a b => a.cand.before b.cand = true

/-- A new entry goes behind all entries of its weight, as the youngest of them (R122). -/
theorem enqueue_sorted {sl : List Entry} {z : Entry} (hs : Sorted sl)
    (hz : ∀ e ∈ sl, e.cand.idx < z.cand.idx) :
    ∃ sl', Sorted sl' ∧ sl'.Perm (z :: sl) ∧
      enqueue z.cand.weight z.tree (sl.map Entry.queued) = sl'.map Entry.queued := by
  induction sl with
  | nil => exact ⟨[z], by simp [Sorted], List.Perm.refl _, rfl⟩
  | cons e sl ih =>
    rw [Sorted, List.pairwise_cons] at hs
    rw [List.map_cons, enqueue]
    by_cases h : z.cand.weight < e.queued.1
    · rw [if_pos h]
      refine ⟨z :: e :: sl, ?_, List.Perm.refl _, rfl⟩
      rw [Sorted, List.pairwise_cons, List.pairwise_cons]
      have h' : z.cand.weight.toNat < e.cand.weight.toNat := h
      refine ⟨?_, hs⟩
      intro b hb
      rw [List.mem_cons] at hb
      rw [Cand.before_iff]
      rcases hb with rfl | hb
      · exact .inl h'
      · have := hs.1 b hb
        rw [Cand.before_iff] at this
        omega
    · rw [if_neg h]
      obtain ⟨sl', hs', hp, he⟩ := ih hs.2 fun x hx => hz x (by simp [hx])
      refine ⟨e :: sl', ?_, ?_, by rw [he, List.map_cons]⟩
      · rw [Sorted, List.pairwise_cons]
        refine ⟨fun b hb => ?_, hs'⟩
        rcases List.mem_cons.mp (hp.subset hb) with rfl | hb
        · have h' : ¬ b.cand.weight.toNat < e.cand.weight.toNat := h
          have := hz e (by simp)
          rw [Cand.before_iff]
          omega
        · exact hs.1 b hb
      · exact (List.Perm.cons e hp).trans (List.Perm.swap z e sl)

/-- The merge loop (R123, R124): it ends with one live node, whose tree is that of the queue. -/
theorem mergeLoop_ok {ps : List (Count × Nat)} {fuel : Nat} {s : State} {es sl : List Entry}
    (hb : Built ps s.node s.ncount.toNat) (hps : ps.length ≤ s.ncount.toNat)
    (hps' : ps.length ≤ 257) (hf : Forest ps s.node s.ncount.toNat es) (hp : sl.Perm es)
    (hs : Sorted sl) (hfuel : es.length ≤ fuel) (hne : es ≠ []) :
    ∃ node nc e, mergeLoop fuel (es.map (·.cand)) s =
        .ok e.cand.idx { s with node := node, ncount := nc } ∧
      Built ps node nc.toNat ∧ Forest ps node nc.toNat [e] ∧
      greedyMerge fuel (sl.map Entry.queued) = some e.tree := by
  induction fuel generalizing s es sl with
  | zero =>
    have := List.length_pos_of_ne_nil hne
    omega
  | succ fuel ih =>
    match sl, hs with
    | [], _ => exact absurd (List.nil_perm.mp hp) hne
    | [x], _ =>
      obtain rfl := List.singleton_perm.mp hp
      refine ⟨s.node, s.ncount, x, ?_, hb, hf, rfl⟩
      rw [mergeLoop]
      simp [xmin, leastOf]
    | x :: y :: rest, hs =>
      rw [Sorted, List.pairwise_cons, List.pairwise_cons] at hs
      have hx := hp.subset (show x ∈ x :: y :: rest by simp)
      obtain ⟨es1, he1, hp1, hsub1⟩ := erase_entry hx hf.ascending
      have hpy : (y :: rest).Perm es1 := (hp.trans hp1.symm).cons_inv
      have hasc1 := hf.ascending.sublist (hsub1.map _)
      have hy := hpy.subset (show y ∈ y :: rest by simp)
      obtain ⟨es2, he2, hp2, hsub2⟩ := erase_entry hy hasc1
      have hpr : rest.Perm es2 := (hpy.trans hp2.symm).cons_inv
      have hasc2 := hasc1.sublist (hsub2.map _)
      have hx1 : xmin (es.map (·.cand)) = some (x.cand, es1.map (·.cand)) := by
        rw [← he1]
        refine xmin_eq (sl := (y :: rest).map (·.cand)) (by
          have := hp.map (fun e : Entry => e.cand)
          rwa [List.map_cons] at this) ?_
        intro c hc
        obtain ⟨e, he, rfl⟩ := List.mem_map.mp hc
        exact hs.1 e he
      have hx2 : xmin (es1.map (·.cand)) = some (y.cand, es2.map (·.cand)) := by
        rw [← he2]
        refine xmin_eq (sl := rest.map (·.cand)) (by
          have := hpy.map (fun e : Entry => e.cand)
          rwa [List.map_cons] at this) ?_
        intro c hc
        obtain ⟨e, he, rfl⟩ := List.mem_map.mp hc
        exact hs.2.1 e he
      have hlen := hp.length_eq
      have hcount := hf.count
      simp only [List.length_cons] at hlen
      have hnc : s.ncount.toNat < 513 := by omega
      have hp' : (x :: y :: es2).Perm es := ((hpr.symm.cons y).cons x).trans hp
      obtain ⟨hb', hf'⟩ := hf.merge hnc hb hps hp' hasc2 (hs.1 y (by simp))
      have hinc : (s.ncount + 1).toNat = s.ncount.toNat + 1 := by
        rw [BitVec.toNat_add]; simp; omega
      rw [← hinc] at hb' hf'
      obtain ⟨sl', hs', hpz, hq⟩ := enqueue_sorted (sl := rest)
        (z := x.merge y s.ncount.toNat) hs.2.2
        (fun e he => hf.lt e (hp.subset (by simp [he])))
      obtain ⟨node, nc, e, h1, h2, h3, h4⟩ := ih
        (s := (s.takeIndex.setNode s.ncount.toNat
          (Node.mkNode x.cand.idx y.cand.idx (x.cand.weight + y.cand.weight)) hnc))
        (es := es2 ++ [x.merge y s.ncount.toNat]) (sl := sl') hb'
        (by simp only [State.setNode_ncount, State.takeIndex_ncount]; omega) hf'
        (hpz.trans ((hpr.cons _).trans (List.perm_append_comm (l₁ := [_])))) hs'
        (by have := hpr.length_eq; simp; omega) (by simp)
      refine ⟨node, nc, e, ?_, h2, h3, ?_⟩
      · rw [mergeLoop, hx1]
        cases hes1 : es1 with
        | nil => rw [hes1] at hy; cases hy
        | cons c cs =>
          rw [hes1] at hx2
          simp only [List.map_cons] at hx2 ⊢
          rw [hx2]
          simp only []
          rw [pushNode_lt _ hnc, Res.bind_ok]
          rw [List.map_append, List.map_cons, List.map_nil, show (x.merge y s.ncount.toNat).cand =
            ⟨x.cand.weight + y.cand.weight, s.ncount.toNat⟩ from rfl] at h1
          rw [h1]
          simp [State.setNode, State.takeIndex]
      · rw [List.map_cons, List.map_cons, greedyMerge]
        exact (congrArg _ hq).trans h4

/-- The entries of the leaves of `ps`, numbered from `k`. -/
def leafEntries (k : Nat) (ps : List (Count × Nat)) : List Entry :=
  (ps.zipIdx k).map fun p => ⟨⟨p.1.1, p.2⟩, .leaf (BitVec.ofNat 9 p.1.2), [p.2]⟩

theorem leafEntries_cons (k : Nat) (p : Count × Nat) (ps : List (Count × Nat)) :
    leafEntries k (p :: ps) =
      ⟨⟨p.1, k⟩, .leaf (BitVec.ofNat 9 p.2), [k]⟩ :: leafEntries (k + 1) ps := by
  simp [leafEntries]

/-- Step 1 of BUILD (R121): a leaf for every Symbol with a positive count. -/
theorem addLeaves_ok {l : List (Count × Nat)} {s : State}
    (h : s.ncount.toNat + (l.filter fun p => decide (0 < p.1)).length ≤ 513) :
    ∃ node nc, addLeaves l s =
        .ok ((leafEntries s.ncount.toNat (l.filter fun p => decide (0 < p.1))).map (·.cand))
          { s with node := node, ncount := nc } ∧
      nc.toNat = s.ncount.toNat + (l.filter fun p => decide (0 < p.1)).length ∧
      (∀ (k : Nat) (p : Count × Nat), (l.filter fun p => decide (0 < p.1))[k]? = some p →
        node[s.ncount.toNat + k]? = some (Node.mkLeaf (BitVec.ofNat 9 p.2) p.1)) ∧
      ∀ j, j < s.ncount.toNat → node[j]? = s.node[j]? := by
  induction l generalizing s with
  | nil => exact ⟨s.node, s.ncount, rfl, rfl, by simp, fun _ _ => rfl⟩
  | cons p l ih =>
    obtain ⟨w, x⟩ := p
    rw [addLeaves]
    by_cases hw : 0 < w
    · have hfil : ((w, x) :: l).filter (fun p => decide (0 < p.1)) =
          (w, x) :: l.filter (fun p => decide (0 < p.1)) := by
        rw [List.filter_cons, if_pos (by simpa using hw)]
      rw [hfil, List.length_cons] at h
      have hinc : (s.ncount + 1).toNat = s.ncount.toNat + 1 := by
        rw [BitVec.toNat_add]; simp; omega
      rw [if_pos hw, pushNode_lt _ (by omega), Res.bind_ok, hfil]
      obtain ⟨node, nc, e1, e2, e3, e4⟩ := ih (s := s.takeIndex.setNode s.ncount.toNat
        (Node.mkLeaf (BitVec.ofNat 9 x) w) (by omega))
        (by rw [State.setNode_ncount, State.takeIndex_ncount, hinc]; omega)
      rw [State.setNode_ncount, State.takeIndex_ncount, hinc] at e1 e2 e3 e4
      refine ⟨node, nc, ?_, by rw [e2, List.length_cons]; omega, ?_, ?_⟩
      · rw [e1, Res.bind_ok, leafEntries_cons]
        simp [State.setNode, State.takeIndex]
      · intro k p hk
        cases k with
        | zero =>
          simp only [List.getElem?_cons_zero, Option.some.injEq] at hk
          subst hk
          rw [Nat.add_zero, e4 _ (by omega)]
          exact vector_set_get? (h := by omega)
        | succ k =>
          rw [List.getElem?_cons_succ] at hk
          rw [show s.ncount.toNat + (k + 1) = s.ncount.toNat + 1 + k by omega]
          exact e3 k p hk
      · intro j hj
        rw [e4 j (by omega)]
        exact vector_set_get?_ne (h := by omega) (by omega)
    · have hfil : ((w, x) :: l).filter (fun p => decide (0 < p.1)) =
          l.filter (fun p => decide (0 < p.1)) := by
        rw [List.filter_cons, if_neg (by simpa using hw)]
      rw [if_neg hw]
      rw [hfil] at h ⊢
      exact ih h

theorem leafEntries_mem {k : Nat} {ps : List (Count × Nat)} {e : Entry}
    (h : e ∈ leafEntries k ps) : ∃ j p, ps[j]? = some p ∧
      e = ⟨⟨p.1, k + j⟩, .leaf (BitVec.ofNat 9 p.2), [k + j]⟩ := by
  rw [leafEntries, List.mem_map] at h
  obtain ⟨⟨p, i⟩, hm, rfl⟩ := h
  rw [List.mem_zipIdx_iff_le_and_getElem?_sub] at hm
  exact ⟨i - k, p, hm.2, by simp [show k + (i - k) = i by have := hm.1; simp at this; omega]⟩

/-- The leaves are a forest. -/
theorem Forest.leaves {ps : List (Count × Nat)} {node : Vector Node 513}
    (h : ∀ (k : Nat) (p : Count × Nat), ps[k]? = some p →
      node[k]? = some (Node.mkLeaf (BitVec.ofNat 9 p.2) p.1)) :
    Built ps node ps.length ∧ Forest ps node ps.length (leafEntries 0 ps) := by
  have hidx : (leafEntries 0 ps).map (·.cand.idx) = List.range ps.length := by
    apply List.ext_getElem
    · simp [leafEntries]
    · intro i h1 h2
      simp [leafEntries]
  refine ⟨⟨h, fun k h1 h2 => absurd h2 (by omega)⟩, ⟨?_, ?_, ?_, ?_, ?_, ?_, ?_, ?_, ?_⟩⟩
  · intro e he
    obtain ⟨j, p, hj, rfl⟩ := leafEntries_mem he
    simp only [Nat.zero_add]
    exact treeAt_leaf (h j p hj) rfl
  · intro e he
    obtain ⟨j, p, hj, rfl⟩ := leafEntries_mem he
    simp only [Nat.zero_add]
    exact visits_leaf (h j p hj) rfl
  · intro e he
    obtain ⟨j, p, hj, rfl⟩ := leafEntries_mem he
    simp only [Nat.zero_add]
    exact ⟨_, h j p hj, rfl⟩
  · intro e he
    have := List.mem_map_of_mem (f := fun e : Entry => e.cand.idx) he
    rw [hidx] at this
    simpa using this
  · rw [hidx]
    exact List.pairwise_lt_range
  · rw [← hidx]
    have : ∀ k ps, (leafEntries k ps).flatMap (·.vis) = (leafEntries k ps).map (·.cand.idx) := by
      intro k ps
      induction ps generalizing k with
      | nil => rfl
      | cons p ps ih => rw [leafEntries_cons]; simp [ih]
    rw [this]
  · have : ∀ k ps, (leafEntries k ps).flatMap (fun e => (leafPaths e.tree).map (·.1)) =
        ps.map fun p => BitVec.ofNat 9 p.2 := by
      intro k ps
      induction ps generalizing k with
      | nil => rfl
      | cons p ps ih => rw [leafEntries_cons]; simp [ih, leafPaths]
    rw [this]
  · simp [leafEntries]
    omega
  · intro _
    have : ∀ k ps, (leafEntries k ps).map (·.cand.weight.toNat) =
        ps.map fun p => p.1.toNat := by
      intro k ps
      induction ps generalizing k with
      | nil => rfl
      | cons p ps ih => rw [leafEntries_cons]; simp [ih]
    rw [this, weightSum]

/-- The queue the leaves start in. -/
theorem leafQueue (k : Nat) (ps : List (Count × Nat)) (acc : List Entry) (hs : Sorted acc)
    (hlt : ∀ e ∈ acc, e.cand.idx < k) :
    ∃ sl, Sorted sl ∧ sl.Perm (acc ++ leafEntries k ps) ∧
      ps.foldl (fun q x => enqueue x.1 (.leaf (BitVec.ofNat 9 x.2)) q) (acc.map Entry.queued) =
        sl.map Entry.queued := by
  induction ps generalizing k acc with
  | nil => exact ⟨acc, hs, by simp [leafEntries], rfl⟩
  | cons p ps ih =>
    obtain ⟨acc', hs', hp, he⟩ := enqueue_sorted (z := ⟨⟨p.1, k⟩, .leaf (BitVec.ofNat 9 p.2), [k]⟩)
      hs hlt
    obtain ⟨sl, h1, h2, h3⟩ := ih (k + 1) acc' hs' (fun e he => by
      rcases List.mem_cons.mp (hp.subset he) with rfl | h
      · exact Nat.lt_succ_self k
      · have := hlt e h
        omega)
    refine ⟨sl, h1, h2.trans ?_, ?_⟩
    · rw [leafEntries_cons]
      exact (hp.append_right _).trans (List.perm_middle.symm)
    · rw [List.foldl_cons]
      simp only at he
      rw [he]
      exact h3

/-- What BUILD leaves: the store, the root's index, the tree. -/
structure BuildResult (freq : Vector Count 257) (node : Vector Node 513) (nc root : Index)
    (t : Tree) : Prop where
  leaves : ∀ (k : Nat) (p : Count × Nat), (positives freq)[k]? = some p →
    node[k]? = some (Node.mkLeaf (BitVec.ofNat 9 p.2) p.1)
  tree : treeAt node (root.toNat + 1) root.toNat = some t
  greedy : greedyTree freq = some t
  vis : ∃ l, visits node (root.toNat + 1) root.toNat = some l ∧ l.Perm (List.range nc.toNat)
  twin : (positives freq).length = 1 → nc = 3 ∧ root = 2 ∧
    ∃ p, positives freq = [p] ∧ node[1]? = some (Node.mkLeaf 256 0) ∧
      node[2]? = some (Node.mkNode 0 1 p.1)
  merged : 2 ≤ (positives freq).length → Built (positives freq) node nc.toNat ∧
    Forest (positives freq) node nc.toNat [⟨⟨(node[root.toNat]?.getD Node.zero).weight, root.toNat⟩,
      t, (visits node (root.toNat + 1) root.toNat).getD []⟩] ∧
    nc.toNat = 2 * (positives freq).length - 1 ∧ root.toNat = 2 * (positives freq).length - 2

theorem positives_length (freq : Vector Count 257) : (positives freq).length ≤ 257 := by
  refine (List.length_filter_le _ _).trans ?_
  simp

theorem positives_mem {freq : Vector Count 257} {p : Count × Nat} (h : p ∈ positives freq) :
    0 < p.1 ∧ p.2 < 257 ∧ freq[p.2]? = some p.1 := by
  rw [positives, List.mem_filter, decide_eq_true_eq] at h
  obtain ⟨h1, h2⟩ := h
  rw [List.mem_zipIdx_iff_getElem?] at h1
  have h3 : freq[p.2]? = some p.1 := by simpa using h1
  exact ⟨h2, (Vector.getElem?_eq_some_iff.mp h3).1, h3⟩

theorem positives_sentinel {freq : Vector Count 257} (h : 0 < freq[256]) :
    (freq[256], 256) ∈ positives freq := by
  rw [positives, List.mem_filter, decide_eq_true_eq]
  refine ⟨?_, h⟩
  rw [List.mem_zipIdx_iff_getElem?]
  simp

/-- BUILD, from its precondition on (R120 to R126). -/
theorem buildBody_ok {s : State} (hv : s.freqValid = true) (h0 : 0 < s.freq[256]) :
    ∃ node nc root t, buildBody s = .ok ()
        { s with node := node, ncount := nc, root := root, treeValid := true, codeValid := false } ∧
      BuildResult s.freq node nc root t := by
  have hpos := positives_sentinel h0
  have hlen := positives_length s.freq
  have hlen1 := List.length_pos_of_mem hpos
  have h00 : (0 : Index).toNat = 0 := rfl
  obtain ⟨node, nc, e1, e2, e3, -⟩ := addLeaves_ok (l := s.freq.toList.zipIdx)
    (s := s.clearTree.noNodes) (by
      have : (s.freq.toList.zipIdx.filter fun p => decide (0 < p.1)).length ≤ 257 := hlen
      rw [State.noNodes_ncount, h00]
      omega)
  have hps : (s.freq.toList.zipIdx.filter fun p => decide (0 < p.1)) = positives s.freq := rfl
  rw [hps] at e1 e2 e3
  simp only [State.noNodes_ncount, h00, Nat.zero_add] at e1 e2 e3
  rw [buildBody, require_true hv, Res.bind_ok, e1, Res.bind_ok]
  obtain ⟨hb, hf⟩ := Forest.leaves e3
  rw [← e2] at hb hf
  generalize hs1 : ({ s.clearTree.noNodes with ncount := nc, node := node } : State) = s1
  have hn1 : s1.node = node := by rw [← hs1]
  have hc1 : s1.ncount = nc := by rw [← hs1]
  cases hpf : positives s.freq with
  | nil => rw [hpf] at hpos; cases hpos
  | cons p ps =>
    cases ps with
    | nil =>
      -- one leaf only: the twin sentinel (R125)
      rw [hpf] at hpos hlen1 e2 e3
      simp only [List.mem_singleton] at hpos
      subst hpos
      simp only [List.length_singleton] at e2
      have hnc : nc = 1 := BitVec.eq_of_toNat_eq e2
      subst hnc
      have hl0 := e3 0 _ (by rfl)
      rw [leafEntries_cons]
      simp only [leafEntries, List.zipIdx_nil, List.map_nil, List.map_cons]
      rw [joinLive, twinTree, pushNode_lt _ (by rw [hc1]; decide), Res.bind_ok,
        pushNode_lt _ (by simp only [State.setNode_ncount, State.takeIndex_ncount, hc1]; decide),
        Res.bind_ok]
      have hleaf : BitVec.ofNat 9 256 = (256 : BitVec 9) := rfl
      refine ⟨(node.set 1 (Node.mkLeaf 256 0)).set 2 (Node.mkNode 0 1 s.freq[256]), 3, 2,
        .node (.leaf 256) (.leaf 256), ?_, ?_⟩
      · simp [← hs1, State.setTreeValid, State.setNode, State.takeIndex, State.clearTree, State.noNodes,
          Config.sentinel]
      · have n0 : ((node.set 1 (Node.mkLeaf 256 0)).set 2 (Node.mkNode 0 1 s.freq[256]))[0]? =
            some (Node.mkLeaf 256 s.freq[256]) := by
          rw [vector_set_get?_ne (by omega), vector_set_get?_ne (by omega)]; exact hl0
        have n1 : ((node.set 1 (Node.mkLeaf 256 0)).set 2 (Node.mkNode 0 1 s.freq[256]))[1]? =
            some (Node.mkLeaf 256 0) := by
          rw [vector_set_get?_ne (by omega)]; exact vector_set_get?
        have n2 : ((node.set 1 (Node.mkLeaf 256 0)).set 2 (Node.mkNode 0 1 s.freq[256]))[2]? =
            some (Node.mkNode 0 1 s.freq[256]) := vector_set_get?
        refine ⟨?_, ?_, ?_, ?_, ?_, ?_⟩
        · intro k q hk
          rw [hpf] at hk
          cases k with
          | zero =>
            simp only [List.getElem?_cons_zero, Option.some.injEq] at hk
            subst hk
            exact n0
          | succ k => simp at hk
        · exact treeAt_node n2 rfl (treeAt_leaf n0 rfl) (treeAt_leaf n1 rfl)
        · rw [greedyTree, hpf]; rfl
        · refine ⟨_, visits_node n2 rfl (visits_leaf n0 rfl) (visits_leaf n1 rfl), ?_⟩
          exact (by decide : [2, 0, 1].Perm (List.range 3))
        · intro _
          exact ⟨rfl, rfl, _, hpf, n1, n2⟩
        · intro h
          rw [hpf] at h
          simp at h
    | cons q ps =>
      obtain ⟨sl, q1, q2, q3⟩ := leafQueue 0 (positives s.freq) [] (by simp [Sorted]) (by simp)
      rw [List.nil_append] at q2
      have hlive : (leafEntries 0 (positives s.freq)).map (·.cand) =
          ⟨p.1, 0⟩ :: ⟨q.1, 1⟩ :: (leafEntries 2 ps).map (·.cand) := by
        rw [hpf, leafEntries_cons, leafEntries_cons]
        rfl
      obtain ⟨node', nc', e, m1, m2, m3, m4⟩ := mergeLoop_ok (ps := positives s.freq)
        (fuel := (leafEntries 0 (positives s.freq)).length) (s := s1)
        (by rw [hn1, hc1]; exact hb) (by rw [hc1]; omega) hlen (by rw [hn1, hc1]; exact hf) q2 q1
        (Nat.le_refl _) (by rw [hpf, leafEntries_cons]; simp)
      have hcnt := m3.count
      have hlt := m3.lt e (by simp)
      simp only [List.length_singleton] at hcnt
      have hidx : e.cand.idx = nc'.toNat - 1 := by
        by_contra hne
        have hin : nc'.toNat - 1 ∈ e.vis := by
          have := m3.all.symm.subset (List.mem_range.mpr (show nc'.toNat - 1 < nc'.toNat by omega))
          simpa using this
        have hle : ∀ (f i : Nat) (l : List Nat), i < nc'.toNat → visits node' f i = some l →
            ∀ j ∈ l, j ≤ i := by
          intro f
          induction f with
          | zero => intro i l _ h; simp [visits] at h
          | succ f ih =>
            intro i l hi h j hj
            rw [visits] at h
            cases hm : node'[i]? with
            | none => simp [hm] at h
            | some m =>
              simp only [hm] at h
              by_cases hl : m.leaf = true
              · simp only [hl, if_true, Option.some.injEq] at h
                subst h
                simp at hj
                omega
              · have hik : (positives s.freq).length ≤ i := by
                  by_contra hc
                  have := m2.leaves i (positives s.freq)[i] (by simp)
                  rw [hm] at this
                  cases this
                  simp [Node.mkLeaf] at hl
                obtain ⟨a, b, l', r', g1, g2, g3, -⟩ := m2.inner i hik hi
                rw [hm] at g1
                cases g1
                have e1 : (Node.mkNode a b (l'.weight + r'.weight)).left.toNat = a := by
                  simp [Node.mkNode]; omega
                have e2 : (Node.mkNode a b (l'.weight + r'.weight)).right.toNat = b := by
                  simp [Node.mkNode]; omega
                simp only [e1, e2, hl] at h
                cases v1 : visits node' f a with
                | none => simp [v1] at h
                | some la =>
                  cases v2 : visits node' f b with
                  | none => simp [v1, v2] at h
                  | some lb =>
                    simp [v1, v2] at h
                    subst h
                    simp only [List.mem_cons, List.mem_append] at hj
                    rcases hj with rfl | hj | hj
                    · omega
                    · have := ih a la (by omega) v1 j hj; omega
                    · have := ih b lb (by omega) v2 j hj; omega
        have := hle _ _ _ hlt (m3.vis e (by simp)) _ hin
        omega
      have h2 : 2 ≤ (positives s.freq).length := by rw [hpf]; simp
      have hroot : (BitVec.ofNat 10 e.cand.idx).toNat = e.cand.idx := by
        simp
        omega
      refine ⟨node', nc', BitVec.ofNat 10 e.cand.idx, e.tree, ?_, ?_⟩
      · rw [← hpf, hlive, joinLive, ← hlive, List.length_map, m1, Res.bind_ok]
        simp [← hs1, State.setTreeValid, State.clearTree, State.noNodes]
      · refine ⟨m2.leaves, ?_, ?_, ?_, ?_, ?_⟩
        · rw [hroot]; exact m3.tree e (by simp)
        · have hl : (leafEntries 0 (positives s.freq)).length = (positives s.freq).length := by
            simp [leafEntries]
          rw [hl] at m4
          rw [List.map_nil] at q3
          rw [greedyTree, hpf]
          rw [hpf] at q3 m4
          simp only []
          rw [q3]
          exact m4
        · rw [hroot]
          exact ⟨_, m3.vis e (by simp), by simpa using m3.all⟩
        · intro h; omega
        · intro _
          rw [hroot]
          refine ⟨m2, ?_, by omega, by omega⟩
          obtain ⟨n, hn, hw⟩ := m3.weight e (by simp)
          rw [m3.vis e (by simp), hn, Option.getD_some, Option.getD_some, hw]
          exact m3

end Sys2Proof.Machine
end

