-- ==== Sys2Proof/Laws/Products.lean ====
section
/-! SUPPORT. The products are complete (spec/47_properties.md R262, R264, R265) however the ports answer,
and no loop runs past its bound (R270). -/

namespace Sys2Proof.Machine

/-! ## The products are complete -/

/-- BUILD's result is a tree R262 describes. -/
theorem TreeOk.of_build {s : State} {freq : Vector Count 257} {t : Tree}
    (h0 : 0 < freq[256]) (h : BuildResult freq s.node s.ncount s.root t) : TreeOk s := by
  have hlen := positives_length freq
  have hlen1 := List.length_pos_of_mem (positives_sentinel h0)
  have hsym : ∀ p ∈ positives freq, (BitVec.ofNat 9 p.2).toNat ≤ 256 := fun p hp => by
    have := (positives_mem hp).2.1
    simp
    omega
  have hvis : ∀ (hr : s.root.toNat < 513),
      ∃ l, s.visited = some l ∧ l.Perm (List.range s.ncount.toNat) := fun hr => by
    obtain ⟨l, h1, h2⟩ := h.vis
    exact ⟨l, visits_mono h1 (by simp only [walkBound, Config.nodeCap]; omega), h2⟩
  by_cases h1 : (positives freq).length = 1
  · obtain ⟨hc, hr, p, hp, n1, n2⟩ := h.twin h1
    have n0 := h.leaves 0 p (by rw [hp]; rfl)
    have hp1 := hsym p (by rw [hp]; simp)
    have hc' : s.ncount.toNat = 3 := by rw [hc]; rfl
    have hr' : s.root.toNat = 2 := by rw [hr]; rfl
    have hcases : ∀ (i : Nat) (n : Node), i < s.ncount.toNat → s.node[i]? = some n →
        n = Node.mkLeaf (BitVec.ofNat 9 p.2) p.1 ∨ n = Node.mkLeaf 256 0 ∨
        n = Node.mkNode 0 1 p.1 := by
      intro i n hi hn
      rw [hc'] at hi
      obtain rfl | rfl | rfl : i = 0 ∨ i = 1 ∨ i = 2 := by omega
      · rw [n0] at hn; exact .inl (Option.some.inj hn).symm
      · rw [n1] at hn; exact .inr (.inl (Option.some.inj hn).symm)
      · rw [n2] at hn; exact .inr (.inr (Option.some.inj hn).symm)
    refine ⟨by omega, by omega, by omega, by omega, ⟨_, by rw [hr']; exact n2, rfl⟩, ?_,
      hvis (by omega), ?_⟩
    · intro i n hi hn hl
      rcases hcases i n hi hn with rfl | rfl | rfl
      · cases hl
      · cases hl
      · rw [hc']
        exact ⟨(by decide : (BitVec.ofNat 10 0).toNat < 3),
          (by decide : (BitVec.ofNat 10 1).toNat < 3),
          (by decide : BitVec.ofNat 10 0 ≠ BitVec.ofNat 10 1)⟩
    · intro i n hi hn hl
      rcases hcases i n hi hn with rfl | rfl | rfl
      · exact hp1
      · decide
      · cases hl
  · obtain ⟨hb, -, hc, hr⟩ := h.merged (by omega)
    have hcases : ∀ (i : Nat) (n : Node), i < s.ncount.toNat → s.node[i]? = some n →
        (n.leaf = false → n.left.toNat < s.ncount.toNat ∧ n.right.toNat < s.ncount.toNat ∧
          n.left ≠ n.right) ∧ (n.leaf = true → n.value.toNat ≤ 256) := by
      intro i n hi hn
      by_cases hk : i < (positives freq).length
      · rw [hb.leaves i (positives freq)[i] (by simp [hk])] at hn
        cases hn
        exact ⟨fun hl => (by cases hl), fun _ => hsym _ (List.getElem_mem _)⟩
      · obtain ⟨a, b, l, r, g1, g2, g3, g4, -⟩ := hb.inner i (by omega) hi
        rw [g1] at hn
        cases hn
        have e1 : (Node.mkNode a b (l.weight + r.weight)).left.toNat = a := by
          simp [Node.mkNode]; omega
        have e2 : (Node.mkNode a b (l.weight + r.weight)).right.toNat = b := by
          simp [Node.mkNode]; omega
        refine ⟨fun _ => ⟨by omega, by omega, fun he => g4 ?_⟩, fun hl => by cases hl⟩
        have := congrArg BitVec.toNat he
        omega
    refine ⟨by omega, by omega, by omega, by omega, ?_, fun i n h1 h2 => (hcases i n h1 h2).1,
      hvis (by omega), fun i n h1 h2 => (hcases i n h1 h2).2⟩
    obtain ⟨a, b, l, r, g1, -⟩ := hb.inner s.root.toNat (by omega) (by omega)
    exact ⟨_, g1, rfl⟩

/-- DERIVE on a tree R262 describes (R140 to R142). -/
theorem deriveBody_ok {s : State} (hv : s.treeValid = true) (h : TreeOk s) :
    ∃ (code : Vector Code 257) (t : Tree),
      deriveBody s = .ok () { s with code := code, codeValid := true } ∧ s.tree = some t ∧
      ∀ (k : Nat) (hk : k < 257), code[k] = codeEntry t k := by
  obtain ⟨l, r, ht, hc, -, hl⟩ := h.tree
  have hd := treeDepth_lt (.node l r)
  refine ⟨bindPaths (Vector.replicate 257 Code.none) (leafPaths (.node l r)), .node l r, ?_, ht, ?_⟩
  · have hw := walk_ok (s := s.clearCode.emptyCode) (pre := []) ht
      (by simp only [List.length_nil]; omega) hl
    rw [show valOf [] = 0 from rfl, List.length_nil] at hw
    rw [deriveBody, require_true hv, Res.bind_ok, hw, Res.bind_ok]
    simp [State.clearCode, State.emptyCode, State.setCodeValid]
  · intro k hk
    rw [bindPaths_get _ _ _ hk, codeEntry, codePath]
    cases (((leafPaths (.node l r)).filter fun p => p.1.toNat == k).getLast?).map (·.2) with
    | some q => rfl
    | none => exact Vector.getElem_replicate _

/-- COUNT's loop counts some bytes, at most `maxBytes` of them (R110, R112), however the port
answers. -/
theorem countLoop_sound {fuel n : Nat} {s t : State} (hn : n ≤ maxBytes)
    (h : countLoop fuel n s = .ok () t) :
    ∃ bs, t.freq = countBytes s.freq bs ∧ n + bs.length ≤ maxBytes := by
  induction fuel generalizing n s with
  | zero => cases h
  | succ fuel ih =>
    rw [countLoop] at h
    rcases rd_cases 8 s with e | e | ⟨-, e⟩ <;> rw [e] at h
    · cases h
    · cases h
      exact ⟨[], rfl, hn⟩
    · rw [Res.bind_ok] at h
      simp only [] at h
      by_cases hm : n = maxBytes
      · rw [if_pos hm] at h
        cases h
      · rw [if_neg hm] at h
        obtain ⟨bs, h1, h2⟩ := ih (by omega) h
        refine ⟨fieldAt 8 s.inBits s.inPos :: bs, ?_, by simp only [List.length_cons]; omega⟩
        rw [h1, countBytes_cons]
        rfl

theorem countSum_set (f : Vector Count 257) (k : Nat) (h : k < 257) (hlt : f[k].toNat + 1 < 2 ^ 32) :
    countSum (f.set k (f[k] + 1)) = countSum f + 1 := by
  have h1 : (f[k] + 1).toNat = f[k].toNat + 1 := by
    rw [BitVec.toNat_add, Nat.mod_eq_of_lt]
    · rfl
    · exact hlt
  have hk : k < (f.toList.map (·.toNat)).length := by simp [h]
  rw [countSum, countSum, Vector.toList_set, List.map_set, h1]
  rw [List.set_eq_take_append_cons_drop, if_pos hk]
  conv_rhs => rw [← List.take_append_drop k (f.toList.map (·.toNat)),
    List.drop_eq_getElem_cons hk]
  simp
  omega

theorem countSum_get_le (f : Vector Count 257) (k : Nat) (h : k < 257) :
    f[k].toNat ≤ countSum f := by
  apply List.le_sum_of_mem
  rw [List.mem_map]
  exact ⟨f[k], by simp, rfl⟩

/-- Counting does not overflow within R112's limit. -/
theorem countSum_countBytes (f : Vector Count 257) (bs : List Byte)
    (h : countSum f + bs.length < 2 ^ 32) :
    countSum (countBytes f bs) = countSum f + bs.length := by
  induction bs generalizing f with
  | nil => rfl
  | cons b bs ih =>
    rw [List.length_cons] at h
    have hb := b.isLt
    have h1 := countSum_get_le f b.toNat (by omega)
    have h2 := countSum_set f b.toNat (by omega) (by omega)
    rw [countBytes, List.foldl_cons, ← countBytes, ih _ (by rw [h2]; omega), h2, List.length_cons]
    omega

theorem countSum_seed : countSum ((Vector.replicate 257 0).set 256 1) = 1 := by decide +kernel

/-- A table that COUNT finishes is a Frequency Table (R265). -/
theorem FreqOk.of_count {s : State} {bs : List Byte}
    (h : s.freq = countBytes ((Vector.replicate 257 0).set 256 1) bs) (hb : bs.length ≤ maxBytes) :
    FreqOk s := by
  refine ⟨?_, ?_⟩
  · rw [h, countBytes_get _ _ _ (by omega)]
    have : (bs.countP fun b => b.toNat == 256) = 0 := by
      rw [List.countP_eq_zero]
      intro b _
      have := b.isLt
      simp
      omega
    rw [this]
    rfl
  · have hm : maxBytes = 2 ^ 32 - 2 := rfl
    rw [h, countSum_countBytes _ _ (by rw [countSum_seed]; omega), countSum_seed]
    omega

theorem PreOrder.lt {node : Vector Node 513} {t : Tree} {i : Nat} (h : PreOrder node t i) :
    i < 513 := by
  cases t with
  | leaf v =>
    by_contra hc
    rw [PreOrder, Vector.getElem?_eq_none (by omega)] at h
    cases h
  | node l r =>
    by_contra hc
    rw [PreOrder, Vector.getElem?_eq_none (by omega)] at h
    cases h.1

/-- Whatever RDTREE's recursion reads, it stores a tree in pre-order (R160 to R162), however the
port answers. -/
theorem getTree_sound {fuel i : Nat} {s u : State} (hn : s.ncount.toNat ≤ 513)
    (h : getTree fuel s = .ok i u) :
    i = s.ncount.toNat ∧ ∃ t, PreOrder u.node t i ∧
      u.ncount.toNat = s.ncount.toNat + (2 * leafCount t - 1) ∧ u.ncount.toNat ≤ 513 ∧
      labelsFit t = true ∧ ∀ j, j < s.ncount.toNat → u.node[j]? = s.node[j]? := by
  induction fuel generalizing i s u with
  | zero => cases h
  | succ fuel ih =>
    rw [getTree] at h
    rcases rd_cases 1 s with e | e | ⟨-, e⟩ <;> rw [e] at h
    · cases h
    · cases h
    · rw [Res.bind_ok] at h
      simp only [] at h
      by_cases hcap : s.ncount.toNat = 513
      · rw [if_pos (by simpa [Config.nodeCap] using hcap)] at h
        cases h
      · rw [if_neg (by simpa [Config.nodeCap] using hcap), allocIndex, Res.bind_ok] at h
        have hinc : (s.takeBits 1).takeIndex.ncount.toNat = s.ncount.toNat + 1 := by
          rw [State.takeIndex_ncount, State.takeBits_ncount, BitVec.toNat_add]
          simp
          omega
        have hn0 : (s.takeBits 1).ncount.toNat = s.ncount.toNat := rfl
        by_cases hb : fieldAt 1 s.inBits s.inPos = 1
        · rw [if_pos hb, getLeaf] at h
          rcases rd_cases 9 (s.takeBits 1).takeIndex with e | e | ⟨-, e⟩ <;> rw [e] at h
          · cases h
          · cases h
          · rw [Res.bind_ok] at h
            simp only [] at h
            generalize fieldAt 9 (s.takeBits 1).takeIndex.inBits (s.takeBits 1).takeIndex.inPos = v
              at h
            by_cases hv : Config.sentinel < v.toNat
            · rw [if_pos hv] at h
              cases h
            · rw [if_neg hv, writeNode_lt _ (by simp only [State.takeBits_ncount]; omega),
                Res.bind_ok] at h
              cases h
              refine ⟨rfl, .leaf v, vector_set_get? (h := by omega), ?_, ?_, ?_, ?_⟩
              · simp only [State.setNode_ncount, State.takeBits_ncount, hinc, leafCount]
              · simp only [State.setNode_ncount, State.takeBits_ncount, hinc]
                omega
              · simp only [labelsFit, Config.sentinel, decide_eq_true_eq] at hv ⊢
                omega
              · intro j hj
                exact vector_set_get?_ne (h := by omega) (by simp; omega)
        · rw [if_neg hb] at h
          obtain ⟨l, u1, h1, h⟩ := Res.bind_eq_ok h
          obtain ⟨r, u2, h2, h⟩ := Res.bind_eq_ok h
          obtain ⟨e1, tl, p1, c1, b1, f1, k1⟩ := ih (by omega) h1
          obtain ⟨e2, tr, p2, c2, b2, f2, k2⟩ := ih (by omega) h2
          rw [hinc] at e1 c1 k1
          have hl1 := leafCount_pos tl
          have hr1 := leafCount_pos tr
          simp only [State.takeBits_ncount] at h
          rw [writeNode_lt _ (by omega), Res.bind_ok] at h
          cases h
          subst e1 e2
          refine ⟨rfl, .node tl tr, ⟨?_, ?_, ?_⟩, ?_, b2, ?_, ?_⟩
          · rw [← c1]
            exact vector_set_get? (h := by omega)
          · exact (p1.congr fun j h1 h2 => k2 j (by omega)).congr fun j h1 h2 =>
              vector_set_get?_ne (h := by omega) (by omega)
          · rw [← c1]
            exact p2.congr fun j h1 h2 => vector_set_get?_ne (h := by omega) (by omega)
          · simp only [State.setNode_ncount, c2, c1, leafCount]
            omega
          · simp [labelsFit, f1, f2]
          · intro j hj
            have s1 : (u2.setNode s.ncount.toNat (Node.mkNode (s.ncount.toNat + 1) u1.ncount.toNat 0)
              (by omega)).node[j]? = u2.node[j]? := vector_set_get?_ne (h := by omega) (by omega)
            rw [s1, k2 j (by omega), k1 j (by omega)]
            rfl

/-- RDTREE's recursion does not stop: it ends in a tree or in a fault. -/
theorem getTree_total {fuel : Nat} {s : State} (hn : s.ncount.toNat ≤ 513)
    (hf : 514 ≤ fuel + s.ncount.toNat) (x : Fault) : getTree fuel s ≠ .stop x := by
  induction fuel generalizing s with
  | zero => omega
  | succ fuel ih =>
    rw [getTree]
    rcases rd_cases 1 s with e | e | ⟨-, e⟩ <;> rw [e]
    · simp
    · simp
    · rw [Res.bind_ok]
      simp only []
      by_cases hcap : s.ncount.toNat = 513
      · rw [if_pos (by simpa [Config.nodeCap] using hcap)]
        simp
      · rw [if_neg (by simpa [Config.nodeCap] using hcap), allocIndex, Res.bind_ok]
        have hinc : (s.takeBits 1).takeIndex.ncount.toNat = s.ncount.toNat + 1 := by
          rw [State.takeIndex_ncount, State.takeBits_ncount, BitVec.toNat_add]
          simp
          omega
        have hn0 : (s.takeBits 1).ncount.toNat = s.ncount.toNat := rfl
        by_cases hb : fieldAt 1 s.inBits s.inPos = 1
        · rw [if_pos hb, getLeaf]
          rcases rd_cases 9 (s.takeBits 1).takeIndex with e | e | ⟨-, e⟩ <;> rw [e]
          · simp
          · simp
          · rw [Res.bind_ok]
            simp only []
            split
            · simp
            · rw [writeNode_lt _ (by simp only [State.takeBits_ncount]; omega), Res.bind_ok]
              simp
        · rw [if_neg hb]
          intro h
          rcases Res.bind_eq_stop h with h | ⟨l, u1, h1, h⟩
          · exact ih (by omega) (by omega) h
          · obtain ⟨-, tl, -, c1, b1, -, -⟩ := getTree_sound (by omega) h1
            have hl1 := leafCount_pos tl
            rcases Res.bind_eq_stop h with h | ⟨r, u2, h2, h⟩
            · exact ih (by omega) (by omega) h
            · rw [writeNode_lt _ (by simp only [State.takeBits_ncount]; omega), Res.bind_ok] at h
              simp at h

theorem countLoop_total {fuel n : Nat} {s : State} (hf : s.unread.length < 8 * fuel) (x : Fault) :
    countLoop fuel n s ≠ .stop x := by
  induction fuel generalizing n s with
  | zero => omega
  | succ fuel ih =>
    rw [countLoop]
    rcases rd_cases 8 s with e | e | ⟨hle, e⟩ <;> rw [e]
    · simp
    · simp
    · rw [Res.bind_ok]
      simp only []
      split
      · simp
      · rw [State.unread_length] at hf
        exact ih (by simp [State.unread_length]; omega)

theorem encodeLoop_total {fuel : Nat} {s : State} (hf : s.unread.length < 8 * fuel)
    (hc : CodesFit s) (x : Fault) : encodeLoop fuel s ≠ .stop x := by
  induction fuel generalizing s with
  | zero => omega
  | succ fuel ih =>
    rw [encodeLoop]
    rcases rd_cases 8 s with e | e | ⟨hle, e⟩ <;> rw [e]
    · simp
    · simp
    · rw [Res.bind_ok]
      simp only []
      generalize hv : fieldAt 8 s.inBits s.inPos = v
      have hvl := v.isLt
      rw [emitSymbol]
      rcases readCode_cases v.toNat (s.takeBits 8) with e | e | ⟨c, hg, hval, e⟩
      · rw [readCode, Vector.getElem?_eq_getElem (by omega)] at e
        cases e
      · rw [e]
        simp
      · have hfit := hc.of_get hg hval
        rw [e, Res.bind_ok]
        simp only [putCode]
        rcases wr_cases c.len.toNat c.bits.toNat (s.takeBits 8) with ⟨-, h⟩ | e | e
        · omega
        · rw [e]; simp
        · rw [e, Res.bind_ok]
          rw [State.unread_length] at hf
          exact ih (by simp [State.unread_length]; omega) hc

theorem emitSymbol_total {k : Nat} {s : State} (hk : k < 257) (hc : CodesFit s) (x : Fault) :
    emitSymbol k s ≠ .stop x := by
  rw [emitSymbol]
  rcases readCode_cases k s with e | e | ⟨c, hg, hval, e⟩
  · rw [readCode, Vector.getElem?_eq_getElem hk] at e
    cases e
  · rw [e]; simp
  · have hfit := hc.of_get hg hval
    rw [e, Res.bind_ok]
    simp only [putCode]
    rcases wr_cases c.len.toNat c.bits.toNat s with ⟨-, h⟩ | e | e
    · omega
    · rw [e]; simp
    · rw [e]; simp

theorem putTree_total {fuel i : Nat} {s : State} {t : Tree} (h : treeAt s.node fuel i = some t)
    (x : Fault) : putTree fuel i s ≠ .stop x ∧ ∀ u, putTree fuel i s = .ok () u → u.node = s.node := by
  induction fuel generalizing i s t with
  | zero => simp [treeAt] at h
  | succ fuel ih =>
    obtain ⟨n, hn, ⟨hl, rfl⟩ | ⟨hl, l, r, h1, h2, rfl⟩⟩ := treeAt_cases h
    · rw [putTree, readNode_some hn, Res.bind_ok, if_pos hl, putLeafToken]
      rcases wr_cases 1 1 s with ⟨-, h⟩ | e | e
      · omega
      · rw [e]; simp
      · rw [e, Res.bind_ok]
        rcases wr_cases 9 n.value.toNat (s.putBits 1 1) with ⟨-, h⟩ | e | e
        · omega
        · rw [e]; simp
        · rw [e]; simp
    · rw [putTree, readNode_some hn, Res.bind_ok, if_neg (by simp [hl]), putInternalToken]
      rcases wr_cases 1 0 s with ⟨-, h⟩ | e | e
      · omega
      · rw [e]; simp
      · rw [e, Res.bind_ok]
        have i1 := ih (s := s.putBits 1 0) h1
        constructor
        · intro hx
          rcases Res.bind_eq_stop hx with hx | ⟨_, u, hu, hx⟩
          · exact i1.1 hx
          · have := i1.2 u hu
            exact (ih (s := u) (t := r) (by rw [this]; exact h2)).1 hx
        · intro w hw
          obtain ⟨_, u, hu, hw⟩ := Res.bind_eq_ok hw
          have e1 := i1.2 u hu
          have e2 := (ih (s := u) (t := r) (by rw [e1]; exact h2)).2 w hw
          rw [e2, e1]
          rfl

theorem decodeLoop_total {fuel f g cur : Nat} {s : State} {l r a b : Tree}
    (hf : s.unread.length < fuel) (ht : treeAt s.node f cur = some (.node l r))
    (hr : treeAt s.node g s.root.toNat = some (.node a b)) (x : Fault) :
    decodeLoop fuel cur s ≠ .stop x := by
  induction fuel generalizing s f cur l r with
  | zero => omega
  | succ fuel ih =>
    rw [decodeLoop]
    rcases rd_cases 1 s with e | e | ⟨hle, e⟩ <;> rw [e]
    · simp
    · simp
    · rw [Res.bind_ok]
      simp only []
      generalize fieldAt 1 s.inBits s.inPos = c
      rw [State.unread_length] at hf
      have hlen : (s.takeBits 1).unread.length < fuel := by simp [State.unread_length]; omega
      obtain ⟨f, rfl⟩ : ∃ k, f = k + 1 := by
        cases f with
        | zero => simp [treeAt] at ht
        | succ k => exact ⟨k, rfl⟩
      obtain ⟨n, hn, ⟨-, h⟩ | ⟨-, l', r', h1, h2, -⟩⟩ := treeAt_cases ht
      · cases h
      rw [readNode_some (s := s.takeBits 1) hn, Res.bind_ok]
      have hch : ∃ t, treeAt s.node f (n.child c) = some t := by
        rw [Node.child]
        split
        · exact ⟨_, h1⟩
        · exact ⟨_, h2⟩
      obtain ⟨t, hch⟩ := hch
      obtain ⟨f, rfl⟩ : ∃ k, f = k + 1 := by
        cases f with
        | zero => simp [treeAt] at hch
        | succ k => exact ⟨k, rfl⟩
      have hch' := hch
      obtain ⟨m, hm, ⟨hml, rfl⟩ | ⟨hml, p, q, -, -, rfl⟩⟩ := treeAt_cases hch
      · rw [readNode_some (s := s.takeBits 1) hm, Res.bind_ok, if_pos hml]
        split
        · simp
        · rw [putLiteral]
          rcases wr_cases 8 m.value.toNat (s.takeBits 1) with ⟨-, h⟩ | e | e
          · omega
          · rw [e]; simp
          · rw [e, Res.bind_ok]
            exact ih (s := (s.takeBits 1).putBits 8 m.value.toNat)
              (by rw [State.unread_putBits]; exact hlen) hr hr
      · rw [readNode_some (s := s.takeBits 1) hm, Res.bind_ok, if_neg (by simp [hml])]
        exact ih (s := s.takeBits 1) hlen hch' hr

end Sys2Proof.Machine
end

