-- ==== Sys2Proof/Laws/Frames.lean ====
section
/-! SUPPORT. What the parts of a command leave unchanged, however they end. -/

namespace Sys2Proof.Machine

/-! ## What the parts of a command leave unchanged -/

/-- Only IN, and what a port call uses up and records, differs. -/
def InFrame (s t : State) : Prop :=
  t = { s with inPos := t.inPos, answers := t.answers, trace := t.trace, draws := t.draws }

/-- Only OUT, and what a port call uses up and records, differs. -/
def OutFrame (s t : State) : Prop :=
  t = { s with outBits := t.outBits, outShut := t.outShut, answers := t.answers, trace := t.trace,
               draws := t.draws }

/-- Only the two ports differ. -/
def PortFrame (s t : State) : Prop :=
  t = { s with inPos := t.inPos, outBits := t.outBits, outShut := t.outShut, answers := t.answers,
               trace := t.trace, draws := t.draws }

/-- Only FREQ and IN differ. -/
def CountFrame (s t : State) : Prop :=
  t = { s with freq := t.freq, inPos := t.inPos, answers := t.answers, trace := t.trace,
               draws := t.draws }

/-- Only NODE and NCOUNT differ. -/
def NodeFrame (s t : State) : Prop := t = { s with node := t.node, ncount := t.ncount }

/-- Only CODE differs. -/
def CodeFrame (s t : State) : Prop := t = { s with code := t.code }

theorem InFrame.refl (s : State) : InFrame s s := rfl
theorem OutFrame.refl (s : State) : OutFrame s s := rfl
theorem PortFrame.refl (s : State) : PortFrame s s := rfl
theorem CountFrame.refl (s : State) : CountFrame s s := rfl
theorem HeaderFrame.refl (s : State) : HeaderFrame s s := rfl
theorem NodeFrame.refl (s : State) : NodeFrame s s := rfl
theorem CodeFrame.refl (s : State) : CodeFrame s s := rfl

theorem InFrame.trans {s t u : State} (h : InFrame s t) (h' : InFrame t u) : InFrame s u := by
  unfold InFrame at *; rw [h'] at *; rw [h]
theorem OutFrame.trans {s t u : State} (h : OutFrame s t) (h' : OutFrame t u) : OutFrame s u := by
  unfold OutFrame at *; rw [h'] at *; rw [h]
theorem PortFrame.trans {s t u : State} (h : PortFrame s t) (h' : PortFrame t u) :
    PortFrame s u := by
  unfold PortFrame at *; rw [h'] at *; rw [h]
theorem CountFrame.trans {s t u : State} (h : CountFrame s t) (h' : CountFrame t u) :
    CountFrame s u := by
  unfold CountFrame at *; rw [h'] at *; rw [h]
theorem NodeFrame.trans {s t u : State} (h : NodeFrame s t) (h' : NodeFrame t u) :
    NodeFrame s u := by
  unfold NodeFrame at *; rw [h'] at *; rw [h]
theorem CodeFrame.trans {s t u : State} (h : CodeFrame s t) (h' : CodeFrame t u) :
    CodeFrame s u := by
  unfold CodeFrame at *; rw [h'] at *; rw [h]

theorem InFrame.port {s t : State} (h : InFrame s t) : PortFrame s t := by
  unfold InFrame at h; unfold PortFrame; rw [h]
theorem OutFrame.port {s t : State} (h : OutFrame s t) : PortFrame s t := by
  unfold OutFrame at h; unfold PortFrame; rw [h]
theorem InFrame.count {s t : State} (h : InFrame s t) : CountFrame s t := by
  unfold InFrame at h; unfold CountFrame; rw [h]
theorem InFrame.header {s t : State} (h : InFrame s t) : HeaderFrame s t := by
  unfold InFrame at h; unfold HeaderFrame; rw [h]
theorem NodeFrame.header {s t : State} (h : NodeFrame s t) : HeaderFrame s t := by
  unfold NodeFrame at h; unfold HeaderFrame; rw [h]

/-- A relation that holds of a part's end holds of the whole, when it composes. -/
theorem Res.Leaves.seq {α β : Type} {R : State → State → Prop}
    (tr : ∀ {s t u}, R s t → R t u → R s u) {s : State} {r : Res α} {k : α → State → Res β}
    (hr : r.Leaves (R s)) (hk : ∀ a u, (k a u).Leaves (R u)) : (r.bind k).Leaves (R s) := by
  cases r with
  | ok a u => exact (hk a u).mono fun _ h => tr hr h
  | raise f u => exact hr
  | stop x => trivial

theorem rd_leaves (n : Nat) (s : State) : (rd n s).Leaves (InFrame s) := by
  rcases rd_cases n s with e | e | ⟨-, e⟩ <;> rw [e] <;> rfl

theorem rewindIn_leaves (s : State) : (rewindIn s).Leaves (InFrame s) := by
  rcases rewindIn_cases s with e | e <;> rw [e] <;> rfl

theorem wr_leaves (n v : Nat) (s : State) : (wr n v s).Leaves (OutFrame s) := by
  rcases wr_cases n v s with ⟨e, -⟩ | e | e <;> rw [e]
  · trivial
  · rfl
  · rfl

theorem closeOut_leaves (s : State) : (closeOut s).Leaves (OutFrame s) := by
  rcases closeOut_cases s with e | e <;> rw [e] <;> rfl

theorem readNode_leaves (i : Nat) (s : State) : (readNode i s).Leaves (· = s) := by
  rcases readNode_cases i s with e | ⟨n, -, e⟩ <;> rw [e]
  · trivial
  · rfl

theorem writeNode_leaves (i : Nat) (n : Node) (s : State) :
    (writeNode i n s).Leaves (NodeFrame s) := by
  rcases writeNode_cases i n s with e | ⟨h, e⟩ <;> rw [e]
  · trivial
  · rfl

theorem pushNode_leaves (n : Node) (s : State) : (pushNode n s).Leaves (NodeFrame s) := by
  rw [pushNode, allocIndex, Res.bind_ok]
  refine Res.Leaves.seq (R := NodeFrame) NodeFrame.trans (s := s) ?_ fun a u => NodeFrame.refl u
  exact (writeNode_leaves _ n s.takeIndex).mono fun u h =>
    NodeFrame.trans (t := s.takeIndex) rfl h

theorem readCode_leaves (k : Nat) (s : State) : (readCode k s).Leaves (· = s) := by
  rcases readCode_cases k s with e | e | ⟨c, -, -, e⟩ <;> rw [e]
  · trivial
  · rfl
  · rfl

theorem countLoop_leaves (fuel n : Nat) (s : State) : (countLoop fuel n s).Leaves (CountFrame s) := by
  induction fuel generalizing n s with
  | zero => trivial
  | succ fuel ih =>
    rw [countLoop]
    refine Res.Leaves.seq (R := CountFrame) CountFrame.trans ((rd_leaves 8 s).mono fun _ h => h.count) ?_
    intro a u
    cases a with
    | none => exact CountFrame.refl u
    | some v =>
      simp only []
      split
      · exact CountFrame.refl u
      · exact (ih (n + 1) (u.countByte v)).mono fun w h =>
          CountFrame.trans (t := u.countByte v) rfl h

theorem getTree_leaves (fuel : Nat) (s : State) : (getTree fuel s).Leaves (HeaderFrame s) := by
  induction fuel generalizing s with
  | zero => trivial
  | succ fuel ih =>
    rw [getTree]
    refine Res.Leaves.seq (R := HeaderFrame) HeaderFrame.trans ((rd_leaves 1 s).mono fun _ h => h.header) ?_
    intro a u
    cases a with
    | none => exact HeaderFrame.refl u
    | some b =>
      simp only []
      split
      · exact HeaderFrame.refl u
      · rw [allocIndex, Res.bind_ok]
        refine Res.Leaves.mono (P := HeaderFrame u.takeIndex) ?_ fun w h =>
          HeaderFrame.trans (t := u.takeIndex) rfl h
        split
        · refine Res.Leaves.seq (R := HeaderFrame) HeaderFrame.trans ?_ fun a u => HeaderFrame.refl u
          rw [getLeaf]
          refine Res.Leaves.seq (R := HeaderFrame) HeaderFrame.trans ((rd_leaves 9 _).mono fun _ h => h.header) ?_
          intro a w
          cases a with
          | none => exact HeaderFrame.refl w
          | some v =>
            simp only []
            split
            · exact HeaderFrame.refl w
            · exact (writeNode_leaves _ _ w).mono fun _ h => h.header
        · refine Res.Leaves.seq (R := HeaderFrame) HeaderFrame.trans (ih _) fun l w => ?_
          refine Res.Leaves.seq (R := HeaderFrame) HeaderFrame.trans (ih w) fun r w => ?_
          exact Res.Leaves.seq (R := HeaderFrame) HeaderFrame.trans
            ((writeNode_leaves _ _ w).mono fun _ h => h.header) fun _ w => HeaderFrame.refl w

theorem addLeaves_leaves (l : List (Count × Nat)) (s : State) :
    (addLeaves l s).Leaves (NodeFrame s) := by
  induction l generalizing s with
  | nil => exact NodeFrame.refl s
  | cons p l ih =>
    obtain ⟨w, x⟩ := p
    rw [addLeaves]
    split
    · refine Res.Leaves.seq (R := NodeFrame) NodeFrame.trans (pushNode_leaves _ s) fun i u => ?_
      exact Res.Leaves.seq (R := NodeFrame) NodeFrame.trans (ih u) fun _ w => NodeFrame.refl w
    · exact ih s

theorem mergeLoop_leaves (fuel : Nat) (live : List Cand) (s : State) :
    (mergeLoop fuel live s).Leaves (NodeFrame s) := by
  induction fuel generalizing live s with
  | zero => trivial
  | succ fuel ih =>
    rw [mergeLoop]
    split
    · exact NodeFrame.refl s
    · exact NodeFrame.refl s
    · split
      · exact NodeFrame.refl s
      · exact Res.Leaves.seq (R := NodeFrame) NodeFrame.trans (pushNode_leaves _ s) fun i u => ih _ u

theorem joinLive_leaves (live : List Cand) (s : State) :
    (joinLive live s).Leaves (NodeFrame s) := by
  match live with
  | [] => exact NodeFrame.refl s
  | [a] =>
    rw [joinLive, twinTree]
    exact Res.Leaves.seq (R := NodeFrame) NodeFrame.trans (pushNode_leaves _ s) fun i u => pushNode_leaves _ u
  | a :: b :: rest => exact mergeLoop_leaves _ _ s

theorem walk_leaves (fuel i l p : Nat) (s : State) : (walk fuel i l p s).Leaves (CodeFrame s) := by
  induction fuel generalizing i l p s with
  | zero => trivial
  | succ fuel ih =>
    rw [walk]
    refine Res.Leaves.seq (R := CodeFrame) CodeFrame.trans
      ((readNode_leaves i s).mono fun _ h => h ▸ CodeFrame.refl s) fun n u => ?_
    split
    · rw [bindCode]
      split
      · rcases writeCode_cases n.value.toNat ⟨true, BitVec.ofNat 9 l, BitVec.ofNat 256 p⟩ u with
          e | ⟨h, e⟩ <;> rw [e]
        · trivial
        · rfl
      · trivial
    · exact Res.Leaves.seq (R := CodeFrame) CodeFrame.trans (ih _ _ _ u) fun _ w => ih _ _ _ w

theorem putTree_leaves (fuel i : Nat) (s : State) : (putTree fuel i s).Leaves (OutFrame s) := by
  induction fuel generalizing i s with
  | zero => trivial
  | succ fuel ih =>
    rw [putTree]
    refine Res.Leaves.seq (R := OutFrame) OutFrame.trans
      ((readNode_leaves i s).mono fun _ h => h ▸ OutFrame.refl s) fun n u => ?_
    split
    · exact Res.Leaves.seq (R := OutFrame) OutFrame.trans (wr_leaves 1 1 u) fun _ w => wr_leaves 9 _ w
    · refine Res.Leaves.seq (R := OutFrame) OutFrame.trans (wr_leaves 1 0 u) fun _ w => ?_
      exact Res.Leaves.seq (R := OutFrame) OutFrame.trans (ih _ w) fun _ w => ih _ w

theorem emitSymbol_leaves (k : Nat) (s : State) : (emitSymbol k s).Leaves (OutFrame s) := by
  rw [emitSymbol]
  refine Res.Leaves.seq (R := OutFrame) OutFrame.trans
    ((readCode_leaves k s).mono fun _ h => h ▸ OutFrame.refl s) fun c u => ?_
  cases c with
  | none => exact OutFrame.refl u
  | some c => exact wr_leaves _ _ u

theorem encodeLoop_leaves (fuel : Nat) (s : State) : (encodeLoop fuel s).Leaves (PortFrame s) := by
  induction fuel generalizing s with
  | zero => trivial
  | succ fuel ih =>
    rw [encodeLoop]
    refine Res.Leaves.seq (R := PortFrame) PortFrame.trans ((rd_leaves 8 s).mono fun _ h => h.port) fun a u => ?_
    cases a with
    | none => exact PortFrame.refl u
    | some v =>
      exact Res.Leaves.seq (R := PortFrame) PortFrame.trans ((emitSymbol_leaves _ u).mono fun _ h => h.port)
        fun _ w => ih w

theorem decodeLoop_leaves (fuel cur : Nat) (s : State) :
    (decodeLoop fuel cur s).Leaves (PortFrame s) := by
  induction fuel generalizing cur s with
  | zero => trivial
  | succ fuel ih =>
    rw [decodeLoop]
    refine Res.Leaves.seq (R := PortFrame) PortFrame.trans ((rd_leaves 1 s).mono fun _ h => h.port) fun a u => ?_
    cases a with
    | none => exact PortFrame.refl u
    | some b =>
      refine Res.Leaves.seq (R := PortFrame) PortFrame.trans
        ((readNode_leaves cur u).mono fun _ h => h ▸ PortFrame.refl u) fun n w => ?_
      refine Res.Leaves.seq (R := PortFrame) PortFrame.trans
        ((readNode_leaves _ w).mono fun _ h => h ▸ PortFrame.refl w) fun c w => ?_
      split
      · split
        · exact PortFrame.refl w
        · exact Res.Leaves.seq (R := PortFrame) PortFrame.trans ((wr_leaves 8 _ w).mono fun _ h => h.port)
            fun _ w => ih _ w
      · exact ih _ w

end Sys2Proof.Machine
end

