-- ==== Sys2Proof/Laws/Commands.lean ====
section
/-! SUPPORT. The primitives as a whole, over ports that do not fail: what each answers when its
precondition holds. COMPRESS and DECOMPRESS are chains of these (spec/46_control.md R196, R198). -/

namespace Sys2Proof.Machine

theorem openCheck_ok {s : State} (hc : s.outClosed = false) : openCheck s = .ok () s := by
  rw [openCheck, require_true (by simp [State.outOpen, hc])]

/-- COUNT within R112's limit (R110). -/
theorem countBody_ok {s : State} (hq : s.Quiet)
    (hl : (bytesOfBits s.unread).length ≤ maxBytes) :
    countBody s = .ok ()
      { s with
        freq := countBytes ((Vector.replicate 257 0).set 256 1) (bytesOfBits s.unread)
        freqValid := true
        treeValid := false
        codeValid := false
        inPos := s.inBits.length
        answers := s.answers.drop ((bytesOfBits s.unread).length + 1)
        trace := s.trace ++ List.replicate ((bytesOfBits s.unread).length + 1) (.readBits 8) } := by
  have hu : s.clearProducts.seedFreq.unread = s.unread := rfl
  rw [countBody, countLoop_ok (s := s.clearProducts.seedFreq) (n := 0) hq
    (by rw [hu, State.unread_length, State.readBound]; omega) (by rw [hu, Nat.zero_add]; exact hl),
    Res.bind_ok, hu]
  simp [State.clearProducts, State.seedFreq, State.setFreqValid]

/-- WRMAGIC (R150). -/
theorem wrmagicBody_ok {s : State} (hq : s.Quiet) (hc : s.outClosed = false) :
    wrmagicBody s = .ok () (s.putBits 32 Config.magic.toNat) := by
  rw [wrmagicBody, require_true (by simp [State.outOpen, hc]), Res.bind_ok, putMagic,
    wr_ok hq.failsNext (by omega) (by omega)]

/-- WRTREE (R152). -/
theorem wrtreeBody_ok {s : State} {t : Tree} (hq : s.Quiet) (hv : s.treeValid = true)
    (hc : s.outClosed = false) (ht : s.tree = some t) :
    ∃ tr, tr.length = s.trace.length + (3 * leafCount t - 1) ∧ wrtreeBody s = .ok ()
      { s with outBits := s.outBits ++ headerBits t,
               answers := s.answers.drop (3 * leafCount t - 1), trace := tr } := by
  rw [wrtreeBody, require_true (by simp [State.outOpen, hv, hc]), Res.bind_ok]
  exact putTree_ok hq ht

/-- ENCODE (R170, R172). -/
theorem encodeBody_ok {s : State} {e : Code} (hq : s.Quiet) (hv : s.codeValid = true)
    (hc : s.outClosed = false) (hfit : CodesFit s)
    (hb : ∀ b ∈ bytesOfBits s.unread, ∃ c, s.code[b.toNat]? = some c ∧ c.valid = true)
    (he : s.code[256]? = some e) (hev : e.valid = true) :
    ∃ tr, encodeBody s = .ok ()
      { s with
        inPos := s.inBits.length
        outBits := s.outBits ++ codeBits s.code (bytesOfBits s.unread) ++ e.seq
        answers := s.answers.drop (2 * (bytesOfBits s.unread).length + 2)
        trace := tr } := by
  obtain ⟨tr, h⟩ := encodeLoop_ok (fuel := s.readBound) hq
    (by rw [State.unread_length, State.readBound]; omega) hfit hb
  have hf := hfit.of_get he hev
  rw [encodeBody, require_true (by simp [State.outOpen, hv, hc]), Res.bind_ok, h, Res.bind_ok]
  generalize hs1 : ({ s with
      inPos := s.inBits.length
      outBits := s.outBits ++ codeBits s.code (bytesOfBits s.unread)
      answers := s.answers.drop (2 * (bytesOfBits s.unread).length + 1)
      trace := tr } : State) = s1
  have hq1 : s1.Quiet := by rw [← hs1]; exact hq.of_drop rfl
  have he1 : s1.code[Config.sentinel]? = some e := by rw [← hs1]; exact he
  rw [emitSymbol_ok hq1.failsNext he1 hev hf.1 hf.2]
  exact ⟨(s1.putBits e.len.toNat e.bits.toNat).trace, by
    simp [← hs1, State.putBits, State.logCall, Code.seq]⟩

/-- CLOSE (R192). -/
theorem closeBody_ok {s : State} (hq : s.Quiet) (hc : s.outClosed = false) :
    closeBody s = .ok () s.closeUp.setOutClosed := by
  rw [closeBody, require_true (by simp [State.outOpen, hc]), Res.bind_ok,
    closeOut_ok hq.failsNext, Res.bind_ok]

/-- REWIND (R194). -/
theorem rewindBody_ok {s : State} (hq : s.Quiet) : rewindBody s = .ok () s.rewound :=
  rewindIn_ok hq.failsNext

/-- RDMAGIC of MAGIC (R156). -/
theorem rdmagicBody_ok {s : State} {rest : Bits} (hq : s.Quiet)
    (hu : s.unread = bitsOf 32 Config.magic.toNat ++ rest) :
    rdmagicBody s = .ok () (s.takeBits 32) := by
  rw [rdmagicBody, rd_field (v := Config.magic) (by omega) hq hu, Res.bind_ok]
  simp

/-- RDTREE of a header (R160). -/
theorem rdtreeBody_ok {s : State} {t : Tree} {rest : Bits} (hq : s.Quiet) (ht : HeaderTree t)
    (hu : s.unread = headerBits t ++ rest) :
    ∃ node nc tr, rdtreeBody s = .ok ()
        { s with
          node := node
          ncount := nc
          root := 0
          treeValid := true
          codeValid := false
          inPos := s.inPos + (11 * leafCount t - 1)
          answers := s.answers.drop (3 * leafCount t - 1)
          trace := tr } ∧
      PreOrder node t 0 ∧ nc.toNat = 2 * leafCount t - 1 := by
  obtain ⟨⟨l, r, rfl⟩, hc, hl⟩ := ht
  have hd := treeDepth_lt (.node l r)
  have hpos := leafCount_pos (.node l r)
  have h00 : (0 : Index).toNat = 0 := rfl
  obtain ⟨node, tr, h1, h2, -⟩ := getTree_ok (fuel := walkBound) (s := s.clearTree.noNodes)
    (t := .node l r) (rest := rest) hq hu hl (by rw [State.noNodes_ncount, h00]; omega)
    (by simp only [walkBound, Config.nodeCap]; omega)
  rw [State.noNodes_ncount, h00] at h1 h2
  refine ⟨node, BitVec.ofNat 10 (0 + (2 * leafCount (.node l r) - 1)), tr, ?_, h2, ?_⟩
  · rw [rdtreeBody, h1, Res.bind_ok,
      readNode_some (n := Node.mkNode 1 (1 + (2 * leafCount l - 1)) 0) h2.1, Res.bind_ok,
      if_neg (by simp [Node.mkNode])]
    simp [State.setTreeValid, State.noNodes, State.clearTree]
  · simp
    omega

/-- The tree that RDTREE stored. -/
theorem PreOrder.tree {s : State} {t : Tree} (h : PreOrder s.node t 0) (hr : s.root = 0)
    (hc : leafCount t ≤ 257) : s.tree = some t := by
  have hd := treeDepth_lt t
  rw [State.tree, hr]
  exact treeAt_mono (h.treeAt (by omega)) (by simp only [walkBound, Config.nodeCap]; omega)

/-- DECODE of the code words of some literals and of a sentinel leaf (R180). -/
theorem decodeBody_ok {s : State} {l r : Tree} {ws : List (Sym × Bits)} {v : Sym} {p rest : Bits}
    (hq : s.Quiet) (hv : s.treeValid = true) (hc : s.outClosed = false)
    (ht : s.tree = some (.node l r)) (hw : LiteralLeaves (.node l r) ws)
    (hp : (v, p) ∈ leafPaths (.node l r)) (h256 : v.toNat = 256)
    (hu : s.unread = pathBits ws ++ p ++ rest) :
    ∃ tr, decodeBody s = .ok ()
      { s with
        inPos := s.inPos + (pathBits ws ++ p).length
        outBits := s.outBits ++ literalBits ws
        answers := s.answers.drop ((pathBits ws ++ p).length + ws.length)
        trace := tr } := by
  have hlen : (pathBits ws).length + p.length + rest.length = s.inBits.length - s.inPos := by
    rw [← State.unread_length, hu]
    simp
    omega
  rw [List.append_assoc] at hu
  obtain ⟨k, hk⟩ : ∃ k, s.readBound = k + p.length + (pathBits ws).length :=
    ⟨rest.length + 1, by rw [State.readBound]; omega⟩
  obtain ⟨tr, e⟩ := decodeLoop_literals (fuel := k + p.length) hq ht hw hu
  rw [decodeBody, require_true (by simp [State.outOpen, hv, hc]), Res.bind_ok, hk, e]
  generalize hs1 : ({ s with
      inPos := s.inPos + (pathBits ws).length
      outBits := s.outBits ++ literalBits ws
      answers := s.answers.drop ((pathBits ws).length + ws.length)
      trace := tr } : State) = s1
  have hq1 : s1.Quiet := by rw [← hs1]; exact hq.of_drop rfl
  have ht1 : treeAt s1.node walkBound s.root.toNat = some (.node l r) := by rw [← hs1]; exact ht
  have hu1 : s1.unread = p ++ rest := by
    rw [← hs1]
    have : s.inBits.drop (s.inPos + (pathBits ws).length) = s.unread.drop (pathBits ws).length := by
      simp [State.unread]
    refine this.trans ?_
    rw [hu, List.drop_left]
  obtain ⟨tr2, e2⟩ := decodeLoop_path (fuel := k) hq1 ht1 hp hu1
  rw [e2, afterLeaf, if_pos h256]
  refine ⟨tr2, ?_⟩
  simp [← hs1, Nat.add_assoc]
  omega

/-- DECODE of a symbol stream cut short (R181). -/
theorem decodeBody_short {s : State} {l r : Tree} {ws : List (Sym × Bits)} {v : Sym} {p q : Bits}
    (hq : s.Quiet) (hv : s.treeValid = true) (hc : s.outClosed = false)
    (ht : s.tree = some (.node l r)) (hw : LiteralLeaves (.node l r) ws)
    (hp : (v, p) ∈ leafPaths (.node l r)) (hqp : q <+: p) (hne : q ≠ p)
    (hu : s.unread = pathBits ws ++ q) :
    ∃ an tr, decodeBody s = .raise .fmtStream
      { s with
        inPos := s.inBits.length
        outBits := s.outBits ++ literalBits ws
        answers := an
        trace := tr } := by
  have hlen : (pathBits ws).length + q.length = s.inBits.length - s.inPos := by
    rw [← State.unread_length, hu]
    simp
  obtain ⟨k, hk, hk2⟩ : ∃ k, s.readBound = k + (pathBits ws).length ∧ q.length < k :=
    ⟨q.length + 1, by rw [State.readBound]; omega, by omega⟩
  obtain ⟨tr, e⟩ := decodeLoop_literals (fuel := k) hq ht hw hu
  rw [decodeBody, require_true (by simp [State.outOpen, hv, hc]), Res.bind_ok, hk, e]
  generalize hs1 : ({ s with
      inPos := s.inPos + (pathBits ws).length
      outBits := s.outBits ++ literalBits ws
      answers := s.answers.drop ((pathBits ws).length + ws.length)
      trace := tr } : State) = s1
  have hq1 : s1.Quiet := by rw [← hs1]; exact hq.of_drop rfl
  have ht1 : treeAt s1.node walkBound s.root.toNat = some (.node l r) := by rw [← hs1]; exact ht
  have hu1 : s1.unread = q := by
    rw [← hs1]
    have : s.inBits.drop (s.inPos + (pathBits ws).length) = s.unread.drop (pathBits ws).length := by
      simp [State.unread]
    refine this.trans ?_
    rw [hu, List.drop_left]
  obtain ⟨tr2, e2⟩ := decodeLoop_short hq1 ht1 hp hqp hne hu1 hk2
  exact ⟨_, _, by rw [e2, ← hs1]⟩

end Sys2Proof.Machine
end

