-- ==== Sys2Proof/Laws/PerInstr.lean ====
section
/-! SUPPORT. Facts about every instruction as syntax, one lemma per constructor. Family `Width`: a
well-formed instruction is encoded in the number of bits that spec/opcode_table.json gives its row
(30_encoding.md R80, R86, R87, R89, R90), at least 1 and at most 256 (20_memory.md R56). -/

namespace Sys2Proof.Laws.Width

/-- The width of the encoding: the table's `bits`, for CODEWORD the LEN of its code. -/
def width : Instr → Nat
  | .clear => 8
  | .count => 8
  | .build => 8
  | .derive => 8
  | .wrmagic => 8
  | .wrtree => 8
  | .encode => 8
  | .close => 8
  | .rewind => 8
  | .rdmagic => 8
  | .rdtree => 8
  | .decode => 8
  | .compress => 8
  | .decompress => 8
  | .magic _ => 32
  | .hdrInternal => 1
  | .hdrLeaf _ => 10
  | .codeword len _ => len.toNat
  | .literal8 _ => 8

/-- The encoding of a well-formed instruction has its width, 1 to 256 bits. -/
def Statement (i : Instr) : Prop :=
  i.wellFormed = true → i.bits.length = width i ∧ 1 ≤ width i ∧ width i ≤ 256

theorem clear : Statement .clear := by simp [Statement, Instr.bits, width]
theorem count : Statement .count := by simp [Statement, Instr.bits, width]
theorem build : Statement .build := by simp [Statement, Instr.bits, width]
theorem derive : Statement .derive := by simp [Statement, Instr.bits, width]
theorem wrmagic : Statement .wrmagic := by simp [Statement, Instr.bits, width]
theorem wrtree : Statement .wrtree := by simp [Statement, Instr.bits, width]
theorem encode : Statement .encode := by simp [Statement, Instr.bits, width]
theorem close : Statement .close := by simp [Statement, Instr.bits, width]
theorem rewind : Statement .rewind := by simp [Statement, Instr.bits, width]
theorem rdmagic : Statement .rdmagic := by simp [Statement, Instr.bits, width]
theorem rdtree : Statement .rdtree := by simp [Statement, Instr.bits, width]
theorem decode : Statement .decode := by simp [Statement, Instr.bits, width]
theorem compress : Statement .compress := by simp [Statement, Instr.bits, width]
theorem decompress : Statement .decompress := by simp [Statement, Instr.bits, width]
theorem magic (m : BitVec 32) : Statement (.magic m) := by simp [Statement, Instr.bits, width]
theorem hdrInternal : Statement .hdrInternal := by simp [Statement, Instr.bits, width]
theorem hdrLeaf (v : Sym) : Statement (.hdrLeaf v) := by simp [Statement, Instr.bits, width]
theorem literal8 (b : Byte) : Statement (.literal8 b) := by simp [Statement, Instr.bits, width]

theorem codeword (len : CodeLen) (bits : BitVec 256) : Statement (.codeword len bits) := by
  intro h
  simp [Instr.wellFormed, codeFits, Config.maxLen] at h
  simp [Instr.bits, width, h.1]

end Sys2Proof.Laws.Width
end

