-- ==== Sys2Proof/Tests/Slice0.lean ====
section
/-! SUPPORT. Tests: the well-formedness checks refuse, words written out from the spec's encodings
decode, one-step vectors of spec/95_test_vectors.md (the name of each vector stands in the comment),
and a witness for the hypotheses of every statement. -/

open Sys2Proof Sys2Proof.Machine

namespace Sys2Proof.Tests

-- one kernel evaluation after the other: each waits for the ones before it anyway
set_option Elab.async false

/-! ## Helpers -/

/-- The state of a next outcome, the reset state else. -/
def nextOf : Host.Outcome State Fault Refusal → State
  | .next t => t
  | .fault _ => State.reset
  | .refused _ => State.reset

/-- The outcome is a next state. -/
def isNext : Host.Outcome State Fault Refusal → Bool
  | .next _ => true
  | .fault _ => false
  | .refused _ => false

theorem eq_next {o : Host.Outcome State Fault Refusal} (h : isNext o = true) :
    o = .next (nextOf o) := by
  cases o with
  | next t => rfl
  | fault r => simp [isNext] at h
  | refused r => simp [isNext] at h

/-- A list written over the start of a vector. -/
def fillFrom {α : Type} {n : Nat} (v : Vector α n) : Nat → List α → Vector α n
  | _, [] => v
  | k, a :: l => if h : k < n then fillFrom (v.set k a h) (k + 1) l else v

/-- A file of the bytes of some numbers. -/
def bytesIn (l : List Nat) : Bits := bitsOfBytes (l.map (BitVec.ofNat 8))

/-- The bits of a string of 0 and 1. -/
def str (s : String) : Bits := (s.toList.filter (fun c => c == '0' || c == '1')).map (· == '1')

/-- The reset state with an input (95, "Conventions"). -/
def start (q : Bits) : State := { State.reset with inBits := q }

/-- The Frequency Table of V-F2: 41 41 42. -/
def freqF2 : Vector Count 257 :=
  (((Vector.replicate 257 0).set 0x41 2).set 0x42 1).set 256 1

/-- The nodes of V-B5. -/
def nodesB5 : Vector Node 513 :=
  fillFrom (Vector.replicate 513 Node.zero) 0
    [.mkLeaf 0x41 2, .mkLeaf 0x42 1, .mkLeaf 256 1, .mkNode 1 2 2, .mkNode 0 3 4]

/-- The codes of V-D5. -/
def codesD5 : Vector Code 257 :=
  (((Vector.replicate 257 Code.none).set 0x41 ⟨true, 1, 0⟩).set 0x42 ⟨true, 2, 2⟩).set 256
    ⟨true, 2, 3⟩

/-- After COUNT; BUILD; DERIVE; REWIND on 41 41 42. -/
def full : State :=
  { start (bytesIn [0x41, 0x41, 0x42]) with
    freqValid := true, treeValid := true, codeValid := true, freq := freqF2, node := nodesB5,
    code := codesD5, root := 4, ncount := 5 }

/-- After COUNT on no input. -/
def emptyCount : State :=
  { State.reset with freqValid := true, freq := (Vector.replicate 257 0).set 256 1 }

/-- The tree of V-B5. -/
def treeB5 : Tree := .node (.leaf 0x41) (.node (.leaf 0x42) (.leaf 256))

/-- The state with OUT closed. -/
def closed : State := { State.reset with outClosed := true, outShut := true }

/-- The state in FAULT of V-K7. -/
def faulted : State := { full with mode := .fault, err := ⟨4, 0xB, 0xD⟩ }

/-! ## Well-formedness refuses -/

theorem magic_succ_ne : Config.magic + 1#32 ≠ Config.magic := by
  intro h
  have := congrArg (· - Config.magic) h
  simp at this

theorem test_wf_refuses_other_magic : (Instr.magic (Config.magic + 1)).wellFormed = false := by
  simp [Instr.wellFormed]

theorem test_wf_refuses_symbol_257 : (Instr.hdrLeaf 257).wellFormed = false := by decide

theorem test_wf_refuses_empty_code : (Instr.codeword 0 0).wellFormed = false := by decide

theorem test_wf_refuses_long_code : (Instr.codeword 257 0).wellFormed = false := by decide +kernel

theorem test_wf_refuses_bits_above_len : (Instr.codeword 3 8).wellFormed = false := by
  decide +kernel

theorem test_wf_accepts_bounds :
    (Instr.hdrLeaf 256).wellFormed = true ∧ (Instr.codeword 1 1).wellFormed = true ∧
    (Instr.codeword 256 (BitVec.allOnes 256)).wellFormed = true := by decide +kernel

/-! ## Decoding: words written out from the encodings of spec/30_encoding.md -/

/-- Bits 7 to 4 are RSV = 0, bits 3 to 0 are OP (R80, R81). -/
theorem test_decode_commands :
    decodeCommand 0b00000000 = .command .clear ∧ decodeCommand 0b00000001 = .command .count ∧
    decodeCommand 0b00000010 = .command .build ∧ decodeCommand 0b00000011 = .command .derive ∧
    decodeCommand 0b00000100 = .command .wrmagic ∧ decodeCommand 0b00000101 = .command .wrtree ∧
    decodeCommand 0b00000110 = .command .encode ∧ decodeCommand 0b00000111 = .command .close ∧
    decodeCommand 0b00001000 = .command .rewind ∧ decodeCommand 0b00001001 = .command .rdmagic ∧
    decodeCommand 0b00001010 = .command .rdtree ∧ decodeCommand 0b00001011 = .command .decode ∧
    decodeCommand 0b00001100 = .command .compress ∧
    decodeCommand 0b00001101 = .command .decompress := by decide

/-- R83. -/
theorem test_decode_reserved :
    decodeCommand 0b00001110 = .illegal .reservedOp ∧
    decodeCommand 0b00001111 = .illegal .reservedOp ∧
    decodeCommand 0b00010000 = .illegal .reservedBits ∧
    decodeCommand 0b10011111 = .illegal .reservedBits := by decide

/-- No word matches two rows. -/
theorem test_command_rows_disjoint :
    commandTable.Pairwise fun r u => (r.pat ^^^ u.pat) &&& (r.mask &&& u.mask) ≠ 0 := by decide

/-- R86: the token MAGIC is 32 bits, first bit most significant; fewer bits are E_FMT_MAGIC. -/
theorem test_decode_magic (rest : Bits) :
    decodeToken .magic (bitsOf 32 Config.magic.toNat ++ rest) = .token (.magic Config.magic) rest ∧
    decodeToken .magic (List.replicate 31 true) = .reject .fmtMagic := by
  constructor
  · rw [decodeToken, if_neg (by simp),
      fieldAt_bitsOf (v := Config.magic) (rest := rest) (by simp), if_pos rfl,
      List.drop_left' (bitsOf_length _ _)]
  · rw [decodeToken, if_pos (by simp)]

/-- R87, R88 (S2): 0 is an internal node, 1 100000000 the sentinel's leaf, 1 001000001 the leaf of
0x41; 1 100000001 is Symbol 257. -/
theorem test_decode_header_tokens :
    decodeToken .header (str "0 1001") = .token .hdrInternal (str "1001") ∧
    decodeToken .header (str "1 100000000 0") = .token (.hdrLeaf 256) [false] ∧
    decodeToken .header (str "1 001000001") = .token (.hdrLeaf 0x41) [] ∧
    decodeToken .header (str "1 100000001") = .reject .fmtHdrBad ∧
    decodeToken .header (str "1 10000000") = .reject .fmtHdrTrunc ∧
    decodeToken .header [] = .reject .fmtHdrTrunc := by decide

/-- R90: with the tree of V-B5, "10" is the code of 0x42, "0" that of 0x41; "1" is cut short. -/
theorem test_decode_codeword :
    decodeToken (.symbols treeB5) (str "10 11") = .token (.codeword 2 2) (str "11") ∧
    decodeToken (.symbols treeB5) (str "0") = .token (.codeword 1 0) [] ∧
    decodeToken (.symbols treeB5) (str "1") = .reject .fmtStream := by decide

/-- R89. -/
theorem test_decode_literal :
    decodeToken .plain (str "01000001 1") = .token (.literal8 0x41) [true] ∧
    decodeToken .plain (str "0100000") = .ended := by decide

theorem test_decodeTableWord :
    decodeTableWord 8 0x0D = some .decompress ∧ decodeTableWord 8 0x1D = none ∧
    decodeTableWord 10 0b1001000001 = some (.hdrLeaf 0x41) ∧
    decodeTableWord 16 0b1100000000 = some (.hdrLeaf 256) := by decide +kernel

/-- R84: a program's lines assemble to their words (P3's first three). -/
theorem test_assemble :
    assemble ["COUNT", "BUILD", "DERIVE"] = some [0x01, 0x02, 0x03] ∧ assemble ["NOP"] = none := by
  decide

/-! ## Streams (spec/20_memory.md) -/

/-- R58: the earlier bit of a byte is the more significant. -/
theorem test_byte_order :
    bytesIn [0x41, 0x80] = str "01000001 10000000" ∧
    bytesOfBits (str "01000001 0100") = [0x41] := by decide

/-! ## One step each, from the vectors of spec/95_test_vectors.md -/

/-- V-K7. -/
theorem test_clear_leaves_fault :
    let t := nextOf (exec .clear faulted)
    t.statusWord = 0 ∧ t.err.word = 0 ∧ t.root = 0 ∧ t.ncount = 0 := by decide +kernel

/-- V-F2. -/
theorem test_count_F2 :
    let t := nextOf (exec .count (start (bytesIn [0x41, 0x41, 0x42])))
    t.freq = freqF2 ∧ t.inPos = 24 ∧ t.statusWord = 0x04 := by decide +kernel

/-- V-F5: four leftover bits are consumed and not counted. -/
theorem test_count_F5 :
    let t := nextOf (exec .count (start (str "01000001 0100")))
    t.freq[0x41] = 1 ∧ t.freq[256] = 1 ∧ t.inPos = 12 := by decide +kernel

/-- V-B5, with the NODE inspection words. -/
theorem test_build_B5 :
    let t := nextOf (exec .build { State.reset with freqValid := true, freq := freqF2 })
    (t.node.toList.take 5).map (fun n => n.word.toNat) =
      [0x080000083, 0x040000085, 0x040000201, 0x080200400, 0x100300000] ∧
    t.root = 4 ∧ t.ncount = 5 ∧ t.statusWord = 0x0C := by decide +kernel

/-- V-B1: the twin sentinel. -/
theorem test_build_B1 :
    let t := nextOf (exec .build emptyCount)
    (t.node.toList.take 3).map (fun n => n.word.toNat) = [0x040000201, 0x000000201, 0x040100000] ∧
    t.root = 2 ∧ t.ncount = 3 := by decide +kernel

/-- V-D5, with the CODE inspection words. -/
theorem test_derive_D5 :
    let t := nextOf (exec .derive { full with codeValid := false, code := State.reset.code })
    t.code = codesD5 ∧ t.code[0x41].word = 0x3 ∧ t.code[0x42].word = 0x805 ∧
    t.code[256].word = 0xC05 := by decide +kernel

/-- V-D1: of the two sentinel leaves the last one visited wins. -/
theorem test_derive_D1 :
    let t := nextOf (exec .derive
      { State.reset with
        treeValid := true, root := 2, ncount := 3,
        node := fillFrom (Vector.replicate 513 Node.zero) 0
          [.mkLeaf 256 1, .mkLeaf 256 0, .mkNode 0 1 1] })
    t.code = (Vector.replicate 257 Code.none).set 256 ⟨true, 1, 1⟩ := by decide +kernel

/-- V-H0: 32 bits, and nothing of the input is read. -/
theorem test_wrmagic_width :
    (nextOf (exec .wrmagic State.reset)).outBits.length = 32 ∧
    (nextOf (exec .wrmagic State.reset)).trace.length = 1 := by decide +kernel

/-- V-K5. -/
theorem test_wrmagic_closed :
    (nextOf (exec .wrmagic closed)).err.word = 0x448 := by decide +kernel

/-- V-H5. -/
theorem test_wrtree_H5 :
    (nextOf (exec .wrtree full)).outBits = str "0 1001000001 0 1001000010 1100000000" := by
  decide +kernel

/-- V-P3. -/
theorem test_wrtree_without_tree :
    (nextOf (exec .wrtree State.reset)).err.word = 0x558 := by decide +kernel

/-- V-E5. -/
theorem test_encode_E5 :
    (nextOf (exec .encode full)).outBits = str "0 0 10 11" ∧
    (nextOf (exec .encode full)).inPos = 24 := by decide +kernel

/-- V-E13: a value without a code. -/
theorem test_encode_E13 :
    let t := nextOf (exec .encode { full with inBits := str "0 1001000001 1100000000" })
    t.err.word = 0x667 ∧ t.outBits = [] ∧ t.inPos = 8 := by decide +kernel

/-- V-K1. -/
theorem test_close_K1 :
    let t := nextOf (exec .close { State.reset with outBits := List.replicate 54 true })
    t.outBits = List.replicate 54 true ++ [false, false] ∧ t.statusWord = 0x20 := by
  decide +kernel

/-- V-K4. -/
theorem test_close_K4 :
    (nextOf (exec .close closed)).err.word = 0x778 ∧
    (nextOf (exec .close closed)).statusWord = 0x22 := by decide +kernel

/-- V-K6. -/
theorem test_rewind_K6 :
    (nextOf (exec .rewind { full with inPos := 24 })).inPos = 0 := by decide +kernel

/-- V-T3: 24 bits are too few. -/
theorem test_rdmagic_T3 :
    let t := nextOf (exec .rdmagic (start (bytesIn [0xFA, 0xCE, 0x82])))
    t.err.word = 0x991 ∧ t.inPos = 24 := by decide +kernel

/-- V-T5, with the NODE inspection words. -/
theorem test_rdtree_T5 :
    let t := nextOf (exec .rdtree (start (str "0 1001000001 0 1001000010 1100000000")))
    (t.node.toList.take 5).map (fun n => n.word.toNat) = [0x200400, 0x83, 0x400C00, 0x85, 0x201] ∧
    t.root = 0 ∧ t.ncount = 5 ∧ t.inPos = 32 ∧ t.statusWord = 0x08 := by decide +kernel

/-- V-T11: Symbol 257. -/
theorem test_rdtree_T11 :
    let t := nextOf (exec .rdtree (start (str "0 1001000001 1100000001")))
    t.err.word = 0xAA3 ∧ t.inPos = 21 ∧ t.statusWord = 0x02 := by decide +kernel

/-- V-X5: the padding stays unread. -/
theorem test_decode_X5 :
    let t := nextOf (exec .decode { full with inBits := str "0 0 10 11 00" })
    t.outBits = bytesIn [0x41, 0x41, 0x42] ∧ t.inPos = 6 := by decide +kernel

/-- V-X6: the input ends inside a code word. -/
theorem test_decode_X6 :
    let t := nextOf (exec .decode { full with inBits := str "0 0 1" })
    t.outBits = bytesIn [0x41, 0x41] ∧ t.err.word = 0xBB4 ∧ t.inPos = 3 := by decide +kernel

/-- P1: after the 32 bits of the magic, the bytes 48 29 0B 00 2C; 22 port calls. -/
theorem test_compress_P1 :
    let t := nextOf (exec .compress (start (bytesIn [0x41, 0x41, 0x42])))
    t.outBits.drop 32 = bytesIn [0x48, 0x29, 0x0B, 0x00, 0x2C] ∧ t.outBits.length = 72 ∧
    t.statusWord = 0x3C ∧ t.inPos = 24 ∧ t.trace.length = 4 + 1 + 8 + 1 + 4 + 4 + 1 := by
  decide +kernel

/-- P6: a second COMPRESS finds OUT closed. -/
theorem test_compress_closed :
    let t := nextOf (exec .compress { full with outClosed := true, outShut := true })
    t.err.word = 0xCC8 ∧ t.statusWord = 0x3E := by decide +kernel

/-- P5, with the three-byte input. -/
theorem test_decompress_P5 :
    let t := nextOf (exec .decompress (start (bytesIn [0xFA, 0xCE, 0x82])))
    t.err.word = 0xD91 ∧ t.inPos = 24 ∧ t.outBits = [] ∧ t.statusWord = 0x02 := by decide +kernel

/-- R87, R89, R90: what the tokens append. -/
theorem test_token_bits :
    (nextOf (exec .hdrInternal State.reset)).outBits = str "0" ∧
    (nextOf (exec (.hdrLeaf 256) State.reset)).outBits = str "1100000000" ∧
    (nextOf (exec (.codeword 3 5) State.reset)).outBits = str "101" ∧
    (nextOf (exec (.literal8 0x41) State.reset)).outBits = str "01000001" := by decide +kernel

/-- R93 (V-T11): a leaf of Symbol 257 is rejected. -/
theorem test_token_rejected :
    (nextOf (exec (.hdrLeaf 257) State.reset)).err.word = 0xAA3 := by decide +kernel

/-- V-P8, V-P9: a step over a reserved word. -/
theorem test_step_reserved :
    (nextOf (step (State.reset.withFetchWord 8 0x10))).err.word = 0x009 ∧
    (nextOf (step (State.reset.withFetchWord 8 0x9F))).err.word = 0xFF9 := by decide +kernel

/-- V-P1: a step over BUILD right after reset. -/
theorem test_step_build :
    let t := nextOf (step (State.reset.withFetchWord 8 0x02))
    t.err.word = 0x228 ∧ t.statusWord = 0x02 ∧ t.hostOps = [] := by decide +kernel

/-- R32, R22: a host read of STATUS, of NODE[4] of V-B5 and of ID (R27). -/
theorem test_register_reads :
    (regRead 0x001 full).1 = 0x1C ∧ (regRead 0x404 full).1 = 0x100300000 ∧
    (regRead 0x005 full).1 = 0x48460001 ∧ (regRead 0x842 full).1 = 0x805 := by decide +kernel

/-! ## Witnesses: a concrete state and operands that meet the hypotheses of each statement -/

theorem ready_of_no_answers {s : State} (hm : s.mode = .idle) (ha : s.answers = []) : s.Ready :=
  ⟨hm, by simp [State.Quiet, ha]⟩

theorem ready_full : full.Ready := ready_of_no_answers rfl rfl

theorem start_unread (q : Bits) : (start q).unread = q := rfl

/-- The chain of V-D13: `n` internal nodes, each with a leaf on its left. -/
def chain : Nat → Tree
  | 0 => .leaf 256
  | n + 1 => .node (.leaf 0x41) (chain n)

theorem chain_leafCount (n : Nat) : leafCount (chain n) = n + 1 := by
  induction n with
  | zero => rfl
  | succ n ih => simp [chain, leafCount, ih]; omega

theorem chain_labelsFit (n : Nat) : labelsFit (chain n) = true := by
  induction n with
  | zero => decide
  | succ n ih => simp [chain, labelsFit, ih, Config.sentinel]

theorem chain_last (n : Nat) : (256, List.replicate n true) ∈ leafPaths (chain n) := by
  induction n with
  | zero => simp [chain, leafPaths]
  | succ n ih => simpa [chain, leafPaths, List.replicate_succ] using ih

theorem full_tree : full.tree = some treeB5 := by decide +kernel

theorem full_visited : full.visited = some [4, 0, 3, 1, 2] := by decide +kernel

theorem full_treeOk : TreeOk full := by
  refine ⟨by decide, by decide, by decide, by decide, ⟨.mkNode 0 3 4, by decide +kernel, rfl⟩, ?_,
    ⟨_, full_visited, by decide +kernel⟩, ?_⟩
  · have h : ∀ i < 5, ∀ n ∈ full.node[i]?, n.leaf = false →
        n.left.toNat < 5 ∧ n.right.toNat < 5 ∧ n.left ≠ n.right := by decide +kernel
    exact fun i n hi hn => h i hi n hn
  · have h : ∀ i < 5, ∀ n ∈ full.node[i]?, n.leaf = true → n.value.toNat ≤ 256 := by
      decide +kernel
    exact fun i n hi hn => h i hi n hn

theorem full_codeOk : CodeOk full :=
  ⟨treeB5, full_tree, by decide +kernel⟩

theorem full_freqOk : FreqOk full := by constructor <;> decide +kernel

theorem full_productInv : ProductInv full :=
  ⟨fun _ => full_freqOk, fun _ => full_treeOk, fun _ => ⟨rfl, full_codeOk⟩⟩

theorem full_codesFit : CodesFit full := by
  have h : ∀ (k : Nat) (h : k < 257), (full.code[k]'h).valid = true →
    1 ≤ (full.code[k]'h).len.toNat ∧ (full.code[k]'h).len.toNat ≤ 256 := by decide +kernel
  exact h

theorem witness_DecodeOfEncodeIsTheInstruction :
    (Instr.magic Config.magic).wellFormed = true ∧ (Instr.hdrLeaf 256).wellFormed = true ∧
    (Instr.codeword 256 (BitVec.allOnes 256)).wellFormed = true ∧
    (256, (Instr.codeword 256 (BitVec.allOnes 256)).bits) ∈ leafPaths (chain 256) ∧
    (Instr.codeword 1 0).wellFormed = true ∧
    (0x41, (Instr.codeword 1 0).bits) ∈ leafPaths treeB5 := by
  refine ⟨by simp [Instr.wellFormed], by decide, by decide +kernel, ?_, by decide +kernel,
    by decide⟩
  have h : (Instr.codeword 256 (BitVec.allOnes 256)).bits = List.replicate 256 true := by
    decide +kernel
  exact h ▸ chain_last 256

theorem witness_StepRunsDecodedCommand :
    ({ full with hostOps := [.regWrite 0x000 0x06] }.hostOps = .regWrite 0x000 0x06 :: [] ∧
      decodeCommand ((0x06 : BitVec 266).setWidth 8) = .command .encode) ∧
    ((13 : Nat) < 256 ∧ decodeTableWord 8 13 = some .decompress) ∧ State.reset.hostOps = [] :=
  ⟨⟨rfl, by decide +kernel⟩, ⟨by decide, by decide⟩, rfl⟩

theorem witness_ReservedWordRaisesIllcmd :
    ({ full with hostOps := [.regWrite 0x000 0x0E] }.mode = .idle ∧
      opOf ((0x0E : BitVec 266).setWidth 8) = 0xE) ∧
    opOf ((0x0F : BitVec 266).setWidth 8) = 0xF ∧
    ((0x10 : BitVec 266).setWidth 8).extractLsb' 4 4 ≠ 0#4 :=
  ⟨⟨rfl, by decide +kernel⟩, by decide +kernel, by decide +kernel⟩

theorem witness_CommandsIgnoredOutsideIdle :
    (faulted.mode = .fault ∧ Instr.count ≠ .clear) ∧ { full with mode := .busy }.mode = .busy ∧
    faulted.mode ≠ .idle := by decide

theorem witness_FailedPreconditionRaisesSeq :
    (State.reset.mode = .idle ∧ State.reset.freqValid = false ∧ State.reset.treeValid = false ∧
      State.reset.codeValid = false) ∧
    (closed.mode = .idle ∧ closed.outClosed = true) := by decide

/-- `full` with a first port call that fails. -/
def failing : State := { full with answers := [true] }

theorem witness_FailedPortCallRaisesIo :
    failing.mode = .idle ∧ failing.answers = true :: [] ∧ failing.outClosed = false ∧
    failing.codeValid = true ∧ failing.treeValid = true ∧ TreeOk failing ∧
    (Instr.count, (1 : OpCode), (1 : OpCode), 8) ∈
      [(Instr.count, (1 : OpCode), (1 : OpCode), 8), (.rdmagic, 9, 9, 32), (.rdtree, 0xA, 0xA, 1)] ∧
    (Instr.decompress, (9 : OpCode), (0xD : OpCode), 32) ∈
      [(Instr.compress, (1 : OpCode), (0xC : OpCode), 8), (.decompress, 9, 0xD, 32)] :=
  ⟨rfl, rfl, rfl, rfl, rfl, full_treeOk, by decide, by decide⟩

theorem witness_ClearStartsNewSession : full.mode ≠ .busy ∧ faulted.mode ≠ .busy := by decide

theorem witness_RegisterReadsGiveTheRegisters :
    full.mode ≠ .busy ∧ (full.freqValid = true ∧ full.freq[256]? = some 1) ∧
    (full.treeValid = true ∧ 4 < full.ncount.toNat ∧ full.node[4]? = some (.mkNode 0 3 4)) ∧
    (full.codeValid = true ∧ full.code[256]? = some ⟨true, 2, 3⟩) ∧
    (6 ≤ 6 ∧ 0xFF < 0x100) ∧ (0x201 ≤ 0x201 ∧ 0x3FF < 0x400) ∧ (0x601 ≤ 0x601 ∧ 0x7FF < 0x800) ∧
    0x901 ≤ 0x901 := by decide +kernel

/-- The node store may be full: NODE[512] is register 0x600. -/
theorem witness_RegisterReadsGiveTheRegisters_last :
    { full with ncount := 513 }.mode ≠ .busy ∧ 512 < { full with ncount := 513 }.ncount.toNat ∧
    { full with ncount := 513 }.node[512]? = some Node.zero := by decide +kernel

theorem witness_ReadsAndOtherWritesHaveNoEffect : (0x001 : Nat) ≠ 0x000 := by decide

theorem witness_CountBuildsFrequencyTable :
    full.Ready ∧ (bytesOfBits full.unread).length ≤ 2 ^ 32 - 2 :=
  ⟨ready_full, by decide⟩

/-- The longest input that COUNT accepts (V-F7). -/
theorem witness_CountBuildsFrequencyTable_longest :
    (start (List.replicate (8 * (2 ^ 32 - 2)) false)).Ready ∧
    (bytesOfBits (start (List.replicate (8 * (2 ^ 32 - 2)) false)).unread).length ≤ 2 ^ 32 - 2 := by
  refine ⟨ready_of_no_answers rfl rfl, ?_⟩
  rw [bytesOfBits_length, start_unread, List.length_replicate]
  norm_num

theorem witness_CountOverflowFaults :
    (start (List.replicate (8 * (2 ^ 32 - 1)) false)).Ready ∧
    8 * (2 ^ 32 - 1) ≤ (start (List.replicate (8 * (2 ^ 32 - 1)) false)).unread.length := by
  refine ⟨ready_of_no_answers rfl rfl, ?_⟩
  rw [start_unread, List.length_replicate]

theorem witness_SentinelCountIsOne :
    full.mode = .idle ∧ exec .count full = .next (nextOf (exec .count full)) ∧
    (nextOf (exec .count full)).freqValid = true :=
  ⟨rfl, eq_next (by decide +kernel), by decide +kernel⟩

theorem witness_ExtractionTakesTheLeast :
    [(⟨2, 0⟩ : Cand), ⟨1, 1⟩, ⟨1, 2⟩] ≠ [] ∧
    ([(⟨2, 0⟩ : Cand), ⟨1, 1⟩, ⟨1, 2⟩].map (·.idx)).Nodup := by decide

/-- Every Symbol once: 257 leaves. -/
def allOnes : State := { State.reset with freqValid := true, freq := Vector.replicate 257 1 }

theorem witness_BuildEndState :
    (emptyCount.mode = .idle ∧ emptyCount.freqValid = true ∧ 0 < emptyCount.freq[256] ∧
      (positives emptyCount.freq).length = 1) ∧
    (allOnes.mode = .idle ∧ allOnes.freqValid = true ∧ 0 < allOnes.freq[256] ∧
      2 ≤ (positives allOnes.freq).length) := by decide +kernel

theorem witness_EmptyInputBuildsTheTwinTree :
    emptyCount.mode = .idle ∧ emptyCount.freqValid = true ∧
    (∀ k < 256, emptyCount.freq[k]? = some 0) ∧ 0 < emptyCount.freq[256] := by decide +kernel

theorem witness_LeftChildIsExtractedFirst :
    full.mode = .idle ∧ full.freqValid = true ∧ 0 < full.freq[256] ∧
    2 ≤ (positives full.freq).length := by decide +kernel

/-- A table whose counts sum to 2^32 - 1. -/
def heaviest : State :=
  { State.reset with
    freqValid := true
    freq := ((Vector.replicate 257 0).set 7 (BitVec.ofNat 32 (2 ^ 32 - 2))).set 256 1 }

theorem witness_BuiltTreeWeights :
    (full.mode = .idle ∧ full.freqValid = true ∧ FreqOk full) ∧
    (heaviest.mode = .idle ∧ heaviest.freqValid = true ∧ FreqOk heaviest) :=
  ⟨⟨rfl, rfl, full_freqOk⟩, ⟨rfl, rfl, by constructor <;> decide +kernel⟩⟩

theorem witness_BuildRefinesTheGreedyQueue :
    full.mode = .idle ∧ full.freqValid = true ∧ 0 < full.freq[256] := by decide +kernel

/-- A table without a positive count. -/
def noCount : State := { State.reset with freqValid := true }

theorem witness_NoLeafRaisesIntEmpty :
    noCount.mode = .idle ∧ noCount.freqValid = true ∧
    (∀ k < 257, noCount.freq[k]? = some 0) := by decide +kernel

theorem witness_DeriveAssignsPaths : full.mode = .idle ∧ full.treeValid = true ∧ TreeOk full :=
  ⟨rfl, rfl, full_treeOk⟩

theorem witness_ValidCodesFitTheirLength :
    ProductInv full ∧ full.codeValid = true ∧
    (full.code[0x42]? = some ⟨true, 2, 2⟩ ∧ (⟨true, 2, 2⟩ : Code).valid = true) ∧
    (full.code[0]? = some Code.none ∧ Code.none.valid = false) :=
  ⟨full_productInv, rfl, by decide +kernel⟩

theorem witness_CodesArePrefixFree :
    ProductInv full ∧ full.codeValid = true ∧ (0x41 : Nat) ≠ 256 ∧
    full.code[0x41]? = some ⟨true, 1, 0⟩ ∧ full.code[256]? = some ⟨true, 2, 3⟩ :=
  ⟨full_productInv, rfl, by decide +kernel⟩

theorem witness_ValidTreeSizeBounds : TreeOk full := full_treeOk

theorem witness_WrmagicAppendsTheMagic : full.Ready ∧ full.outClosed = false := ⟨ready_full, rfl⟩

theorem witness_WrtreeAppendsTheHeader :
    full.Ready ∧ full.treeValid = true ∧ full.outClosed = false ∧ TreeOk full :=
  ⟨ready_full, rfl, rfl, full_treeOk⟩

theorem witness_RdmagicChecksTheMagic :
    ((start (bitsOf 32 Config.magic.toNat)).Ready ∧
      (start (bitsOf 32 Config.magic.toNat)).inPos + 32 ≤
        (start (bitsOf 32 Config.magic.toNat)).inBits.length ∧
      fieldAt 32 (start (bitsOf 32 Config.magic.toNat)).inBits 0 = Config.magic) ∧
    ((start (bitsOf 32 (Config.magic + 1#32).toNat)).Ready ∧
      (start (bitsOf 32 (Config.magic + 1#32).toNat)).inPos + 32 ≤
        (start (bitsOf 32 (Config.magic + 1#32).toNat)).inBits.length ∧
      fieldAt 32 (start (bitsOf 32 (Config.magic + 1#32).toNat)).inBits 0 ≠ Config.magic) ∧
    (State.reset.Ready ∧ State.reset.inBits.length < State.reset.inPos + 32) := by
  refine ⟨⟨ready_of_no_answers rfl rfl, by simp [start, State.reset], ?_⟩,
    ⟨ready_of_no_answers rfl rfl, by simp [start, State.reset], ?_⟩,
    ready_of_no_answers rfl rfl, by decide⟩
  · exact fieldAt_bitsOf (rest := []) (by simp [start])
  · rw [fieldAt_bitsOf (v := Config.magic + 1#32) (rest := []) (by simp [start])]
    exact magic_succ_ne

theorem headerTree_B5 : HeaderTree treeB5 := ⟨⟨_, _, rfl⟩, by decide, by decide⟩

/-- The largest tree a header may describe: 257 leaves (V-T16). -/
theorem headerTree_chain : HeaderTree (chain 256) :=
  ⟨⟨_, _, rfl⟩, by rw [chain_leafCount], chain_labelsFit 256⟩

theorem witness_RdtreeRebuildsTheTree :
    ((start (headerBits treeB5 ++ [true])).Ready ∧ HeaderTree treeB5 ∧
      (start (headerBits treeB5 ++ [true])).unread = headerBits treeB5 ++ [true]) ∧
    ((start (headerBits (chain 256))).Ready ∧ HeaderTree (chain 256) ∧
      (start (headerBits (chain 256))).unread = headerBits (chain 256) ++ []) :=
  ⟨⟨ready_of_no_answers rfl rfl, headerTree_B5, rfl⟩, ready_of_no_answers rfl rfl,
    headerTree_chain, by rw [List.append_nil]; rfl⟩

/-- A tree of `n` internal nodes, each with a leaf on its right: its header starts with `n` zeros. -/
def spine : Nat → Tree
  | 0 => .leaf 256
  | n + 1 => .node (spine n) (.leaf 0x41)

theorem spine_tokens (n : Nat) :
    ∃ us, headerTokens (spine (n + 1)) = List.replicate n .hdrInternal ++ .hdrInternal :: us := by
  induction n with
  | zero => exact ⟨_, rfl⟩
  | succ n ih =>
    obtain ⟨us, h⟩ := ih
    exact ⟨us ++ [.hdrLeaf 0x41], by
      rw [spine, headerTokens, h, List.replicate_succ, List.append_assoc]; rfl⟩

theorem internals_wellFormed (n : Nat) :
    ∀ i ∈ List.replicate n Instr.hdrInternal, i.wellFormed = true := fun i hi => by
  rw [List.eq_of_mem_replicate hi]; rfl

/-- A stream of `n` zero bits. -/
theorem zeros_unread (n : Nat) (q : Bits) :
    (start (List.replicate n false ++ q)).unread =
      tokenBits (List.replicate n .hdrInternal) ++ q := by
  simp [start, State.unread, State.reset, tokenBits, Instr.bits, List.flatMap_replicate]

/-- A header cut inside a leaf token, and 513 zero bits (V-T13). -/
theorem witness_TruncatedHeaderFaults :
    ((start (str "0 1001000001 01")).Ready ∧
      headerTokens treeB5 = [.hdrInternal, .hdrLeaf 0x41, .hdrInternal] ++
        .hdrLeaf 0x42 :: [.hdrLeaf 256] ∧
      (∀ i ∈ [Instr.hdrInternal, .hdrLeaf 0x41, .hdrInternal], i.wellFormed = true) ∧
      (start (str "0 1001000001 01")).unread =
        tokenBits [.hdrInternal, .hdrLeaf 0x41, .hdrInternal] ++ [true] ∧
      [true] <+: (Instr.hdrLeaf 0x42).bits ∧ [true] ≠ (Instr.hdrLeaf 0x42).bits) ∧
    ((start (List.replicate 513 false ++ [])).Ready ∧
      (∃ us, headerTokens (spine 514) =
        List.replicate 513 .hdrInternal ++ .hdrInternal :: us) ∧
      (∀ i ∈ List.replicate 513 Instr.hdrInternal, i.wellFormed = true) ∧
      (start (List.replicate 513 false ++ [])).unread =
        tokenBits (List.replicate 513 .hdrInternal) ++ [] ∧
      ([] : Bits) <+: Instr.hdrInternal.bits ∧ ([] : Bits) ≠ Instr.hdrInternal.bits ∧
      (List.replicate 513 Instr.hdrInternal).length ≤ 513) :=
  ⟨⟨ready_of_no_answers rfl rfl, rfl, by decide, by decide, by decide, by decide⟩,
    ready_of_no_answers rfl rfl, spine_tokens 513, internals_wellFormed 513, zeros_unread 513 [],
    by decide, by decide, by rw [List.length_replicate]⟩

/-- A Symbol of 257 with the header cut after it, 514 zero bits (V-T14), and a single leaf. -/
theorem witness_BadHeaderFaults :
    ((start (str "0 1100000001")).Ready ∧
      headerTokens (.node (.leaf 257) (.leaf 0x41)) =
        [.hdrInternal] ++ .hdrLeaf 257 :: [.hdrLeaf 0x41] ∧
      (∀ i ∈ [Instr.hdrInternal], i.wellFormed = true) ∧
      (start (str "0 1100000001")).unread =
        tokenBits [.hdrInternal] ++ (Instr.hdrLeaf 257).bits ++ [] ∧
      256 < (257 : Sym).toNat) ∧
    ((start (List.replicate 513 false ++ ([false] ++ []))).Ready ∧
      (∃ us, headerTokens (spine 514) =
        List.replicate 513 .hdrInternal ++ .hdrInternal :: us) ∧
      (∀ i ∈ List.replicate 513 Instr.hdrInternal, i.wellFormed = true) ∧
      (start (List.replicate 513 false ++ ([false] ++ []))).unread =
        tokenBits (List.replicate 513 .hdrInternal) ++ [false] ++ [] ∧
      (List.replicate 513 Instr.hdrInternal).length = 513 ∧ [false].length = 1) ∧
    ((start (str "1001000001")).Ready ∧
      headerTokens (.leaf 0x41) = [] ++ .hdrLeaf 0x41 :: [] ∧
      (start (str "1001000001")).unread = tokenBits [] ++ (Instr.hdrLeaf 0x41).bits ++ [] ∧
      (0x41 : Sym).toNat ≤ 256) :=
  ⟨⟨ready_of_no_answers rfl rfl, rfl, by decide, by decide, by decide⟩,
    ⟨ready_of_no_answers rfl rfl, spine_tokens 513, internals_wellFormed 513,
      by rw [List.append_assoc]; exact zeros_unread 513 _, by rw [List.length_replicate], rfl⟩,
    ready_of_no_answers rfl rfl, rfl, by decide, by decide⟩

theorem witness_HeaderRoundTrip :
    full.Ready ∧ full.treeValid = true ∧ full.outClosed = false ∧ TreeOk full :=
  ⟨ready_full, rfl, rfl, full_treeOk⟩

theorem witness_EncodeAppendsTheCodes :
    full.Ready ∧ full.codeValid = true ∧ full.outClosed = false ∧ CodesFit full ∧
    (∀ b ∈ bytesOfBits full.unread, ∃ c, full.code[b.toNat]? = some c ∧ c.valid = true) ∧
    full.code[256]? = some ⟨true, 2, 3⟩ := by
  refine ⟨ready_full, rfl, rfl, full_codesFit, ?_, by decide +kernel⟩
  rw [show bytesOfBits full.unread = [0x41, 0x41, 0x42] by decide]
  simp only [List.mem_cons, List.not_mem_nil, or_false]
  rintro b (rfl | rfl | rfl)
  · exact ⟨⟨true, 1, 0⟩, by decide +kernel, rfl⟩
  · exact ⟨⟨true, 1, 0⟩, by decide +kernel, rfl⟩
  · exact ⟨⟨true, 2, 2⟩, by decide +kernel, rfl⟩

/-- `full` with the input 41 00, where 00 has no code; and with no input and no sentinel code. -/
theorem witness_EncodeLookupMissFaults :
    ({ full with inBits := bytesIn [0x41, 0] }.Ready ∧
      CodesFit { full with inBits := bytesIn [0x41, 0] } ∧
      bytesOfBits { full with inBits := bytesIn [0x41, 0] }.unread = [0x41] ++ 0 :: [] ∧
      (full.code[0x41]? = some ⟨true, 1, 0⟩ ∧ full.code[0]? = some Code.none)) ∧
    ({ full with inBits := [], code := Vector.replicate 257 Code.none }.Ready ∧
      CodesFit { full with inBits := [], code := Vector.replicate 257 Code.none } ∧
      bytesOfBits { full with inBits := [] }.unread = [] ∧
      (Vector.replicate 257 Code.none)[256]? = some Code.none) := by
  refine ⟨⟨ready_of_no_answers rfl rfl, full_codesFit, by decide, by decide +kernel⟩,
    ready_of_no_answers rfl rfl, ?_, by decide, by decide +kernel⟩
  intro k h hv
  simp [Code.none] at hv

theorem literal_ws : LiteralLeaves treeB5 [(0x41, [false]), (0x42, [true, false])] := by
  intro w hw
  simp only [List.mem_cons, List.not_mem_nil, or_false] at hw
  rcases hw with rfl | rfl <;> exact ⟨by decide, by decide⟩

theorem witness_DecodeWritesTheLiterals :
    { full with inBits := str "0 10 11 00" }.Ready ∧ full.treeValid = true ∧
    full.outClosed = false ∧ full.tree = some treeB5 ∧
    LiteralLeaves treeB5 [(0x41, [false]), (0x42, [true, false])] ∧
    (256, [true, true]) ∈ leafPaths treeB5 ∧
    { full with inBits := str "0 10 11 00" }.unread =
      pathBits [((0x41 : Sym), [false]), (0x42, [true, false])] ++ [true, true] ++ [false, false] :=
  ⟨ready_of_no_answers rfl rfl, rfl, rfl, full_tree, literal_ws, by decide, by decide⟩

/-- The end inside a code word, and between two. -/
theorem witness_TruncatedSymbolStreamFaults :
    ({ full with inBits := str "0 10 1" }.Ready ∧ full.tree = some treeB5 ∧
      LiteralLeaves treeB5 [(0x41, [false]), (0x42, [true, false])] ∧
      (256, [true, true]) ∈ leafPaths treeB5 ∧ [true] <+: [true, true] ∧ [true] ≠ [true, true] ∧
      { full with inBits := str "0 10 1" }.unread =
        pathBits [((0x41 : Sym), [false]), (0x42, [true, false])] ++ [true]) ∧
    (([] : Bits) <+: [true, true] ∧
      { full with inBits := str "0 10" }.unread =
        pathBits [((0x41 : Sym), [false]), (0x42, [true, false])] ++ []) :=
  ⟨⟨ready_of_no_answers rfl rfl, full_tree, literal_ws, by decide, by decide, by decide,
    by decide⟩, by decide, by decide⟩

theorem witness_ClosePadsAndCloses : full.Ready ∧ full.outClosed = false := ⟨ready_full, rfl⟩

theorem witness_RewindSetsTheCursorToZero : full.Ready := ready_full

theorem witness_CompressWritesTheStream :
    full.Ready ∧ full.outClosed = false ∧ full.inPos = 0 ∧
    (bytesOfBits full.inBits).length ≤ 2 ^ 32 - 2 :=
  ⟨ready_full, rfl, rfl, by decide⟩

/-- The stream of `treeB5` for 41 42, with two padding bits. -/
def streamB5 : Bits :=
  bitsOf 32 Config.magic.toNat ++ headerBits treeB5 ++
    pathBits [((0x41 : Sym), [false]), (0x42, [true, false])] ++ [true, true] ++ [false, false]

theorem witness_DecompressReadsTheStream :
    (start streamB5).Ready ∧ (start streamB5).outClosed = false ∧ HeaderTree treeB5 ∧
    LiteralLeaves treeB5 [(0x41, [false]), (0x42, [true, false])] ∧
    (256, [true, true]) ∈ leafPaths treeB5 ∧ (start streamB5).unread = streamB5 :=
  ⟨ready_of_no_answers rfl rfl, rfl, headerTree_B5, literal_ws, by decide, rfl⟩

theorem witness_CorruptedMagicWritesNothing :
    (State.reset.Ready ∧ State.reset.inBits.length < State.reset.inPos + 32) ∧
    ((start (bitsOf 32 (Config.magic + 1#32).toNat)).Ready ∧
      fieldAt 32 (start (bitsOf 32 (Config.magic + 1#32).toNat)).inBits 0 ≠ Config.magic) :=
  ⟨⟨ready_of_no_answers rfl rfl, by decide⟩, witness_RdmagicChecksTheMagic.2.1.1,
    witness_RdmagicChecksTheMagic.2.1.2.2⟩

/-- The same stream cut inside the sentinel's code. -/
def cutB5 : Bits :=
  bitsOf 32 Config.magic.toNat ++ headerBits treeB5 ++
    pathBits [((0x41 : Sym), [false]), (0x42, [true, false])] ++ [true]

theorem witness_TruncatedStreamIsNotSuccess :
    (start cutB5).Ready ∧ (start cutB5).outClosed = false ∧ HeaderTree treeB5 ∧
    LiteralLeaves treeB5 [(0x41, [false]), (0x42, [true, false])] ∧
    (256, [true, true]) ∈ leafPaths treeB5 ∧ [true] <+: [true, true] ∧ [true] ≠ [true, true] ∧
    (start cutB5).unread = cutB5 :=
  ⟨ready_of_no_answers rfl rfl, rfl, headerTree_B5, literal_ws, by decide, by decide, by decide,
    rfl⟩

theorem witness_CompressDependsOnTheInputOnly :
    full.Ready ∧ (start full.inBits).Ready ∧ full.outClosed = false ∧
    (start full.inBits).outClosed = false ∧ full.inPos = 0 ∧ (start full.inBits).inPos = 0 ∧
    full.inBits = (start full.inBits).inBits ∧ full.outBits = (start full.inBits).outBits ∧
    (bytesOfBits full.inBits).length ≤ 2 ^ 32 - 2 :=
  ⟨ready_full, ready_of_no_answers rfl rfl, rfl, rfl, rfl, rfl, rfl, rfl, by decide⟩

/-- A file, and the empty one. -/
theorem witness_CompressDecompressRoundTrip :
    (full.Ready ∧ full.outClosed = false ∧ full.outBits = [] ∧ full.inPos = 0 ∧
      full.inBits = bitsOfBytes [0x41, 0x41, 0x42]) ∧
    (State.reset.Ready ∧ State.reset.inBits = bitsOfBytes []) :=
  ⟨⟨ready_full, rfl, rfl, rfl, rfl⟩, ready_of_no_answers rfl rfl, rfl⟩

theorem witness_TokenAppendsItsBits :
    full.Ready ∧ full.outClosed = false ∧
    ((Instr.magic Config.magic).commandWord = none ∧
      (Instr.magic Config.magic).wellFormed = true) ∧
    (Instr.hdrInternal.commandWord = none ∧ Instr.hdrInternal.wellFormed = true) ∧
    ((Instr.hdrLeaf 256).commandWord = none ∧ (Instr.hdrLeaf 256).wellFormed = true) ∧
    ((Instr.codeword 256 (BitVec.allOnes 256)).commandWord = none ∧
      (Instr.codeword 256 (BitVec.allOnes 256)).wellFormed = true) ∧
    ((Instr.literal8 0xFF).commandWord = none ∧ (Instr.literal8 0xFF).wellFormed = true) :=
  ⟨ready_full, rfl, ⟨rfl, by simp [Instr.wellFormed]⟩, by decide, by decide, by decide +kernel,
    by decide⟩

theorem witness_IllegalTokenIsRejected :
    full.mode = .idle ∧ 256 < (257 : Sym).toNat ∧ 256 < (511 : Sym).toNat ∧
    Config.magic + 1#32 ≠ Config.magic ∧ (closed.mode = .idle ∧ closed.outClosed = true) ∧
    (256 : Sym).toNat ≤ 256 ∧ full.outClosed = false ∧ (0 : CodeLen).toNat = 0 ∧
    256 < (257 : CodeLen).toNat :=
  ⟨rfl, by decide, by decide, magic_succ_ne, ⟨rfl, rfl⟩, by decide, rfl, by decide, by decide⟩

theorem witness_ReadersFrame :
    exec .count full = .next (nextOf (exec .count full)) ∧
    exec .rdtree full = .next (nextOf (exec .rdtree full)) ∧
    exec .rdmagic State.reset = .next (nextOf (exec .rdmagic State.reset)) ∧
    exec .rewind full = .next (nextOf (exec .rewind full)) :=
  ⟨eq_next (by decide +kernel), eq_next (by decide +kernel), eq_next (by decide +kernel),
    eq_next (by decide +kernel)⟩

theorem witness_ProducersFrame :
    exec .build full = .next (nextOf (exec .build full)) ∧
    exec .derive full = .next (nextOf (exec .derive full)) :=
  ⟨eq_next (by decide +kernel), eq_next (by decide +kernel)⟩

theorem witness_WritersFrame :
    exec .wrmagic full = .next (nextOf (exec .wrmagic full)) ∧
    exec .wrtree full = .next (nextOf (exec .wrtree full)) ∧
    ((Instr.hdrLeaf 256).commandWord = none ∧
      exec (.hdrLeaf 256) full = .next (nextOf (exec (.hdrLeaf 256) full))) ∧
    exec .close full = .next (nextOf (exec .close full)) :=
  ⟨eq_next (by decide +kernel), eq_next (by decide +kernel),
    ⟨rfl, eq_next (by decide +kernel)⟩, eq_next (by decide +kernel)⟩

theorem witness_StreamersFrame :
    exec .encode full = .next (nextOf (exec .encode full)) ∧
    exec .decode full = .next (nextOf (exec .decode full)) :=
  ⟨eq_next (by decide +kernel), eq_next (by decide +kernel)⟩

theorem witness_CompositesFrame :
    exec .compress full = .next (nextOf (exec .compress full)) ∧
    exec .decompress State.reset = .next (nextOf (exec .decompress State.reset)) :=
  ⟨eq_next (by decide +kernel), eq_next (by decide +kernel)⟩

theorem witness_StreamsAreOnlyReadAndAppended :
    Instr.encode ≠ .clear ∧ exec .encode full = .next (nextOf (exec .encode full)) ∧
    (nextOf (exec .encode full)).err.code ≠ 5 :=
  ⟨by decide, eq_next (by decide +kernel), by decide +kernel⟩

theorem witness_ClosedOutputStaysAsItIs :
    Instr.count ≠ .clear ∧ closed.outClosed = true ∧
    exec .count closed = .next (nextOf (exec .count closed)) :=
  ⟨by decide, rfl, eq_next (by decide +kernel)⟩

/-- `full` with the host about to write the word of ENCODE. -/
def encoding : State := { full with hostOps := [.regWrite 0x000 0x06] }

theorem witness_StepKeepsControlInv :
    ControlInv encoding ∧ step encoding = .next (nextOf (step encoding)) :=
  ⟨⟨by decide, by decide, by decide, by decide, by decide⟩, eq_next (by decide +kernel)⟩

theorem witness_StepKeepsProductInv :
    ProductInv encoding ∧ step encoding = .next (nextOf (step encoding)) :=
  ⟨full_productInv, eq_next (by decide +kernel)⟩

theorem witness_StepAlwaysCompletes : ProductInv encoding := full_productInv

end Sys2Proof.Tests
end

section
/-! What one step of the machine can do, said once (spec/10_state.md R31, R32; 46_control.md R196,
R198): a command is a list of primitives from one fixed stock, and a step is one of six acts. Every
invariant is proved over these two case lists. -/

namespace Sys2Proof.Machine

/-- The bodies that commands and stream tokens are made of; a token's write is `write` or
`writeLeaf`. -/
inductive IsPrimitive : (State → Res Unit) → Prop where
  | openCheck : IsPrimitive openCheck
  | count : IsPrimitive countBody
  | build : IsPrimitive buildBody
  | derive : IsPrimitive deriveBody
  | write (n v : Nat) : IsPrimitive fun s => (require s.outOpen s).bind fun _ s => wr n v s
  | writeLeaf (v : Sym) :
    IsPrimitive fun s => (require s.outOpen s).bind fun _ s => putLeafToken v s
  | wrtree : IsPrimitive wrtreeBody
  | encode : IsPrimitive encodeBody
  | close : IsPrimitive closeBody
  | rewind : IsPrimitive rewindBody
  | rdmagic : IsPrimitive rdmagicBody
  | rdtree : IsPrimitive rdtreeBody
  | decode : IsPrimitive decodeBody
  | reject (f : FaultCode) : IsPrimitive fun s => .raise f s

/-- The instruction `i` is a list of primitives, run when STATE is IDLE. -/
def RunsPrimitives (i : Instr) : Prop :=
  ∃ (op : OpCode) (ps : List Primitive), (∀ p ∈ ps, IsPrimitive p.body) ∧
    ∀ s, exec i s = acceptIdle (runPrimitives op ps) s

theorem RunsPrimitives.of_body {i : Instr} {op : OpCode} {body : State → Res Unit}
    (hb : IsPrimitive body) (h : ∀ s, exec i s = runCommand op body s) : RunsPrimitives i :=
  ⟨op, [⟨op, body⟩], by simpa using hb, h⟩

theorem compressList_isPrimitive : ∀ p ∈ compressList, IsPrimitive p.body := by
  simp only [compressList, List.forall_mem_cons]
  exact ⟨.openCheck, .count, .build, .derive, .write 32 _, .wrtree, .rewind, .encode,
    .close, by simp⟩

theorem decompressList_isPrimitive : ∀ p ∈ decompressList, IsPrimitive p.body := by
  simp only [decompressList, List.forall_mem_cons]
  exact ⟨.openCheck, .rdmagic, .rdtree, .decode, .close, by simp⟩

/-- Every instruction but CLEAR is a list of primitives. -/
theorem runsPrimitives_of_ne_clear {i : Instr} (hi : i ≠ .clear) : RunsPrimitives i := by
  cases i with
  | clear => exact absurd rfl hi
  | count => exact .of_body .count fun _ => rfl
  | build => exact .of_body .build fun _ => rfl
  | derive => exact .of_body .derive fun _ => rfl
  | wrmagic => exact .of_body (.write 32 Config.magic.toNat) fun _ => rfl
  | wrtree => exact .of_body .wrtree fun _ => rfl
  | encode => exact .of_body .encode fun _ => rfl
  | close => exact .of_body .close fun _ => rfl
  | rewind => exact .of_body .rewind fun _ => rfl
  | rdmagic => exact .of_body .rdmagic fun _ => rfl
  | rdtree => exact .of_body .rdtree fun _ => rfl
  | decode => exact .of_body .decode fun _ => rfl
  | compress => exact ⟨opCompress, compressList, compressList_isPrimitive, fun _ => rfl⟩
  | decompress => exact ⟨opDecompress, decompressList, decompressList_isPrimitive, fun _ => rfl⟩
  | magic m =>
    by_cases hm : m = Config.magic
    · exact .of_body (.write 32 m.toNat) fun _ => if_pos hm
    · exact .of_body (.reject .fmtMagic) fun _ => if_neg hm
  | hdrInternal => exact .of_body (.write 1 0) fun _ => rfl
  | hdrLeaf v =>
    by_cases hv : v.toNat ≤ Config.sentinel
    · exact .of_body (.writeLeaf v) fun _ => if_pos hv
    · exact .of_body (.reject .fmtHdrBad) fun _ => if_neg hv
  | codeword len bits => exact .of_body (.write len.toNat bits.toNat) fun _ => rfl
  | literal8 b => exact .of_body (.write 8 b.toNat) fun _ => rfl

/-- CLEAR outside BUSY (R31, R190). -/
theorem exec_clear {s : State} (h : s.mode ≠ .busy) : exec .clear s = .next s.newSession := by
  show acceptClear s = _
  cases hm : s.mode with
  | idle => simp [acceptClear, hm]
  | busy => exact absurd hm h
  | fault => simp [acceptClear, hm]

theorem exec_clear_busy {s : State} (h : s.mode = .busy) : exec .clear s = .next s := by
  show acceptClear s = _
  simp [acceptClear, h]

theorem exec_of_not_idle {i : Instr} {s : State} (hi : i ≠ .clear) (hm : s.mode ≠ .idle) :
    exec i s = .next s := by
  obtain ⟨op, ps, -, he⟩ := runsPrimitives_of_ne_clear hi
  rw [he, acceptIdle_other hm]

theorem illegalCommand_idle (w : Byte) {s : State} (hm : s.mode = .idle) :
    illegalCommand w s = .next (s.raise .illCmd (opOf w) (opOf w)) := by
  simp [illegalCommand, hm]

theorem illegalCommand_of_not_idle (w : Byte) {s : State} (hm : s.mode ≠ .idle) :
    illegalCommand w s = .next s := by
  cases h : s.mode with
  | idle => exact absurd h hm
  | busy => simp [illegalCommand, h]
  | fault => simp [illegalCommand, h]

/-- What one act of the host can make of a state. -/
inductive HostAct (s : State) : State → Prop where
  /-- Nothing to do, a write that is ignored, a command that is not accepted (R31, R32). -/
  | wait : HostAct s s
  | read (n : Nat) : HostAct s (hostRead n s)
  | bind (q : Bits) : HostAct s { s with nextIn := q }
  /-- CLEAR or the hardware reset (R190, R240). -/
  | session : HostAct s s.newSession
  | illegal (w : Byte) (hm : s.mode = .idle) : HostAct s (s.raise .illCmd (opOf w) (opOf w))
  | command {t : State} (op : OpCode) (ps : List Primitive) (hm : s.mode = .idle)
      (hp : ∀ p ∈ ps, IsPrimitive p.body)
      (hr : runPrimitives op ps (s.withMode .busy) = .next t) : HostAct s t

theorem HostAct.of_exec {i : Instr} {s t : State} (h : exec i s = .next t) : HostAct s t := by
  by_cases hi : i = .clear
  · subst hi
    by_cases hm : s.mode = .busy
    · rw [exec_clear_busy hm] at h
      cases h
      exact .wait
    · rw [exec_clear hm] at h
      cases h
      exact .session
  · by_cases hm : s.mode = .idle
    · obtain ⟨op, ps, hp, he⟩ := runsPrimitives_of_ne_clear hi
      rw [he, acceptIdle_idle hm] at h
      exact .command op ps hm hp h
    · rw [exec_of_not_idle hi hm] at h
      cases h
      exact .wait

theorem HostAct.of_illegalCommand {w : Byte} {s t : State} (h : illegalCommand w s = .next t) :
    HostAct s t := by
  by_cases hm : s.mode = .idle
  · rw [illegalCommand_idle w hm] at h
    cases h
    exact .illegal w hm
  · rw [illegalCommand_of_not_idle w hm] at h
    cases h
    exact .wait

theorem regWrite_cmd (v : BitVec 266) (s : State) :
    regWrite 0x000 v s = writeCommand (v.setWidth 8) s := rfl

/-- A write to any register but CMD is ignored (R32). -/
theorem regWrite_other {n : Nat} (hn : n ≠ 0x000) (v : BitVec 266) (s : State) :
    regWrite n v s = .next s := if_neg hn

theorem writeCommand_command {w : Byte} {i : Instr} (h : decodeCommand w = .command i) (s : State) :
    writeCommand w s = exec i s := by
  simp [writeCommand, h]

theorem writeCommand_illegal {w : Byte} {why : IllegalWord} (h : decodeCommand w = .illegal why)
    (s : State) : writeCommand w s = illegalCommand w s := by
  simp [writeCommand, h]

theorem HostAct.of_hostStep {op : HostOp} {s t : State} (h : hostStep op s = .next t) :
    HostAct s t := by
  cases op with
  | regRead n => cases h; exact .read n
  | regWrite n v =>
    have h : regWrite n v s = .next t := h
    by_cases hn : n = 0x000
    · subst hn
      rw [regWrite_cmd] at h
      cases hd : decodeCommand (v.setWidth 8) with
      | command i =>
        rw [writeCommand_command hd] at h
        exact .of_exec h
      | illegal why =>
        rw [writeCommand_illegal hd] at h
        exact .of_illegalCommand h
    · rw [regWrite_other hn] at h
      cases h
      exact .wait
  | bindInput q => cases h; exact .bind q
  | hardReset => cases h; exact .session

theorem step_nil {s : State} (h : s.hostOps = []) : step s = .next s := by
  simp [step, h]

theorem step_cons {s : State} {op : HostOp} {rest : List HostOp} (h : s.hostOps = op :: rest) :
    step s = hostStep op { s with hostOps := rest } := by
  simp [step, h]

/-- A step takes the host's next act off the list and does it (R6, R251). -/
theorem step_hostAct {s t : State} (h : step s = .next t) :
    HostAct { s with hostOps := s.hostOps.tail } t := by
  cases ho : s.hostOps with
  | nil =>
    rw [step_nil ho] at h
    cases h
    rw [List.tail_nil, ← ho]
    exact .wait
  | cons op rest =>
    rw [step_cons ho] at h
    exact .of_hostStep h

/-! ## Host reads -/

theorem readProduct_state (n : Nat) (s : State) :
    (readProduct n s).2 = { s with draws := (readProduct n s).2.draws } := by
  unfold readProduct
  split_ifs <;> rfl

/-- A register read draws at most a free value (R33, R232). -/
theorem regRead_state (n : Nat) (s : State) :
    (regRead n s).2 = { s with draws := (regRead n s).2.draws } := by
  unfold regRead
  split_ifs
  case neg => exact readProduct_state n s
  all_goals rfl

/-- A host read changes the read data and the draw counter only (R232). -/
theorem hostRead_frame (n : Nat) (s : State) :
    hostRead n s =
      { s with readData := (hostRead n s).readData, draws := (hostRead n s).draws } := by
  rw [hostRead, regRead_state]

end Sys2Proof.Machine
end

section
/-! The control invariant (spec/47_properties.md R265, 10_state.md R28, R31, 20_memory.md R51, R57).
While a command runs the two ports are in order as long as no call has failed: `Running`. A raise
leaves them in order too, but for E_IO, after which only the cursor is known: `Faulted`. -/

namespace Sys2Proof.Machine

/-- What a part of a command leaves: `P` where it goes on, `E f` where it raises `f`. -/
def Res.Keeps {α : Type} (P : State → Prop) (E : FaultCode → State → Prop) : Res α → Prop
  | .ok _ s => P s
  | .raise f s => E f s
  | .stop _ => True

theorem Res.Keeps.bind {α β : Type} {P Q : State → Prop} {E : FaultCode → State → Prop} {r : Res α}
    {k : α → State → Res β} (hr : r.Keeps P E) (hk : ∀ a u, P u → (k a u).Keeps Q E) :
    (r.bind k).Keeps Q E := by
  cases r with
  | ok a u => exact hk a u hr
  | raise f u => exact hr
  | stop x => trivial

theorem Res.Keeps.mono {α : Type} {P Q : State → Prop} {E : FaultCode → State → Prop} {r : Res α}
    (h : r.Keeps P E) (hPQ : ∀ u, P u → Q u) : r.Keeps Q E := by
  cases r with
  | ok a u => exact hPQ u h
  | raise f u => exact h
  | stop x => trivial

theorem Res.Leaves.keeps {α : Type} {R P : State → Prop} {E : FaultCode → State → Prop} {r : Res α}
    (h : r.Leaves R) (hP : ∀ u, R u → P u) (hE : ∀ u f, P u → E f u) : r.Keeps P E := by
  cases r with
  | ok a u => exact hP u h
  | raise f u => exact hE u f (hP u h)
  | stop x => trivial

/-- A precondition, and what runs behind it (R82). -/
theorem require_bind_keeps {β : Type} {b : Bool} {s : State} {P : State → Prop}
    {E : FaultCode → State → Prop} {k : Unit → State → Res β} (hE : E .seq s)
    (hk : b = true → (k () s).Keeps P E) : ((require b s).bind k).Keeps P E := by
  cases b with
  | true => exact hk rfl
  | false => exact hE

/-- Where every primitive keeps `P` or raises with `E`, the command ends with `Q`. -/
theorem runPrimitives_keeps {P Q : State → Prop} {E : FaultCode → State → Prop} {c : OpCode}
    {ps : List Primitive} {s t : State} (hs : P s)
    (hp : ∀ p ∈ ps, ∀ u, P u → (p.body u).Keeps P E) (hr : ∀ u f op, E f u → Q (u.raise f op c))
    (hi : ∀ u, P u → Q (u.withMode .idle)) (h : runPrimitives c ps s = .next t) : Q t := by
  induction ps generalizing s with
  | nil => cases h; exact hi s hs
  | cons p ps ih =>
    have hb := hp p (by simp) s hs
    cases hres : p.body s with
    | ok a u =>
      rw [runPrimitives_ok hres] at h
      rw [hres] at hb
      exact ih hb (fun q hq => hp q (List.mem_cons_of_mem _ hq)) h
    | raise f u =>
      rw [runPrimitives_raise hres] at h
      rw [hres] at hb
      cases h
      exact hr u f p.op hb
    | stop x => rw [runPrimitives_stop hres] at h; cases h

/-! ## The ports inside a command -/

/-- A command runs and no port call has failed: ERR is 0, the cursor is in range, OUT is closed or
not as `c` says, and a closed output is whole bytes. -/
structure Running (c : Bool) (s : State) : Prop where
  err : s.err = .none
  inRange : s.inPos ≤ s.inBits.length
  closed : s.outClosed = c
  shut : s.outShut = c
  whole : c = true → s.outBits.length % 8 = 0

/-- `Running`, with OUT closed or not. -/
def PortsOk (s : State) : Prop := ∃ c, Running c s

/-- What is left of `PortsOk` at a raise of `f`: after E_IO only the range of the cursor. -/
def Faulted (f : FaultCode) (s : State) : Prop :=
  s.inPos ≤ s.inBits.length ∧
    (f ≠ .io → s.outClosed = s.outShut ∧ (s.outShut = true → s.outBits.length % 8 = 0))

theorem Running.faulted {c : Bool} {s : State} (h : Running c s) (f : FaultCode) : Faulted f s :=
  ⟨h.inRange, fun _ => ⟨h.closed.trans h.shut.symm, fun hs => h.whole (h.shut.symm.trans hs)⟩⟩

theorem PortsOk.faulted {s : State} (h : PortsOk s) (f : FaultCode) : Faulted f s := by
  obtain ⟨c, h⟩ := h
  exact h.faulted f

/-- The precondition OUT_CLOSED = 0 (R82). -/
theorem PortsOk.running_of_open {s : State} (h : PortsOk s) (ho : s.outOpen = true) :
    Running false s := by
  obtain ⟨c, h⟩ := h
  have hc : s.outClosed = false := by simpa [State.outOpen] using ho
  obtain rfl : c = false := h.closed.symm.trans hc
  exact h

theorem Res.Keeps.portsOk {α : Type} {c : Bool} {r : Res α} (h : r.Keeps (Running c) Faulted) :
    r.Keeps PortsOk Faulted := h.mono fun _ hu => ⟨c, hu⟩

theorem NodeFrame.running {c : Bool} {s t : State} (h : NodeFrame s t) (hs : Running c s) :
    Running c t := by
  rw [NodeFrame] at h
  rw [h]
  exact ⟨hs.err, hs.inRange, hs.closed, hs.shut, hs.whole⟩

theorem CodeFrame.running {c : Bool} {s t : State} (h : CodeFrame s t) (hs : Running c s) :
    Running c t := by
  rw [CodeFrame] at h
  rw [h]
  exact ⟨hs.err, hs.inRange, hs.closed, hs.shut, hs.whole⟩

/-- A part that differs in NODE only. -/
theorem Res.Leaves.running_of_nodeFrame {α : Type} {c : Bool} {s : State} {r : Res α}
    (h : r.Leaves (NodeFrame s)) (hs : Running c s) : r.Keeps (Running c) Faulted :=
  h.keeps (fun _ hu => hu.running hs) fun _ f hu => hu.faulted f

/-- A part that changes nothing. -/
theorem Res.Leaves.running_of_eq {α : Type} {c : Bool} {s : State} {r : Res α}
    (h : r.Leaves (· = s)) (hs : Running c s) : r.Keeps (Running c) Faulted :=
  h.keeps (fun _ hu => hu ▸ hs) fun _ f hu => hu.faulted f

/-! ## The port calls -/

theorem rd_keeps {c : Bool} (n : Nat) {s : State} (h : Running c s) :
    (rd n s).Keeps (Running c) Faulted := by
  rcases rd_cases n s with e | e | ⟨hle, e⟩ <;> rw [e]
  · exact ⟨Nat.min_le_right _ _, fun hf => absurd rfl hf⟩
  · exact ⟨h.err, Nat.le_refl _, h.closed, h.shut, h.whole⟩
  · exact ⟨h.err, hle, h.closed, h.shut, h.whole⟩

theorem rewindIn_keeps {c : Bool} {s : State} (h : Running c s) :
    (rewindIn s).Keeps (Running c) Faulted := by
  rcases rewindIn_cases s with e | e <;> rw [e]
  · exact ⟨Nat.min_le_right _ _, fun hf => absurd rfl hf⟩
  · exact ⟨h.err, Nat.zero_le _, h.closed, h.shut, h.whole⟩

theorem wr_keeps (n v : Nat) {s : State} (h : Running false s) :
    (wr n v s).Keeps (Running false) Faulted := by
  rcases wr_cases n v s with ⟨e, -⟩ | e | e <;> rw [e]
  · trivial
  · exact ⟨h.inRange, fun hf => absurd rfl hf⟩
  · exact ⟨h.err, h.inRange, h.closed, h.shut, nofun⟩

/-- CLOSE makes the output whole bytes (R57) and records that it is closed (R192). -/
theorem closeOut_setOutClosed_keeps {s : State} (h : Running false s) :
    ((closeOut s).bind fun _ u => .ok () u.setOutClosed).Keeps (Running true) Faulted := by
  rcases closeOut_cases s with e | e <;> rw [e]
  · exact ⟨h.inRange, fun hf => absurd rfl hf⟩
  · exact ⟨h.err, h.inRange, rfl, rfl, fun _ => padded_length_mod s.outBits⟩

/-! ## The loops -/

theorem countLoop_keeps {c : Bool} (fuel n : Nat) {s : State} (h : Running c s) :
    (countLoop fuel n s).Keeps (Running c) Faulted := by
  induction fuel generalizing n s with
  | zero => trivial
  | succ fuel ih =>
    rw [countLoop]
    refine (rd_keeps 8 h).bind fun a u hu => ?_
    cases a with
    | none => exact hu
    | some v =>
      simp only []
      split
      · exact hu.faulted .overflow
      · exact ih (n + 1) ⟨hu.err, hu.inRange, hu.closed, hu.shut, hu.whole⟩

theorem getLeaf_keeps {c : Bool} (n : Nat) {s : State} (h : Running c s) :
    (getLeaf n s).Keeps (Running c) Faulted := by
  rw [getLeaf]
  refine (rd_keeps 9 h).bind fun a u hu => ?_
  cases a with
  | none => exact hu.faulted .fmtHdrTrunc
  | some v =>
    simp only []
    split
    · exact hu.faulted .fmtHdrBad
    · exact (writeNode_leaves n _ u).running_of_nodeFrame hu

theorem getTree_keeps {c : Bool} (fuel : Nat) {s : State} (h : Running c s) :
    (getTree fuel s).Keeps (Running c) Faulted := by
  induction fuel generalizing s with
  | zero => trivial
  | succ fuel ih =>
    rw [getTree]
    refine (rd_keeps 1 h).bind fun a u hu => ?_
    cases a with
    | none => exact hu.faulted .fmtHdrTrunc
    | some b =>
      simp only []
      split
      · exact hu.faulted .fmtHdrBad
      · have hi : Running c u.takeIndex := ⟨hu.err, hu.inRange, hu.closed, hu.shut, hu.whole⟩
        rw [allocIndex, Res.bind_ok]
        split
        · exact (getLeaf_keeps _ hi).bind fun _ w hw => hw
        · refine (ih hi).bind fun l w hw => (ih hw).bind fun r x hx => ?_
          exact ((writeNode_leaves _ _ x).running_of_nodeFrame hx).bind fun _ y hy => hy

theorem putLeafToken_keeps (v : Sym) {s : State} (h : Running false s) :
    (putLeafToken v s).Keeps (Running false) Faulted :=
  (wr_keeps 1 1 h).bind fun _ _ hu => wr_keeps 9 _ hu

theorem putTree_keeps (fuel i : Nat) {s : State} (h : Running false s) :
    (putTree fuel i s).Keeps (Running false) Faulted := by
  induction fuel generalizing i s with
  | zero => trivial
  | succ fuel ih =>
    rw [putTree]
    refine ((readNode_leaves i s).running_of_eq h).bind fun n u hu => ?_
    split
    · exact putLeafToken_keeps _ hu
    · exact (wr_keeps 1 0 hu).bind fun _ _ hw => (ih _ hw).bind fun _ _ hx => ih _ hx

theorem emitSymbol_keeps (k : Nat) {s : State} (h : Running false s) :
    (emitSymbol k s).Keeps (Running false) Faulted := by
  rw [emitSymbol]
  refine ((readCode_leaves k s).running_of_eq h).bind fun c u hu => ?_
  cases c with
  | none => exact hu.faulted .intLookup
  | some c => exact wr_keeps _ _ hu

theorem encodeLoop_keeps (fuel : Nat) {s : State} (h : Running false s) :
    (encodeLoop fuel s).Keeps (Running false) Faulted := by
  induction fuel generalizing s with
  | zero => trivial
  | succ fuel ih =>
    rw [encodeLoop]
    refine (rd_keeps 8 h).bind fun a u hu => ?_
    cases a with
    | none => exact hu
    | some v => exact (emitSymbol_keeps _ hu).bind fun _ _ hw => ih hw

theorem decodeLoop_keeps (fuel cur : Nat) {s : State} (h : Running false s) :
    (decodeLoop fuel cur s).Keeps (Running false) Faulted := by
  induction fuel generalizing cur s with
  | zero => trivial
  | succ fuel ih =>
    rw [decodeLoop]
    refine (rd_keeps 1 h).bind fun a u hu => ?_
    cases a with
    | none => exact hu.faulted .fmtStream
    | some b =>
      refine ((readNode_leaves cur u).running_of_eq hu).bind fun n w hw => ?_
      refine ((readNode_leaves _ w).running_of_eq hw).bind fun m x hx => ?_
      split
      · split
        · exact hx
        · exact (wr_keeps 8 _ hx).bind fun _ _ hy => ih _ hy
      · exact ih _ hx

/-! ## The primitives -/

theorem countBody_keeps {c : Bool} {s : State} (h : Running c s) :
    (countBody s).Keeps (Running c) Faulted := by
  have hs : Running c s.clearProducts.seedFreq :=
    ⟨h.err, h.inRange, h.closed, h.shut, h.whole⟩
  exact (countLoop_keeps _ 0 hs).bind fun _ _ hu =>
    ⟨hu.err, hu.inRange, hu.closed, hu.shut, hu.whole⟩

theorem buildBody_keeps {c : Bool} {s : State} (h : Running c s) :
    (buildBody s).Keeps (Running c) Faulted := by
  have hs : Running c s.clearTree.noNodes := ⟨h.err, h.inRange, h.closed, h.shut, h.whole⟩
  refine require_bind_keeps (h.faulted .seq) fun _ => ?_
  refine ((addLeaves_leaves _ _).running_of_nodeFrame hs).bind fun live u hu => ?_
  exact ((joinLive_leaves live u).running_of_nodeFrame hu).bind fun _ _ hw =>
    ⟨hw.err, hw.inRange, hw.closed, hw.shut, hw.whole⟩

theorem deriveBody_keeps {c : Bool} {s : State} (h : Running c s) :
    (deriveBody s).Keeps (Running c) Faulted := by
  have hs : Running c s.clearCode.emptyCode := ⟨h.err, h.inRange, h.closed, h.shut, h.whole⟩
  have hw : (walk walkBound s.root.toNat 0 0 s.clearCode.emptyCode).Keeps (Running c) Faulted :=
    (walk_leaves walkBound s.root.toNat 0 0 _).keeps (fun _ hu => hu.running hs)
      fun _ f hu => hu.faulted f
  exact require_bind_keeps (h.faulted .seq) fun _ => hw.bind fun _ _ hu =>
    ⟨hu.err, hu.inRange, hu.closed, hu.shut, hu.whole⟩

theorem rdmagicBody_keeps {c : Bool} {s : State} (h : Running c s) :
    (rdmagicBody s).Keeps (Running c) Faulted := by
  refine (rd_keeps 32 h).bind fun a u hu => ?_
  cases a with
  | none => exact hu.faulted .fmtMagic
  | some v =>
    simp only []
    split
    · exact hu
    · exact hu.faulted .fmtMagic

theorem rdtreeBody_keeps {c : Bool} {s : State} (h : Running c s) :
    (rdtreeBody s).Keeps (Running c) Faulted := by
  have hs : Running c s.clearTree.noNodes := ⟨h.err, h.inRange, h.closed, h.shut, h.whole⟩
  refine (getTree_keeps walkBound hs).bind fun r u hu => ?_
  refine ((readNode_leaves r u).running_of_eq hu).bind fun n w hw => ?_
  split
  · exact hw.faulted .fmtHdrBad
  · exact ⟨hw.err, hw.inRange, hw.closed, hw.shut, hw.whole⟩

/-- A primitive that writes: its precondition gives an open output. -/
theorem require_outOpen_keeps {α : Type} {b : Bool} {s : State} {k : Unit → State → Res α}
    (h : PortsOk s) (hb : b = true → s.outOpen = true)
    (hk : Running false s → (k () s).Keeps PortsOk Faulted) :
    ((require b s).bind k).Keeps PortsOk Faulted :=
  require_bind_keeps (h.faulted .seq) fun ht => hk (h.running_of_open (hb ht))

/-- Every primitive leaves the ports in order, or faults. -/
theorem IsPrimitive.keeps {body : State → Res Unit} (hb : IsPrimitive body) {s : State}
    (h : PortsOk s) : (body s).Keeps PortsOk Faulted := by
  have hands : ∀ {b : Bool}, (b && s.outOpen) = true → s.outOpen = true :=
    fun hb => (Bool.and_eq_true_iff.mp hb).2
  have hc := h
  obtain ⟨c, hc⟩ := hc
  cases hb with
  | openCheck =>
    show (require s.outOpen s).Keeps PortsOk Faulted
    cases ho : s.outOpen with
    | true => exact h
    | false => exact h.faulted .seq
  | count => exact (countBody_keeps hc).portsOk
  | build => exact (buildBody_keeps hc).portsOk
  | derive => exact (deriveBody_keeps hc).portsOk
  | write n v => exact require_outOpen_keeps h id fun ho => (wr_keeps n v ho).portsOk
  | writeLeaf v => exact require_outOpen_keeps h id fun ho => (putLeafToken_keeps v ho).portsOk
  | wrtree => exact require_outOpen_keeps h hands fun ho => (putTree_keeps _ _ ho).portsOk
  | encode =>
    exact require_outOpen_keeps h hands fun ho =>
      ((encodeLoop_keeps _ ho).bind fun _ _ hu => emitSymbol_keeps _ hu).portsOk
  | close => exact require_outOpen_keeps h id fun ho => (closeOut_setOutClosed_keeps ho).portsOk
  | rewind => exact (rewindIn_keeps hc).portsOk
  | rdmagic => exact (rdmagicBody_keeps hc).portsOk
  | rdtree => exact (rdtreeBody_keeps hc).portsOk
  | decode => exact require_outOpen_keeps h hands fun ho => (decodeLoop_keeps _ _ ho).portsOk
  | reject f => exact h.faulted f

/-! ## The invariant -/

theorem faultCode_code_range (f : FaultCode) : 1 ≤ f.code.toNat ∧ f.code.toNat ≤ 11 := by
  cases f <;> decide

/-- A command starts with its ports in order. -/
theorem ControlInv.portsOk {s : State} (h : ControlInv s) (hm : s.mode = .idle) : PortsOk s := by
  obtain ⟨-, herr, -, hin, hout⟩ := h
  have he := herr hm
  obtain ⟨hc, hw⟩ := hout (by rw [he]; decide)
  exact ⟨s.outClosed, he, hin, rfl, hc.symm, fun ht => hw (hc.symm.trans ht)⟩

theorem PortsOk.controlInv_idle {s : State} (h : PortsOk s) : ControlInv (s.withMode .idle) := by
  obtain ⟨c, h⟩ := h
  exact ⟨nofun, fun _ => h.err, nofun, h.inRange, fun _ => (h.faulted .seq).2 nofun⟩

theorem Faulted.controlInv_raise {f : FaultCode} {s : State} (h : Faulted f s) (op cmd : OpCode) :
    ControlInv (s.raise f op cmd) := by
  obtain ⟨hin, hout⟩ := h
  exact ⟨nofun, nofun, fun _ => faultCode_code_range f, hin,
    fun hne => hout fun hf => hne (by rw [hf]; rfl)⟩

theorem controlInv_newSession (s : State) : ControlInv s.newSession :=
  ⟨nofun, fun _ => rfl, nofun, Nat.zero_le _, fun _ => ⟨rfl, nofun⟩⟩

theorem HostAct.controlInv {s t : State} (h : HostAct s t) (hs : ControlInv s) : ControlInv t := by
  cases h with
  | wait => exact hs
  | read n =>
    rw [hostRead_frame]
    exact hs
  | bind q => exact hs
  | session => exact controlInv_newSession s
  | illegal w hm => exact ((hs.portsOk hm).faulted .illCmd).controlInv_raise _ _
  | command op ps hm hp hr =>
    obtain ⟨c, hc⟩ := hs.portsOk hm
    have hbusy : PortsOk (s.withMode .busy) :=
      ⟨c, hc.err, hc.inRange, hc.closed, hc.shut, hc.whole⟩
    exact runPrimitives_keeps hbusy (fun p hpm _ hu => (hp p hpm).keeps hu)
      (fun _ _ _ hu => hu.controlInv_raise _ _) (fun _ hu => hu.controlInv_idle) hr

/-- Settles O57: every act of the host keeps the invariant, a command by `IsPrimitive.keeps`. -/
theorem stepKeepsControlInv : Obligations.StepKeepsControlInv := by
  intro s t hs hstep
  have hs' : ControlInv { s with hostOps := s.hostOps.tail } := hs
  exact (step_hostAct hstep).controlInv hs'

end Sys2Proof.Machine
end

section
/-! The product invariant (spec/47_properties.md R262, R264, R265): a flag that reads 1 describes a
complete product. COUNT, BUILD, RDTREE and DERIVE clear the flags of what they overwrite and set one
at their end; every other primitive leaves the products as they are. -/

namespace Sys2Proof.Machine

/-- With neither a tree nor a Code Table only FREQ matters. -/
theorem ProductInv.of_noTree {s : State} (hf : s.freqValid = true → FreqOk s)
    (ht : s.treeValid = false) (hc : s.codeValid = false) : ProductInv s :=
  ⟨hf, by simp [ht], by simp [hc]⟩

theorem ProductInv.of_noProduct {s : State} (hf : s.freqValid = false) (ht : s.treeValid = false)
    (hc : s.codeValid = false) : ProductInv s :=
  .of_noTree (by simp [hf]) ht hc

theorem Res.Leaves.of_ok {α : Type} {P : State → Prop} {r : Res α} {a : α} {u : State}
    (h : r.Leaves P) (e : r = .ok a u) : P u := by
  rw [e] at h
  exact h

theorem Res.Leaves.of_raise {α : Type} {P : State → Prop} {r : Res α} {f : FaultCode} {u : State}
    (h : r.Leaves P) (e : r = .raise f u) : P u := by
  rw [e] at h
  exact h

theorem productInv_newSession (s : State) : ProductInv s.newSession := .of_noProduct rfl rfl rfl

/-! ## Primitives that leave the products as they are -/

theorem PortFrame.productInv {s t : State} (h : PortFrame s t) (hs : ProductInv s) :
    ProductInv t := by
  rw [PortFrame] at h
  rw [h]
  exact hs

theorem Res.Leaves.productInv {α : Type} {s : State} {r : Res α} (h : r.Leaves (PortFrame s))
    (hs : ProductInv s) : r.Leaves ProductInv := h.mono fun _ hu => hu.productInv hs

theorem Res.Leaves.port {α : Type} {s : State} {r : Res α} (h : r.Leaves (OutFrame s)) :
    r.Leaves (PortFrame s) := h.mono fun _ hu => hu.port

theorem require_leaves (b : Bool) (s : State) : (require b s).Leaves (PortFrame s) := by
  cases b with
  | true => exact PortFrame.refl s
  | false => exact PortFrame.refl s

/-- A precondition, and ports used behind it. -/
theorem require_bind_portFrame {α : Type} {b : Bool} {s : State} {k : Unit → State → Res α}
    (hk : ∀ u, (k () u).Leaves (PortFrame u)) : ((require b s).bind k).Leaves (PortFrame s) :=
  Res.Leaves.seq (R := PortFrame) PortFrame.trans (require_leaves b s) fun _ u => hk u

theorem putLeafToken_leaves (v : Sym) (s : State) : (putLeafToken v s).Leaves (OutFrame s) :=
  Res.Leaves.seq (R := OutFrame) OutFrame.trans (wr_leaves 1 1 s) fun _ u => wr_leaves 9 _ u

theorem encodeBody_leaves (s : State) : (encodeBody s).Leaves (PortFrame s) :=
  require_bind_portFrame fun u =>
    Res.Leaves.seq (R := PortFrame) PortFrame.trans (encodeLoop_leaves _ u) fun _ w =>
      (emitSymbol_leaves _ w).port

theorem rdmagicBody_leaves (s : State) : (rdmagicBody s).Leaves (PortFrame s) := by
  refine Res.Leaves.seq (R := PortFrame) PortFrame.trans ((rd_leaves 32 s).mono fun _ h => h.port)
    fun a u => ?_
  cases a with
  | none => exact PortFrame.refl u
  | some v =>
    simp only []
    split
    · exact PortFrame.refl u
    · exact PortFrame.refl u

theorem closeBody_leaves_productInv {s : State} (hs : ProductInv s) :
    (closeBody s).Leaves ProductInv := by
  refine ((require_leaves _ s).productInv hs).bind (fun _ u hu => ?_) fun _ hu => hu
  exact ((closeOut_leaves u).port.productInv hu).bind (fun _ _ hw => hw) fun _ hw => hw

/-! ## Primitives that make a product -/

/-- COUNT: no product until its end, then a Frequency Table (R110, R265). -/
theorem countBody_leaves_productInv (s : State) : (countBody s).Leaves ProductInv := by
  have hframe := countLoop_leaves s.readBound 0 s.clearProducts.seedFreq
  rw [countBody]
  cases hr : countLoop s.readBound 0 s.clearProducts.seedFreq with
  | ok a u =>
    have hu := hframe.of_ok hr
    obtain ⟨bs, hfreq, hlen⟩ := countLoop_sound (Nat.zero_le maxBytes) hr
    have hok : FreqOk u := FreqOk.of_count hfreq (by omega)
    rw [CountFrame] at hu
    exact .of_noTree (fun _ => hok) (by rw [State.setFreqValid_treeValid, hu]; rfl)
      (by rw [State.setFreqValid_codeValid, hu]; rfl)
  | raise f u =>
    have hu := hframe.of_raise hr
    rw [CountFrame] at hu
    exact .of_noProduct (by rw [hu]; rfl) (by rw [hu]; rfl) (by rw [hu]; rfl)
  | stop x => trivial

theorem FreqOk.sentinel_pos {s : State} (h : FreqOk s) : 0 < s.freq[256] := by
  rw [h.1]
  decide

/-- BUILD: a Frequency Table gives a tree (R120, R262). -/
theorem buildBody_leaves_productInv {s : State} (hs : ProductInv s) :
    (buildBody s).Leaves ProductInv := by
  cases hv : s.freqValid with
  | false =>
    rw [buildBody, require_false hv, Res.bind_raise]
    exact hs
  | true =>
    have hf := hs.1 hv
    obtain ⟨node, nc, root, t, he, hres⟩ := buildBody_ok hv hf.sentinel_pos
    rw [he]
    exact ⟨fun _ => hf, fun _ => TreeOk.of_build hf.sentinel_pos hres, nofun⟩

/-- DERIVE: a valid tree gives its Code Table (R140, R264). -/
theorem deriveBody_leaves_productInv {s : State} (hs : ProductInv s) :
    (deriveBody s).Leaves ProductInv := by
  cases hv : s.treeValid with
  | false =>
    rw [deriveBody, require_false hv, Res.bind_raise]
    exact hs
  | true =>
    obtain ⟨hfreq, htree, -⟩ := hs
    obtain ⟨code, t, he, ht, hcode⟩ := deriveBody_ok hv (htree hv)
    rw [he]
    exact ⟨hfreq, fun _ => htree hv, fun _ => ⟨hv, t, ht, hcode⟩⟩

/-- The node store once `get()` has read a tree that is no leaf (R160 to R163). -/
theorem TreeOk.of_getTree {s u : State} {i : Nat} {n : Node} (h0 : s.ncount = 0)
    (h : getTree walkBound s = .ok i u) (hn : u.node[i]? = some n) (hl : n.leaf = false) :
    TreeOk (u.setTreeValid i) := by
  have hz : s.ncount.toNat = 0 := by rw [h0]; rfl
  obtain ⟨hi, t, hpre, hcount, hcap, hfit, -⟩ := getTree_sound (by omega) h
  rw [hz] at hi hcount
  subst hi
  cases t with
  | leaf v =>
    obtain rfl : Node.mkLeaf v 0 = n := Option.some.inj (hpre.symm.trans hn)
    cases hl
  | node l r =>
    have hpos := leafCount_pos (.node l r)
    exact TreeOk.of_preOrder hpre rfl (by rw [State.setTreeValid_ncount]; omega) (by omega) hfit

/-- RDTREE: no tree until its end, then the tree it has read (R160, R262). -/
theorem rdtreeBody_leaves_productInv {s : State} (hs : ProductInv s) :
    (rdtreeBody s).Leaves ProductInv := by
  have hkeep : ∀ u, HeaderFrame s.clearTree.noNodes u → ProductInv u := by
    intro u hu
    rw [HeaderFrame] at hu
    rw [hu]
    exact .of_noTree hs.1 rfl rfl
  have hframe := getTree_leaves walkBound s.clearTree.noNodes
  rw [rdtreeBody]
  cases hr : getTree walkBound s.clearTree.noNodes with
  | raise f u => exact hkeep u (hframe.of_raise hr)
  | stop x => trivial
  | ok i u =>
    have hu := hframe.of_ok hr
    rw [Res.bind_ok]
    rcases readNode_cases i u with e | ⟨n, hn, e⟩ <;> rw [e]
    · trivial
    · rw [Res.bind_ok]
      cases hl : n.leaf with
      | true => exact hkeep u hu
      | false =>
        obtain ⟨hfreq, -, -⟩ := hkeep u hu
        have hcode : u.codeValid = false := by
          rw [HeaderFrame] at hu
          rw [hu]
          rfl
        exact ⟨hfreq, fun _ => TreeOk.of_getTree rfl hr hn hl, by simp [hcode]⟩

/-! ## The invariant -/

/-- However a primitive ends, a flag that reads 1 describes a complete product. -/
theorem IsPrimitive.leaves_productInv {body : State → Res Unit} (hb : IsPrimitive body) {s : State}
    (hs : ProductInv s) : (body s).Leaves ProductInv := by
  cases hb with
  | openCheck => exact (require_leaves _ s).productInv hs
  | count => exact countBody_leaves_productInv s
  | build => exact buildBody_leaves_productInv hs
  | derive => exact deriveBody_leaves_productInv hs
  | write n v =>
    exact (require_bind_portFrame fun u => (wr_leaves n v u).port).productInv hs
  | writeLeaf v =>
    exact (require_bind_portFrame fun u => (putLeafToken_leaves v u).port).productInv hs
  | wrtree =>
    exact (require_bind_portFrame fun u => (putTree_leaves _ _ u).port).productInv hs
  | encode => exact (encodeBody_leaves s).productInv hs
  | close => exact closeBody_leaves_productInv hs
  | rewind => exact ((rewindIn_leaves s).mono fun _ h => h.port).productInv hs
  | rdmagic => exact (rdmagicBody_leaves s).productInv hs
  | rdtree => exact rdtreeBody_leaves_productInv hs
  | decode => exact (require_bind_portFrame fun u => decodeLoop_leaves _ _ u).productInv hs
  | reject f => exact hs

theorem HostAct.productInv {s t : State} (h : HostAct s t) (hs : ProductInv s) : ProductInv t := by
  cases h with
  | wait => exact hs
  | read n =>
    rw [hostRead_frame]
    exact hs
  | bind q => exact hs
  | session => exact productInv_newSession s
  | illegal w hm => exact hs
  | command op ps hm hp hr =>
    have hbusy : ProductInv (s.withMode .busy) := hs
    exact runPrimitives_leaves hbusy (fun p hpm _ hu => (hp p hpm).leaves_productInv hu)
      (fun _ _ _ hu => hu) (fun _ hu => hu) hr

/-- Settles O59: every act of the host keeps the invariant, a command by
`IsPrimitive.leaves_productInv`. -/
theorem stepKeepsProductInv : Obligations.StepKeepsProductInv := by
  intro s t hs hstep
  have hs' : ProductInv { s with hostOps := s.hostOps.tail } := hs
  exact (step_hostAct hstep).productInv hs'

end Sys2Proof.Machine
end

section
/-! Registers and their words (spec/10_state.md R21 to R33), what the host reads and writes, and the
start of a session (R36, R190, R240). -/

namespace Sys2Proof.Machine

/-! ## The words of the registers -/

/-- Two fields side by side are a weighted sum. -/
theorem toNat_append_eq_add {n m : Nat} (x : BitVec n) (y : BitVec m) :
    (x ++ y).toNat = x.toNat * 2 ^ m + y.toNat := by
  rw [BitVec.toNat_append, ← Nat.shiftLeft_add_eq_or_of_lt y.isLt, Nat.shiftLeft_eq]

theorem toNat_extractLsb' {w : Nat} (x : BitVec w) (start len : Nat) :
    (x.extractLsb' start len).toNat = x.toNat / 2 ^ start % 2 ^ len := by
  rw [BitVec.extractLsb'_toNat, Nat.shiftRight_eq_div_pow]

/-- STATUS (R22). -/
theorem statusWord_toNat (s : State) :
    s.statusWord.toNat = s.mode.bits.toNat + 4 * s.freqValid.toNat + 8 * s.treeValid.toNat +
      16 * s.codeValid.toNat + 32 * s.outClosed.toNat := by
  simp only [State.statusWord, toNat_append_eq_add, BitVec.toNat_ofBool]
  simp
  omega

/-- ERR (R28). -/
theorem Err.word_toNat (e : Err) :
    e.word.toNat = e.code.toNat + 16 * e.op.toNat + 256 * e.cmd.toNat := by
  simp only [Err.word, toNat_append_eq_add]
  omega

/-- The inspection word of a node (R24). -/
theorem Node.word_toNat (n : Node) :
    n.word.toNat = n.leaf.toNat + 2 * n.value.toNat + 2 ^ 10 * n.left.toNat +
      2 ^ 20 * n.right.toNat + 2 ^ 30 * n.weight.toNat := by
  simp only [Node.word, toNat_append_eq_add, BitVec.toNat_ofBool]
  omega

/-- The inspection word of a code (R25). -/
theorem Code.word_toNat (c : Code) :
    c.word.toNat = c.valid.toNat + 2 * c.len.toNat + 2 ^ 10 * c.bits.toNat := by
  simp only [Code.word, toNat_append_eq_add, BitVec.toNat_ofBool]
  omega

/-- Bit 0 of a word that is a flag below an even number. -/
theorem getLsbD_zero_of_toNat {w k : Nat} {x : BitVec w} {b : Bool}
    (h : x.toNat = b.toNat + 2 * k) : x.getLsbD 0 = b := by
  cases b <;> simp [BitVec.getLsbD, Nat.testBit_zero, h]

/-- A field of `len` bits at `start`, from the arithmetic of the word. -/
theorem extractLsb'_eq_of_toNat {w start len : Nat} {x : BitVec w} {v : BitVec len}
    (h : x.toNat / 2 ^ start % 2 ^ len = v.toNat) : x.extractLsb' start len = v :=
  BitVec.eq_of_toNat_eq ((toNat_extractLsb' x start len).trans h)

theorem Node.ofWord_word (n : Node) : Node.ofWord n.word = n := by
  obtain ⟨leaf, value, left, right, weight⟩ := n
  have hw := Node.word_toNat ⟨leaf, value, left, right, weight⟩
  have hleaf := Bool.toNat_le leaf
  simp only at hw
  simp only [Node.ofWord, Node.mk.injEq]
  refine ⟨getLsbD_zero_of_toNat (k := value.toNat + 2 ^ 9 * left.toNat + 2 ^ 19 * right.toNat +
    2 ^ 29 * weight.toNat) (by omega), ?_, ?_, ?_, ?_⟩
  all_goals
    apply extractLsb'_eq_of_toNat
    rw [hw]
    omega

theorem Code.ofWord_word (c : Code) : Code.ofWord c.word = c := by
  obtain ⟨valid, len, bits⟩ := c
  have hw := Code.word_toNat ⟨valid, len, bits⟩
  have hvalid := Bool.toNat_le valid
  simp only at hw
  simp only [Code.ofWord, Code.mk.injEq]
  refine ⟨getLsbD_zero_of_toNat (k := len.toNat + 2 ^ 9 * bits.toNat) (by omega), ?_, ?_⟩
  all_goals
    apply extractLsb'_eq_of_toNat
    rw [hw]
    omega

/-- Settles O11, from the words as sums of their fields. -/
theorem registerWordLayout : Obligations.RegisterWordLayout :=
  ⟨fun s => ⟨statusWord_toNat s, s.err.word_toNat⟩, fun n => ⟨n.word_toNat, n.ofWord_word⟩,
    fun c => ⟨c.word_toNat, c.ofWord_word⟩⟩

/-! ## What the host reads -/

/-- A register read shows the register's value in the low bits. -/
theorem readAs_toNat {w : Nat} (hw : w ≤ 266) (v : BitVec w) (s : State) :
    (readAs v s).1.toNat = v.toNat := BitVec.toNat_setWidth_of_le hw

theorem regRead_status (s : State) : regRead 0x001 s = readAs s.statusWord s := rfl

theorem regRead_id (s : State) : regRead 0x005 s = readAs idWord s := rfl

theorem regRead_err {s : State} (hm : s.mode ≠ .busy) : regRead 0x002 s = readAs s.err.word s := by
  simp [regRead, hm]

/-- Outside BUSY every register but STATUS, ERR and ID is read by `readProduct` (R33). -/
theorem regRead_product {n : Nat} {s : State} (hm : s.mode ≠ .busy)
    (hn : n ≠ 0x001 ∧ n ≠ 0x002 ∧ n ≠ 0x005) : regRead n s = readProduct n s := by
  obtain ⟨h1, h2, h5⟩ := hn
  simp [regRead, hm, h1, h2, h5]

theorem readProduct_root {s : State} (hv : s.treeValid = true) :
    readProduct 0x003 s = readAs s.root s := by
  simp [readProduct, hv]

theorem readProduct_ncount {s : State} (hv : s.treeValid = true) :
    readProduct 0x004 s = readAs s.ncount s := by
  simp [readProduct, hv]

theorem readProduct_freq {s : State} {k : Nat} {w : Count} (hv : s.freqValid = true)
    (hw : s.freq[k]? = some w) : readProduct (0x100 + k) s = readAs w s := by
  obtain ⟨hk, rfl⟩ := Vector.getElem?_eq_some_iff.mp hw
  rw [readProduct, if_neg (by omega), if_neg (by omega), dif_pos (by omega), if_pos hv]
  simp only [Nat.add_sub_cancel_left]

theorem readProduct_node {s : State} {k : Nat} {n : Node} (hv : s.treeValid = true)
    (hc : k < s.ncount.toNat) (hn : s.node[k]? = some n) :
    readProduct (0x400 + k) s = readAs n.word s := by
  obtain ⟨hk, rfl⟩ := Vector.getElem?_eq_some_iff.mp hn
  rw [readProduct, if_neg (by omega), if_neg (by omega), dif_neg (by omega), dif_pos (by omega),
    if_pos ⟨hv, by omega⟩]
  simp only [Nat.add_sub_cancel_left]

theorem readProduct_code {s : State} {k : Nat} {c : Code} (hv : s.codeValid = true)
    (hc : s.code[k]? = some c) : readProduct (0x800 + k) s = readAs c.word s := by
  obtain ⟨hk, rfl⟩ := Vector.getElem?_eq_some_iff.mp hc
  rw [readProduct, if_neg (by omega), if_neg (by omega), dif_neg (by omega), dif_neg (by omega),
    dif_pos (by omega), if_pos hv]
  simp only [Nat.add_sub_cancel_left]

/-- The numbers of ROOT, NCOUNT and the inspection registers (R32). -/
def IsProductNumber (n : Nat) : Prop :=
  n = 0x003 ∨ n = 0x004 ∨ (0x100 ≤ n ∧ n < 0x201) ∨ (0x400 ≤ n ∧ n < 0x601) ∨ 0x800 ≤ n ∧ n < 0x901

theorem readProduct_other {n : Nat} (h : ¬ IsProductNumber n) (s : State) :
    readProduct n s = readAs 0#1 s := by
  unfold IsProductNumber at h
  rw [readProduct, if_neg (by omega), if_neg (by omega), dif_neg (by omega), dif_neg (by omega),
    dif_neg (by omega)]

/-- CMD and the numbers outside the register map read 0 (R21, R32). -/
theorem regRead_zero {n : Nat} {s : State} (hm : s.mode ≠ .busy)
    (hn : n ≠ 0x001 ∧ n ≠ 0x002 ∧ n ≠ 0x005) (h : ¬ IsProductNumber n) : (regRead n s).1 = 0 := by
  rw [regRead_product hm hn, readProduct_other h]
  exact BitVec.setWidth_zero 266 1

/-- Settles O12, register by register. -/
theorem registerReadsGiveTheRegisters : Obligations.RegisterReadsGiveTheRegisters := by
  intro s hm
  refine ⟨?_, ?_, ?_, ?_, ?_, ?_, ?_, ?_, ?_⟩
  · exact regRead_zero hm (by omega) (by simp [IsProductNumber])
  · rw [regRead_status, readAs_toNat (by omega)]
  · rw [regRead_err hm, readAs_toNat (by omega)]
  · intro hv
    rw [regRead_product hm (by omega), readProduct_root hv, readAs_toNat (by omega)]
  · intro hv
    rw [regRead_product hm (by omega), readProduct_ncount hv, readAs_toNat (by omega)]
  · intro k w hv hw
    rw [regRead_product hm (by omega), readProduct_freq hv hw, readAs_toNat (by omega)]
  · intro k n hv hc hn
    rw [regRead_product hm (by omega), readProduct_node hv hc hn, readAs_toNat (by omega)]
  · intro k c hv hc
    rw [regRead_product hm (by omega), readProduct_code hv hc, readAs_toNat (by omega)]
  · intro n hn
    exact regRead_zero hm (by omega) (by unfold IsProductNumber; omega)

/-- Settles O13: ID is read before anything of the state is looked at, and a write to it is
ignored. -/
theorem idAlwaysReadsItsConstant : Obligations.IdAlwaysReadsItsConstant := by
  refine ⟨rfl, fun s => ?_⟩
  have hid : (regRead 0x005 s).1 = 0x48460001 := by
    rw [regRead_id]
    simp [readAs, idWord]
  have hnat : (regRead 0x005 s).1.toNat = 0x48460001 := readAs_toNat (by omega) idWord s
  exact ⟨hid, extractLsb'_eq_of_toNat (by rw [hnat]; rfl),
    extractLsb'_eq_of_toNat (by rw [hnat]; rfl), fun v => regWrite_other (by omega) v s⟩

/-- Settles O14, by the frame of a host read and the ignored write. -/
theorem readsAndOtherWritesHaveNoEffect : Obligations.ReadsAndOtherWritesHaveNoEffect :=
  ⟨fun n s => ⟨hostRead n s, rfl, hostRead_frame n s⟩, fun _ v s hn => regWrite_other hn v s⟩

/-! ## What a write to CMD runs -/

/-- The command table holds well-formed instructions (R80). -/
theorem commandTable_wellFormed : ∀ r ∈ commandTable, r.instr.wellFormed = true := by decide

theorem decodeCommand_wellFormed {w : Byte} {i : Instr} (h : decodeCommand w = .command i) :
    i.wellFormed = true := by
  unfold decodeCommand at h
  split at h
  next r hr =>
    cases h
    exact commandTable_wellFormed r (List.mem_of_find?_eq_some hr)
  next => split at h <;> cases h

/-- An 8-bit word of the opcode table is a command word. -/
theorem decodeTableWord_eight {w : Nat} {i : Instr} (h : decodeTableWord 8 w = some i) :
    decodeCommand (BitVec.ofNat 8 w) = .command i := by
  unfold decodeTableWord at h
  simp only at h
  split at h
  next j hj =>
    cases h
    exact hj
  next => cases h

/-- The host's write of a word that decodes runs the instruction on the state without that act. -/
theorem step_write_command {s : State} {v : BitVec 266} {rest : List HostOp} {i : Instr}
    (ho : s.hostOps = .regWrite 0x000 v :: rest) (hd : decodeCommand (v.setWidth 8) = .command i) :
    step s = exec i { s with hostOps := rest } := by
  rw [step_cons ho]
  exact writeCommand_command hd _

/-- Settles O4: the write is taken off the list and its word decoded. -/
theorem stepRunsDecodedCommand : Obligations.StepRunsDecodedCommand := by
  refine ⟨fun s v rest i ho hd => ⟨decodeCommand_wellFormed hd, step_write_command ho hd⟩, ?_,
    fun s => step_nil⟩
  intro s w i hw hd
  have hword : (BitVec.ofNat 266 (w % 2 ^ 8)).setWidth 8 = BitVec.ofNat 8 w := by
    apply BitVec.eq_of_toNat_eq
    simp
  exact step_write_command (s := s.withFetchWord 8 w) rfl
    (by rw [hword]; exact decodeTableWord_eight hd)

/-- Settles O6: `acceptIdle` runs nothing outside IDLE, and CLEAR nothing in BUSY. -/
theorem commandsIgnoredOutsideIdle : Obligations.CommandsIgnoredOutsideIdle := by
  refine ⟨fun i s hm hi => exec_of_not_idle hi (by simp [hm]), fun i s hm => ?_,
    fun w s hm => illegalCommand_of_not_idle w hm⟩
  by_cases hi : i = .clear
  · rw [hi, exec_clear_busy hm]
  · exact exec_of_not_idle hi (by simp [hm])

/-! ## Reset and sessions -/

/-- Settles O9: the values of `State.reset` as R36 gives them. -/
theorem resetLeavesNothingValid : Obligations.ResetLeavesNothingValid := by
  unfold Obligations.ResetLeavesNothingValid
  decide

/-- Settles O10: CLEAR and the hardware reset are both `State.newSession`. -/
theorem clearStartsNewSession : Obligations.ClearStartsNewSession :=
  fun s hm => ⟨s.newSession, exec_clear hm, rfl, rfl⟩

theorem controlInv_reset : ControlInv State.reset :=
  ⟨nofun, fun _ => rfl, nofun, Nat.le_refl _, fun _ => ⟨rfl, nofun⟩⟩

/-- Settles O58: no flag is set, ERR is 0 and both ports are at their start. -/
theorem invariantsHoldAtReset : Obligations.InvariantsHoldAtReset :=
  ⟨controlInv_reset, .of_noProduct rfl rfl rfl⟩

end Sys2Proof.Machine
end

section
/-! A first port call that answers IOERR (spec/20_memory.md R59, R68, 60_exceptions.md R213): what
each primitive that uses a port raises then, before anything else has been read or written. -/

namespace Sys2Proof.Machine

theorem failsNext_of_answers {s : State} {rest : List Bool} (h : s.answers = true :: rest) :
    s.failsNext = true := by
  simp [State.failsNext, h]

theorem rewindIn_ioerr {s : State} (h : s.failsNext = true) :
    rewindIn s = .raise .io (s.logCall .rewind).spoilIn := by
  simp [rewindIn, h]

theorem closeOut_ioerr {s : State} (h : s.failsNext = true) :
    closeOut s = .raise .io (s.logCall .close).spoilOut := by
  simp [closeOut, h]

/-! ## The primitives that read first -/

theorem countBody_ioerr {s : State} (h : s.failsNext = true) :
    countBody s = .raise .io (s.clearProducts.seedFreq.logCall (.readBits 8)).spoilIn := by
  rw [countBody, State.readBound, countLoop, rd_ioerr (s := s.clearProducts.seedFreq) h,
    Res.bind_raise, Res.bind_raise]

theorem rdmagicBody_ioerr {s : State} (h : s.failsNext = true) :
    rdmagicBody s = .raise .io (s.logCall (.readBits 32)).spoilIn := by
  rw [rdmagicBody, rd_ioerr h, Res.bind_raise]

theorem rdtreeBody_ioerr {s : State} (h : s.failsNext = true) :
    rdtreeBody s = .raise .io (s.clearTree.noNodes.logCall (.readBits 1)).spoilIn := by
  rw [rdtreeBody, walkBound, getTree, rd_ioerr (s := s.clearTree.noNodes) h, Res.bind_raise,
    Res.bind_raise]

theorem encodeBody_ioerr {s : State} (h : s.failsNext = true) (hc : s.outClosed = false)
    (hv : s.codeValid = true) :
    encodeBody s = .raise .io (s.logCall (.readBits 8)).spoilIn := by
  rw [encodeBody, require_true (by simp [State.outOpen, hv, hc]), Res.bind_ok, State.readBound,
    encodeLoop, rd_ioerr h, Res.bind_raise, Res.bind_raise]

theorem decodeBody_ioerr {s : State} (h : s.failsNext = true) (hc : s.outClosed = false)
    (hv : s.treeValid = true) :
    decodeBody s = .raise .io (s.logCall (.readBits 1)).spoilIn := by
  rw [decodeBody, require_true (by simp [State.outOpen, hv, hc]), Res.bind_ok, State.readBound,
    decodeLoop, rd_ioerr h, Res.bind_raise]

/-! ## The primitives that write or close first -/

theorem closeBody_ioerr {s : State} (h : s.failsNext = true) (hc : s.outClosed = false) :
    closeBody s = .raise .io (s.logCall .close).spoilOut := by
  rw [closeBody, require_true (by simp [State.outOpen, hc]), Res.bind_ok, closeOut_ioerr h,
    Res.bind_raise]

theorem wrmagicBody_ioerr {s : State} (h : s.failsNext = true) (hc : s.outClosed = false) :
    wrmagicBody s = .raise .io (s.logCall (.writeBits 32 Config.magic.toNat)).spoilOut := by
  rw [wrmagicBody, require_true (by simp [State.outOpen, hc]), Res.bind_ok, putMagic,
    wr_ioerr h (by omega) (by omega)]

/-- The root of a valid tree is internal (R262 (b)), so its header starts with the bit 0. -/
theorem wrtreeBody_ioerr {s : State} (h : s.failsNext = true) (hc : s.outClosed = false)
    (hv : s.treeValid = true) (ht : TreeOk s) :
    wrtreeBody s = .raise .io (s.logCall (.writeBits 1 0)).spoilOut := by
  obtain ⟨-, -, -, -, ⟨n, hn, hleaf⟩, -⟩ := ht
  rw [wrtreeBody, require_true (by simp [State.outOpen, hv, hc]), Res.bind_ok, walkBound, putTree,
    readNode_some hn, Res.bind_ok, if_neg (by simp [hleaf]), putInternalToken,
    wr_ioerr h (by omega) (by omega), Res.bind_raise]

/-! ## The composites -/

theorem exec_compress_ioerr {s : State} (hm : s.mode = .idle) (h : s.failsNext = true)
    (hc : s.outClosed = false) :
    exec .compress s =
      .next (((s.withMode .busy).clearProducts.seedFreq.logCall (.readBits 8)).spoilIn.raise
        .io opCount opCompress) := by
  show acceptIdle (runPrimitives opCompress compressList) s = _
  rw [acceptIdle_idle hm, compressList,
    runPrimitives_ok (openCheck_ok (s := s.withMode .busy) hc)]
  exact runPrimitives_raise (countBody_ioerr h)

theorem exec_decompress_ioerr {s : State} (hm : s.mode = .idle) (h : s.failsNext = true)
    (hc : s.outClosed = false) :
    exec .decompress s =
      .next (((s.withMode .busy).logCall (.readBits 32)).spoilIn.raise
        .io opRdmagic opDecompress) := by
  show acceptIdle (runPrimitives opDecompress decompressList) s = _
  rw [acceptIdle_idle hm, decompressList,
    runPrimitives_ok (openCheck_ok (s := s.withMode .busy) hc)]
  exact runPrimitives_raise (rdmagicBody_ioerr h)

/-! ## The commands that read first -/

/-- The instruction `i` ends in E_IO of the primitive `op` in the command `cmd` after the one call
`ReadBits(n)`, with OUT untouched. -/
def FailsAtRead (s : State) (rest : List Bool) (i : Instr) (op cmd : OpCode) (n : Nat) : Prop :=
  ∃ t, exec i s = .next t ∧ t.mode = .fault ∧ t.err = ⟨5, op, cmd⟩ ∧ t.answers = rest ∧
    t.trace = s.trace ++ [.readBits n] ∧ t.outBits = s.outBits ∧ t.outShut = s.outShut ∧
    t.outClosed = s.outClosed

/-- What runs before the first read may change flags, FREQ and NCOUNT, but no port. -/
theorem FailsAtRead.of_exec {s u : State} {rest : List Bool} {i : Instr} {op cmd : OpCode} {n : Nat}
    (ha : s.answers = true :: rest)
    (hu : u = { s with
      mode := u.mode, freqValid := u.freqValid, treeValid := u.treeValid, codeValid := u.codeValid,
      freq := u.freq, ncount := u.ncount })
    (he : exec i s = .next ((u.logCall (.readBits n)).spoilIn.raise .io op cmd)) :
    FailsAtRead s rest i op cmd n := by
  refine ⟨_, he, rfl, rfl, ?_⟩
  rw [hu]
  exact ⟨congrArg List.tail ha, rfl, rfl, rfl, rfl⟩

/-- Settles O8: a primitive's first call is its first action behind its precondition, and the fault
entry ends the command there. -/
theorem failedPortCallRaisesIo : Obligations.FailedPortCallRaisesIo := by
  intro s rest hm ha
  have hf : s.failsNext = true := failsNext_of_answers ha
  refine ⟨?_, ?_, fun hc => ?_, fun hc => ?_, fun hc hv ht => ?_⟩
  · intro i op cmd n hi
    show FailsAtRead s rest i op cmd n
    simp only [List.mem_cons, Prod.mk.injEq, List.not_mem_nil, or_false] at hi
    rcases hi with (⟨rfl, rfl, rfl, rfl⟩ | ⟨rfl, rfl, rfl, rfl⟩ | ⟨rfl, rfl, rfl, rfl⟩) |
      ⟨hc, ⟨rfl, rfl, rfl, rfl⟩ | ⟨rfl, rfl, rfl, rfl⟩⟩ | ⟨hc, hv, rfl, rfl, rfl, rfl⟩ |
      ⟨hc, hv, rfl, rfl, rfl, rfl⟩
    case inl.inl => exact .of_exec ha rfl (runCommand_raise hm (countBody_ioerr hf))
    case inl.inr.inl => exact .of_exec ha rfl (runCommand_raise hm (rdmagicBody_ioerr hf))
    case inl.inr.inr => exact .of_exec ha rfl (runCommand_raise hm (rdtreeBody_ioerr hf))
    case inr.inl.inl => exact .of_exec ha rfl (exec_compress_ioerr hm hf hc)
    case inr.inl.inr => exact .of_exec ha rfl (exec_decompress_ioerr hm hf hc)
    case inr.inr.inl => exact .of_exec ha rfl (runCommand_raise hm (encodeBody_ioerr hf hc hv))
    case inr.inr.inr => exact .of_exec ha rfl (runCommand_raise hm (decodeBody_ioerr hf hc hv))
  · exact ⟨_, runCommand_raise hm (rewindIn_ioerr hf), rfl, rfl, congrArg List.tail ha, rfl, rfl,
      rfl⟩
  · exact ⟨_, runCommand_raise hm (closeBody_ioerr hf hc), rfl, rfl, congrArg List.tail ha, rfl,
      rfl, hc⟩
  · exact ⟨_, runCommand_raise hm (wrmagicBody_ioerr hf hc), rfl, rfl, congrArg List.tail ha, rfl,
      rfl, hc⟩
  · exact ⟨_, runCommand_raise hm (wrtreeBody_ioerr hf hc hv ht), rfl, rfl, congrArg List.tail ha,
      rfl, rfl, hc⟩

end Sys2Proof.Machine
end

section
/-! The streams within a session (spec/20_memory.md R55, R60, R65): IN.bits is never written, and
OUT is only appended to, by a write or by the padding of a close. After E_IO the output is
unspecified (R68), so a raise keeps the second part for every other fault only. -/

namespace Sys2Proof.Machine

/-- `t` has the input of `s`, and its output starts with the output of `s`. -/
def Extends (s t : State) : Prop := t.inBits = s.inBits ∧ s.outBits <+: t.outBits

/-- What is left of `Extends` at a raise of `f`. -/
def ExtendsAtRaise (s : State) (f : FaultCode) (t : State) : Prop :=
  t.inBits = s.inBits ∧ (f ≠ .io → s.outBits <+: t.outBits)

/-- Both streams hold the same bits. -/
def SameStreams (s t : State) : Prop := t.inBits = s.inBits ∧ t.outBits = s.outBits

theorem Extends.refl (s : State) : Extends s s := ⟨rfl, List.prefix_rfl⟩

theorem Extends.atRaise {s t : State} (h : Extends s t) (f : FaultCode) : ExtendsAtRaise s f t :=
  ⟨h.1, fun _ => h.2⟩

theorem Extends.of_sameStreams {s t u : State} (h : Extends s t) (hu : SameStreams t u) :
    Extends s u := by
  obtain ⟨hin, hout⟩ := hu
  exact ⟨hin.trans h.1, hout ▸ h.2⟩

theorem Extends.append {s t u : State} {q : Bits} (h : Extends s t) (hin : u.inBits = t.inBits)
    (hout : u.outBits = t.outBits ++ q) : Extends s u :=
  ⟨hin.trans h.1, hout ▸ h.2.trans (List.prefix_append _ q)⟩

/-! ## Parts that write no stream -/

theorem CountFrame.sameStreams {s t : State} (h : CountFrame s t) : SameStreams s t := by
  rw [CountFrame] at h
  rw [h]
  exact ⟨rfl, rfl⟩

theorem HeaderFrame.sameStreams {s t : State} (h : HeaderFrame s t) : SameStreams s t := by
  rw [HeaderFrame] at h
  rw [h]
  exact ⟨rfl, rfl⟩

theorem CodeFrame.sameStreams {s t : State} (h : CodeFrame s t) : SameStreams s t := by
  rw [CodeFrame] at h
  rw [h]
  exact ⟨rfl, rfl⟩

theorem InFrame.sameStreams {s t : State} (h : InFrame s t) : SameStreams s t :=
  h.count.sameStreams

theorem NodeFrame.sameStreams {s t : State} (h : NodeFrame s t) : SameStreams s t :=
  h.header.sameStreams

/-- A part that writes no stream keeps what has been written before it. -/
theorem Res.Leaves.keeps_extends {α : Type} {R : State → Prop} {s t : State} {r : Res α}
    (h : r.Leaves R) (hR : ∀ u, R u → SameStreams t u) (ht : Extends s t) :
    r.Keeps (Extends s) (ExtendsAtRaise s) :=
  h.keeps (fun _ hu => ht.of_sameStreams (hR _ hu)) fun _ f hu => hu.atRaise f

theorem rd_extends (n : Nat) {s t : State} (h : Extends s t) :
    (rd n t).Keeps (Extends s) (ExtendsAtRaise s) :=
  (rd_leaves n t).keeps_extends (fun _ hu => hu.sameStreams) h

theorem readNode_extends (i : Nat) {s t : State} (h : Extends s t) :
    (readNode i t).Keeps (Extends s) (ExtendsAtRaise s) :=
  (readNode_leaves i t).keeps_extends (fun _ hu => hu ▸ ⟨rfl, rfl⟩) h

theorem readCode_extends (k : Nat) {s t : State} (h : Extends s t) :
    (readCode k t).Keeps (Extends s) (ExtendsAtRaise s) :=
  (readCode_leaves k t).keeps_extends (fun _ hu => hu ▸ ⟨rfl, rfl⟩) h

/-! ## Parts that write OUT -/

theorem wr_extends (n v : Nat) {s t : State} (h : Extends s t) :
    (wr n v t).Keeps (Extends s) (ExtendsAtRaise s) := by
  rcases wr_cases n v t with ⟨e, -⟩ | e | e <;> rw [e]
  · trivial
  · exact ⟨h.1, fun hf => absurd rfl hf⟩
  · exact h.append rfl rfl

theorem closeOut_extends {s t : State} (h : Extends s t) :
    (closeOut t).Keeps (Extends s) (ExtendsAtRaise s) := by
  rcases closeOut_cases t with e | e <;> rw [e]
  · exact ⟨h.1, fun hf => absurd rfl hf⟩
  · exact h.append rfl rfl

theorem putLeafToken_extends (v : Sym) {s t : State} (h : Extends s t) :
    (putLeafToken v t).Keeps (Extends s) (ExtendsAtRaise s) :=
  (wr_extends 1 1 h).bind fun _ _ hu => wr_extends 9 _ hu

theorem putTree_extends (fuel i : Nat) {s t : State} (h : Extends s t) :
    (putTree fuel i t).Keeps (Extends s) (ExtendsAtRaise s) := by
  induction fuel generalizing i t with
  | zero => trivial
  | succ fuel ih =>
    rw [putTree]
    refine (readNode_extends i h).bind fun n u hu => ?_
    split
    · exact putLeafToken_extends _ hu
    · exact (wr_extends 1 0 hu).bind fun _ _ hw => (ih _ hw).bind fun _ _ hx => ih _ hx

theorem emitSymbol_extends (k : Nat) {s t : State} (h : Extends s t) :
    (emitSymbol k t).Keeps (Extends s) (ExtendsAtRaise s) := by
  rw [emitSymbol]
  refine (readCode_extends k h).bind fun c u hu => ?_
  cases c with
  | none => exact hu.atRaise .intLookup
  | some c => exact wr_extends _ _ hu

theorem encodeLoop_extends (fuel : Nat) {s t : State} (h : Extends s t) :
    (encodeLoop fuel t).Keeps (Extends s) (ExtendsAtRaise s) := by
  induction fuel generalizing t with
  | zero => trivial
  | succ fuel ih =>
    rw [encodeLoop]
    refine (rd_extends 8 h).bind fun a u hu => ?_
    cases a with
    | none => exact hu
    | some v => exact (emitSymbol_extends _ hu).bind fun _ _ hw => ih hw

theorem decodeLoop_extends (fuel cur : Nat) {s t : State} (h : Extends s t) :
    (decodeLoop fuel cur t).Keeps (Extends s) (ExtendsAtRaise s) := by
  induction fuel generalizing cur t with
  | zero => trivial
  | succ fuel ih =>
    rw [decodeLoop]
    refine (rd_extends 1 h).bind fun a u hu => ?_
    cases a with
    | none => exact hu.atRaise .fmtStream
    | some b =>
      refine (readNode_extends cur hu).bind fun n w hw => ?_
      refine (readNode_extends _ hw).bind fun m x hx => ?_
      split
      · split
        · exact hx
        · exact (wr_extends 8 _ hx).bind fun _ _ hy => ih _ hy
      · exact ih _ hx

/-! ## The primitives -/

theorem countBody_extends {s t : State} (h : Extends s t) :
    (countBody t).Keeps (Extends s) (ExtendsAtRaise s) := by
  have ht : Extends s t.clearProducts.seedFreq := h
  exact ((countLoop_leaves _ 0 _).keeps_extends (fun _ hu => hu.sameStreams) ht).bind
    fun _ _ hu => hu

theorem buildBody_extends {s t : State} (h : Extends s t) :
    (buildBody t).Keeps (Extends s) (ExtendsAtRaise s) := by
  have ht : Extends s t.clearTree.noNodes := h
  refine require_bind_keeps (h.atRaise .seq) fun _ => ?_
  refine ((addLeaves_leaves _ _).keeps_extends (fun _ hu => hu.sameStreams) ht).bind
    fun live u hu => ?_
  exact ((joinLive_leaves live u).keeps_extends (fun _ hw => hw.sameStreams) hu).bind
    fun _ _ hw => hw

theorem deriveBody_extends {s t : State} (h : Extends s t) :
    (deriveBody t).Keeps (Extends s) (ExtendsAtRaise s) := by
  have ht : Extends s t.clearCode.emptyCode := h
  refine require_bind_keeps (h.atRaise .seq) fun _ => ?_
  exact ((walk_leaves _ _ 0 0 _).keeps_extends (fun _ hu => hu.sameStreams) ht).bind
    fun _ _ hu => hu

theorem rdmagicBody_extends {s t : State} (h : Extends s t) :
    (rdmagicBody t).Keeps (Extends s) (ExtendsAtRaise s) := by
  refine (rd_extends 32 h).bind fun a u hu => ?_
  cases a with
  | none => exact hu.atRaise .fmtMagic
  | some v =>
    simp only []
    split
    · exact hu
    · exact hu.atRaise .fmtMagic

theorem rdtreeBody_extends {s t : State} (h : Extends s t) :
    (rdtreeBody t).Keeps (Extends s) (ExtendsAtRaise s) := by
  have ht : Extends s t.clearTree.noNodes := h
  refine ((getTree_leaves walkBound _).keeps_extends (fun _ hu => hu.sameStreams) ht).bind
    fun r u hu => ?_
  refine (readNode_extends r hu).bind fun n w hw => ?_
  split
  · exact hw.atRaise .fmtHdrBad
  · exact hw

/-- Every primitive keeps the input and appends to the output, unless a port call fails. -/
theorem IsPrimitive.keeps_extends {body : State → Res Unit} (hb : IsPrimitive body) {s t : State}
    (h : Extends s t) : (body t).Keeps (Extends s) (ExtendsAtRaise s) := by
  have hseq := h.atRaise .seq
  cases hb with
  | openCheck =>
    show (require t.outOpen t).Keeps (Extends s) (ExtendsAtRaise s)
    cases ho : t.outOpen with
    | true => exact h
    | false => exact hseq
  | count => exact countBody_extends h
  | build => exact buildBody_extends h
  | derive => exact deriveBody_extends h
  | write n v => exact require_bind_keeps hseq fun _ => wr_extends n v h
  | writeLeaf v => exact require_bind_keeps hseq fun _ => putLeafToken_extends v h
  | wrtree => exact require_bind_keeps hseq fun _ => putTree_extends _ _ h
  | encode =>
    exact require_bind_keeps hseq fun _ =>
      (encodeLoop_extends _ h).bind fun _ _ hu => emitSymbol_extends _ hu
  | close =>
    exact require_bind_keeps hseq fun _ => (closeOut_extends h).bind fun _ _ hu => hu
  | rewind => exact (rewindIn_leaves t).keeps_extends (fun _ hu => hu.sameStreams) h
  | rdmagic => exact rdmagicBody_extends h
  | rdtree => exact rdtreeBody_extends h
  | decode => exact require_bind_keeps hseq fun _ => decodeLoop_extends _ _ h
  | reject f => exact h.atRaise f

/-- What a command leaves of `Extends`: ERR.CODE 5 is E_IO (R210). -/
def ExtendsUnlessIo (s t : State) : Prop :=
  t.inBits = s.inBits ∧ (t.err.code ≠ 5 → s.outBits <+: t.outBits)

theorem Extends.unlessIo {s t : State} (h : Extends s t) : ExtendsUnlessIo s t :=
  ⟨h.1, fun _ => h.2⟩

theorem ExtendsAtRaise.unlessIo {s t : State} {f : FaultCode} (h : ExtendsAtRaise s f t)
    (op cmd : OpCode) : ExtendsUnlessIo s (t.raise f op cmd) :=
  ⟨h.1, fun hne => h.2 fun hf => hne (by rw [hf]; rfl)⟩

/-- Settles O55: outside IDLE nothing runs; a command is a list of primitives, each of which
`IsPrimitive.keeps_extends` covers. -/
theorem streamsAreOnlyReadAndAppended : Obligations.StreamsAreOnlyReadAndAppended := by
  intro i s t hi he
  show ExtendsUnlessIo s t
  by_cases hm : s.mode = .idle
  · obtain ⟨op, ps, hp, hrun⟩ := runsPrimitives_of_ne_clear hi
    rw [hrun, acceptIdle_idle hm] at he
    have hbusy : Extends s (s.withMode .busy) := .refl s
    have hidle : ∀ u, Extends s u → ExtendsUnlessIo s (u.withMode .idle) := fun _ hu => hu.unlessIo
    exact runPrimitives_keeps hbusy (fun p hpm _ hu => (hp p hpm).keeps_extends hu)
      (fun _ _ _ hu => hu.unlessIo _ _) hidle he
  · rw [exec_of_not_idle hi hm] at he
    cases he
    exact (Extends.refl s).unlessIo

end Sys2Proof.Machine
end

section
/-! Encodings (spec/30_encoding.md R80 to R90): the command table read in both directions, each stream
token read back at the front of a stream, and the walk of a code word along a leaf's path. -/

namespace Sys2Proof.Machine

/-! ## Command words -/

theorem commandTable_commandWord :
    ∀ r ∈ commandTable, r.instr.commandWord = some r.pat := by decide

/-- The command words are the rows of the command table, under the full mask (R81, R94). -/
theorem commandWord_eq_some_iff {i : Instr} {w : Byte} :
    i.commandWord = some w ↔ ⟨w, 0xFF, i⟩ ∈ commandTable := by
  refine ⟨fun h => ?_, commandTable_commandWord ⟨w, 0xFF, i⟩⟩
  cases i with
  | magic | hdrInternal | hdrLeaf | codeword | literal8 => cases h
  | _ => cases h; decide

theorem commandTable_mask : ∀ r ∈ commandTable, r.mask = 0xFF := by decide

theorem commandTable_decode : ∀ r ∈ commandTable, decodeCommand r.pat = .command r.instr := by decide

theorem commandTable_bits : ∀ r ∈ commandTable, r.instr.bits = bitsOf 8 r.pat.toNat := by decide

/-- A word decodes to the instruction of the one row it equals (R80, R81). -/
theorem decodeCommand_eq_command_iff {i : Instr} {w : Byte} :
    decodeCommand w = .command i ↔ ⟨w, 0xFF, i⟩ ∈ commandTable := by
  refine ⟨fun h => ?_, commandTable_decode ⟨w, 0xFF, i⟩⟩
  unfold decodeCommand at h
  split at h
  next r hr =>
    have hmem := List.mem_of_find?_eq_some hr
    obtain ⟨pat, mask, instr⟩ := r
    obtain rfl : mask = 0xFF := commandTable_mask _ hmem
    have hmatch : w &&& 0xFF#8 = pat := by simpa using List.find?_some hr
    obtain rfl : w = pat := (BitVec.and_allOnes (x := w)).symm.trans hmatch
    cases h
    exact hmem
  next => split at h <;> cases h

/-- Decoding is the inverse of the table of command words (R81). -/
theorem commandWord_iff_decodeCommand {i : Instr} {w : Byte} :
    i.commandWord = some w ↔ decodeCommand w = .command i :=
  commandWord_eq_some_iff.trans decodeCommand_eq_command_iff.symm

/-! ## Stream tokens -/

/-- The field at the front of a sequence. -/
theorem fieldAt_zero_bitsOf_append {n : Nat} (v : BitVec n) (rest : Bits) :
    fieldAt n (bitsOf n v.toNat ++ rest) 0 = v :=
  fieldAt_bitsOf (rest := rest) List.drop_zero

theorem drop_bitsOf_append (n v : Nat) (rest : Bits) : (bitsOf n v ++ rest).drop n = rest :=
  List.drop_left' (bitsOf_length n v)

/-- R86. -/
theorem decodeToken_magic (rest : Bits) :
    decodeToken .magic ((Instr.magic Config.magic).bits ++ rest) =
      .token (.magic Config.magic) rest := by
  rw [Instr.bits, decodeToken, if_neg (by simp),
    fieldAt_zero_bitsOf_append, if_pos rfl, drop_bitsOf_append]

/-- R87, R89. -/
theorem decodeToken_hdrLeaf {v : Sym} (hv : v.toNat ≤ 256) (rest : Bits) :
    decodeToken .header ((Instr.hdrLeaf v).bits ++ rest) = .token (.hdrLeaf v) rest := by
  rw [Instr.bits, List.cons_append, decodeToken, if_neg (by simp),
    fieldAt_zero_bitsOf_append, if_pos hv, drop_bitsOf_append]

/-- R89. -/
theorem decodeToken_literal8 (b : Byte) (rest : Bits) :
    decodeToken .plain ((Instr.literal8 b).bits ++ rest) = .token (.literal8 b) rest := by
  rw [Instr.bits, decodeToken, if_neg (by simp),
    fieldAt_zero_bitsOf_append, drop_bitsOf_append]

/-- The walk along a leaf's path stops at its end, whatever follows (R90, R92): it has counted the
path's bits and collected their value. -/
theorem codeWalk_path {t : Tree} {v : Sym} {p : Bits} (hp : (v, p) ∈ leafPaths t) (l a : Nat)
    (rest : Bits) : codeWalk t l a (p ++ rest) = some (l + p.length, valFrom a p, rest) := by
  induction t generalizing p l a with
  | leaf u =>
    obtain ⟨rfl, rfl⟩ : v = u ∧ p = [] := by simpa [leafPaths] using hp
    rfl
  | node left right ihl ihr =>
    simp only [leafPaths, List.mem_append, List.mem_map, Prod.mk.injEq] at hp
    obtain ⟨⟨u, q⟩, hq, rfl, rfl⟩ | ⟨⟨u, q⟩, hq, rfl, rfl⟩ := hp
    · simp [codeWalk, ihl hq, valFrom, Nat.add_assoc, Nat.add_comm 1]
    · simp [codeWalk, ihr hq, valFrom, Nat.add_assoc, Nat.add_comm 1]

theorem codeFits_iff {len : CodeLen} {b : BitVec 256} :
    codeFits len b = true ↔ 1 ≤ len.toNat ∧ len.toNat ≤ 256 ∧ b.toNat < 2 ^ len.toNat := by
  simp [codeFits, Config.maxLen, and_assoc]

/-- A code word is read back by the walk that its own bits steer (R90). -/
theorem decodeToken_codeword {len : CodeLen} {b : BitVec 256} {t : Tree} {v : Sym}
    (hb : b.toNat < 2 ^ len.toNat) (hp : (v, (Instr.codeword len b).bits) ∈ leafPaths t)
    (rest : Bits) :
    decodeToken (.symbols t) ((Instr.codeword len b).bits ++ rest) =
      .token (.codeword len b) rest := by
  have hval : valFrom 0 (bitsOf len.toNat b.toNat) = b.toNat := valOf_bitsOf_lt hb
  rw [decodeToken, codeWalk_path hp]
  simp [Instr.bits, hval]

/-- Settles O2: a command by its row of the table, a token by reading its fields back, a code word
by the walk along its path. -/
theorem decodeOfEncodeIsTheInstruction : Obligations.DecodeOfEncodeIsTheInstruction := by
  refine ⟨fun i w => commandWord_iff_decodeCommand,
    fun i w h => commandTable_bits _ (commandWord_eq_some_iff.mp h), fun m rest hm => ?_,
    fun rest => rfl, fun v rest hv => decodeToken_hdrLeaf (of_decide_eq_true hv) rest,
    fun len b t v rest hw hp => ?_, decodeToken_literal8⟩
  · obtain rfl : m = Config.magic := of_decide_eq_true hm
    exact decodeToken_magic rest
  · obtain ⟨-, -, hb⟩ := codeFits_iff.mp hw
    exact decodeToken_codeword hb hp rest

/-- Settles O3, by the two counts over the tree (R88). -/
theorem headerLengthOfTree : Obligations.HeaderLengthOfTree :=
  fun t => ⟨internalCount_succ t, headerBits_length t⟩

/-- Settles O1: the words are rows of the command table, the tokens are read back with nothing after
them. -/
theorem sampleWordsDecode : Obligations.SampleWordsDecode := by
  have word {i : Instr} {w : Byte} (h : i.commandWord = some w) : decodeCommand w = .command i :=
    commandWord_iff_decodeCommand.mp h
  exact ⟨word rfl, word rfl, word rfl, word rfl, word rfl, word rfl, word rfl, word rfl, word rfl,
    word rfl, rfl, decodeToken_hdrLeaf (v := 0x41) (by decide) [], decodeToken_literal8 0x41 []⟩

end Sys2Proof.Machine
end

section
/-! Stream tokens as instructions (spec/30_encoding.md R82, R86 to R93; log entries 10 to 12): a token
written to an open output appends its bits, to a closed one it raises E_SEQ, and a token its reader
refuses raises the reader's fault. -/

namespace Sys2Proof.Machine

/-- `t` is `s` with `q` appended to the output, and what the port calls leave in their record. -/
def Appends (q : Bits) (s t : State) : Prop :=
  t = { s with outBits := s.outBits ++ q, answers := t.answers, trace := t.trace }

theorem putBits_appends (n v : Nat) (s : State) : Appends (bitsOf n v) s (s.putBits n v) := rfl

theorem Appends.trans {p q : Bits} {s t u : State} (h : Appends p s t) (h' : Appends q t u) :
    Appends (p ++ q) s u := by
  rw [Appends] at h h' ⊢
  rw [h', h]
  simp

/-- What a command appends while BUSY it has appended when it is back in IDLE (R31). -/
theorem Appends.of_busy {q : Bits} {s t : State} (hm : s.mode = .idle)
    (h : Appends q (s.withMode .busy) t) : Appends q s (t.withMode .idle) := by
  rw [Appends] at h ⊢
  rw [h, ← hm]
  rfl

/-- R56 gives a write of no bits or of more than 256 no behaviour (log entry 12). -/
theorem wr_stop {n : Nat} (hn : n = 0 ∨ 256 < n) (v : Nat) (s : State) :
    wr n v s = .stop .writeWidth := if_pos hn

/-! ## Running a token -/

theorem runCommand_stop {op : OpCode} {body : State → Res Unit} {s : State} {x : Fault}
    (hm : s.mode = .idle) (h : body (s.withMode .busy) = .stop x) :
    runCommand op body s = .fault x := by
  rw [runCommand, acceptIdle_idle hm, runPrimitives_stop h]

theorem runToken_ok {op : OpCode} {put : State → Res Unit} {s t : State} (hm : s.mode = .idle)
    (ho : s.outClosed = false) (h : put (s.withMode .busy) = .ok () t) :
    runToken op put s = .next (t.withMode .idle) := by
  apply runCommand_ok hm
  rw [require_true (by simp [State.outOpen, ho]), Res.bind_ok, h]

/-- The precondition OUT_CLOSED = 0 fails before anything is written (R82). -/
theorem runToken_closed {s : State} (hm : s.mode = .idle) (ho : s.outClosed = true) (op : OpCode)
    (put : State → Res Unit) :
    runToken op put s = .next { s with mode := .fault, err := ⟨8, op, op⟩ } := by
  apply runCommand_raise (t := s.withMode .busy) (f := .seq) hm
  rw [require_false (by simp [State.outOpen, ho]), Res.bind_raise]

theorem runToken_stop {op : OpCode} {put : State → Res Unit} {s : State} {x : Fault}
    (hm : s.mode = .idle) (ho : s.outClosed = false) (h : put (s.withMode .busy) = .stop x) :
    runToken op put s = .fault x := by
  apply runCommand_stop hm
  rw [require_true (by simp [State.outOpen, ho]), Res.bind_ok, h]

theorem rejectToken_idle {s : State} (hm : s.mode = .idle) (op : OpCode) (f : FaultCode) :
    rejectToken op f s = .next { s with mode := .fault, err := ⟨f.code, op, op⟩ } :=
  runCommand_raise (t := s.withMode .busy) hm rfl

/-- A token of one write, 1 to 256 bits wide, appends what it writes (R56). -/
theorem runToken_wr_appends {n : Nat} {s : State} (hs : s.Ready) (ho : s.outClosed = false)
    (h0 : 1 ≤ n) (h1 : n ≤ 256) (v : Nat) (op : OpCode) :
    ∃ t, runToken op (wr n v) s = .next t ∧ Appends (bitsOf n v) s t := by
  obtain ⟨hm, hq⟩ := hs
  exact ⟨_, runToken_ok hm ho (wr_ok (s := s.withMode .busy) hq.failsNext h0 h1),
    (putBits_appends n v _).of_busy hm⟩

/-- HDR_LEAF is two writes, the bit 1 and the Symbol (R87). -/
theorem runToken_putLeafToken_appends {s : State} (hs : s.Ready) (ho : s.outClosed = false)
    (v : Sym) (op : OpCode) :
    ∃ t, runToken op (putLeafToken v) s = .next t ∧ Appends (Instr.hdrLeaf v).bits s t := by
  obtain ⟨hm, hq⟩ := hs
  exact ⟨_, runToken_ok hm ho (putLeafToken_ok (s := s.withMode .busy) hq),
    ((putBits_appends 1 1 _).trans (putBits_appends 9 v.toNat _)).of_busy hm⟩

/-! ## MAGIC and HDR_LEAF are their writer's field or their reader's fault (R86, R89, R93) -/

theorem exec_magic_legal (s : State) :
    exec (.magic Config.magic) s = runToken opWrmagic (putMagic Config.magic) s := if_pos rfl

theorem exec_magic_illegal {m : BitVec 32} (h : m ≠ Config.magic) (s : State) :
    exec (.magic m) s = rejectToken opRdmagic .fmtMagic s := if_neg h

theorem exec_hdrLeaf_legal {v : Sym} (h : v.toNat ≤ 256) (s : State) :
    exec (.hdrLeaf v) s = runToken opWrtree (putLeafToken v) s := if_pos h

theorem exec_hdrLeaf_illegal {v : Sym} (h : 256 < v.toNat) (s : State) :
    exec (.hdrLeaf v) s = rejectToken opRdtree .fmtHdrBad s := if_neg (Nat.not_le.mpr h)

/-- Settles O48: every token but HDR_LEAF is one write of its bits, HDR_LEAF two. -/
theorem tokenAppendsItsBits : Obligations.TokenAppendsItsBits := by
  intro i s hc hw hs ho
  show ∃ t, exec i s = .next t ∧ Appends i.bits s t
  have write : ∀ (n v : Nat) (op : OpCode), 1 ≤ n → n ≤ 256 →
      ∃ t, runToken op (wr n v) s = .next t ∧ Appends (bitsOf n v) s t :=
    fun n v op h0 h1 => runToken_wr_appends hs ho h0 h1 v op
  cases i with
  | magic m =>
    obtain rfl : m = Config.magic := of_decide_eq_true hw
    rw [exec_magic_legal]
    exact write 32 _ _ (by decide) (by decide)
  | hdrInternal => exact write 1 0 _ (by decide) (by decide)
  | hdrLeaf v =>
    rw [exec_hdrLeaf_legal (of_decide_eq_true hw)]
    exact runToken_putLeafToken_appends hs ho v _
  | codeword len b =>
    obtain ⟨h0, h1, -⟩ := codeFits_iff.mp hw
    exact write len.toNat b.toNat _ h0 h1
  | literal8 b => exact write 8 _ _ (by decide) (by decide)
  | _ => cases hc

/-- Settles O49: the reader's fault for what a reader refuses, E_SEQ for a legal token on a closed
output, and the stop of a write of no width that R56 knows. -/
theorem illegalTokenIsRejected : Obligations.IllegalTokenIsRejected := by
  intro s hm
  refine ⟨fun v hv => ?_, fun m hne => ?_, fun ho => ⟨?_, ?_, fun v hv => ?_, fun len b => ?_,
    fun b => ?_⟩, fun ho len b hlen => ?_⟩
  · rw [exec_hdrLeaf_illegal hv]
    exact rejectToken_idle hm _ _
  · rw [exec_magic_illegal hne]
    exact rejectToken_idle hm _ _
  · rw [exec_magic_legal]
    exact runToken_closed hm ho _ _
  · exact runToken_closed hm ho _ _
  · rw [exec_hdrLeaf_legal hv]
    exact runToken_closed hm ho _ _
  · exact runToken_closed hm ho _ _
  · exact runToken_closed hm ho _ _
  · exact runToken_stop hm ho (wr_stop hlen _ _)

end Sys2Proof.Machine
end

section
/-! COUNT (spec/40_frequency.md R110 to R113): the table it counts, its fault on one byte too many, and
the sentinel's count; and the frames of the commands that only read IN. -/

namespace Sys2Proof.Machine

/-! ## COUNT -/

/-- A byte value's entry, counted from the seed of R110, is its number of occurrences. -/
theorem countBytes_seed_get (bs : List Byte) (v : Byte) :
    (countBytes ((Vector.replicate 257 0).set 256 1) bs)[v.toNat]? =
      some (BitVec.ofNat 32 (bs.count v)) := by
  have hv := v.isLt
  have hseed : ((Vector.replicate 257 (0 : Count)).set 256 1)[v.toNat]'(by omega) = 0 := by
    rw [Vector.getElem_set_ne _ _ (by omega), Vector.getElem_replicate]
  have hcount : (bs.countP fun b => b.toNat == v.toNat) = bs.count v :=
    List.countP_congr fun b _ => by simp [BitVec.toNat_inj]
  rw [Vector.getElem?_eq_getElem (by omega), countBytes_get, hseed, hcount]
  exact congrArg some (BitVec.zero_add _)

/-- Settles O15: the loop counts every whole byte from the seed, and EOS ends it. -/
theorem countBuildsFrequencyTable : Obligations.CountBuildsFrequencyTable := by
  intro s ⟨hm, hq⟩ hl
  have hbody := countBody_ok (s := s.withMode .busy) hq hl
  refine ⟨_, runCommand_ok hm hbody, countBytes_seed_get _, (FreqOk.of_count rfl hl).1, ?_⟩
  rw [State.withMode, ← hm]
  rfl

/-- COUNT on one byte more than R112 admits. -/
theorem countBody_overflow {s : State} (hq : s.Quiet) (h : 8 * (maxBytes + 1) ≤ s.unread.length) :
    ∃ t, countBody s = .raise .overflow t ∧ CountFrame s.clearProducts t ∧
      t.inPos = s.inPos + 8 * (maxBytes + 1) := by
  have hfuel : maxBytes - 0 < s.readBound := by
    rw [State.unread_length] at h
    rw [State.readBound]
    omega
  obtain ⟨t, ht, he⟩ := countLoop_overflow (s := s.clearProducts.seedFreq) hq (Nat.zero_le maxBytes)
    hfuel h
  refine ⟨t, by rw [countBody, ht, Res.bind_raise], ?_, by rw [he]; rfl⟩
  rw [CountFrame, he]
  rfl

/-- Settles O16: the loop raises on byte number `maxBytes + 1`, with the flags that COUNT clears at
its start. -/
theorem countOverflowFaults : Obligations.CountOverflowFaults := by
  intro s ⟨hm, hq⟩ h
  obtain ⟨t, hbody, hframe, hpos⟩ := countBody_overflow (s := s.withMode .busy) hq h
  rw [CountFrame] at hframe
  refine ⟨_, runCommand_raise hm hbody, rfl, rfl, ?_, ?_, ?_, hpos, ?_⟩ <;> rw [hframe] <;> rfl

/-- What a one-primitive command leaves when it is accepted, whatever held before it. -/
theorem runCommand_idle_leaves {P : State → Prop} {op : OpCode} {body : State → Res Unit}
    {s t : State} (hm : s.mode = .idle) (h : runCommand op body s = .next t)
    (hb : (body (s.withMode .busy)).Leaves fun u =>
      P (u.withMode .idle) ∧ ∀ f, P (u.raise f op op)) : P t := by
  cases hres : body (s.withMode .busy) with
  | ok a u =>
    rw [runCommand_ok hm hres] at h
    cases h
    exact (hb.of_ok hres).1
  | raise f u =>
    rw [runCommand_raise hm hres] at h
    cases h
    exact (hb.of_raise hres).2 f
  | stop x =>
    rw [runCommand_stop hm hres] at h
    cases h

/-- Settles O17: an accepted COUNT leaves complete products only (R265), and a complete Frequency
Table has the sentinel's count 1. -/
theorem sentinelCountIsOne : Obligations.SentinelCountIsOne := by
  intro s t hm h hv
  have hinv : ProductInv t := runCommand_idle_leaves hm h
    ((countBody_leaves_productInv _).mono fun _ hu => ⟨hu, fun _ => hu⟩)
  obtain ⟨hfreq, -, -⟩ := hinv
  exact (hfreq hv).1

/-! ## The frames of the commands that only read IN -/

/-- A relation that composes and allows for STATE and ERR holds over a command if it holds over the
command's body. -/
theorem runCommand_frame {R : State → State → Prop} {op : OpCode} {body : State → Res Unit}
    {s t : State} (refl : ∀ u, R u u) (trans : ∀ {u v w}, R u v → R v w → R u w)
    (mode : ∀ m u, R u (u.withMode m)) (raise : ∀ f u, R u (u.raise f op op))
    (hb : ∀ u, (body u).Leaves (R u)) (h : runCommand op body s = .next t) : R s t :=
  runCommand_leaves h (refl s) <| (hb _).mono fun u hu =>
    have hsu : R s u := trans (mode .busy s) hu
    ⟨trans hsu (mode .idle u), fun f => trans hsu (raise f u)⟩

/-- What COUNT may change. -/
def CountCommandFrame (s t : State) : Prop :=
  t = { s with
    mode := t.mode, err := t.err, freqValid := t.freqValid, treeValid := t.treeValid,
    codeValid := t.codeValid, freq := t.freq, inPos := t.inPos, answers := t.answers,
    trace := t.trace, draws := t.draws }

/-- What RDTREE may change. -/
def RdtreeCommandFrame (s t : State) : Prop :=
  t = { s with
    mode := t.mode, err := t.err, treeValid := t.treeValid, codeValid := t.codeValid,
    node := t.node, root := t.root, ncount := t.ncount, inPos := t.inPos,
    answers := t.answers, trace := t.trace, draws := t.draws }

/-- What RDMAGIC and REWIND may change. -/
def InCommandFrame (s t : State) : Prop :=
  t = { s with
    mode := t.mode, err := t.err, inPos := t.inPos, answers := t.answers, trace := t.trace,
    draws := t.draws }

theorem CountCommandFrame.trans {s t u : State} (h : CountCommandFrame s t)
    (h' : CountCommandFrame t u) : CountCommandFrame s u := by
  unfold CountCommandFrame at *; rw [h'] at *; rw [h]

theorem RdtreeCommandFrame.trans {s t u : State} (h : RdtreeCommandFrame s t)
    (h' : RdtreeCommandFrame t u) : RdtreeCommandFrame s u := by
  unfold RdtreeCommandFrame at *; rw [h'] at *; rw [h]

theorem InCommandFrame.trans {s t u : State} (h : InCommandFrame s t)
    (h' : InCommandFrame t u) : InCommandFrame s u := by
  unfold InCommandFrame at *; rw [h'] at *; rw [h]

theorem CountFrame.command {s t : State} (h : CountFrame s t) : CountCommandFrame s t := by
  unfold CountFrame at h; unfold CountCommandFrame; rw [h]

theorem HeaderFrame.command {s t : State} (h : HeaderFrame s t) : RdtreeCommandFrame s t := by
  unfold HeaderFrame at h; unfold RdtreeCommandFrame; rw [h]

theorem InFrame.command {s t : State} (h : InFrame s t) : InCommandFrame s t := by
  unfold InFrame at h; unfold InCommandFrame; rw [h]

theorem countBody_leaves (s : State) : (countBody s).Leaves (CountCommandFrame s) := by
  have hstart : CountCommandFrame s s.clearProducts.seedFreq := rfl
  have hloop := (countLoop_leaves s.readBound 0 s.clearProducts.seedFreq).mono fun _ hu =>
    hstart.trans hu.command
  exact Res.Leaves.seq (R := CountCommandFrame) .trans hloop fun _ _ => rfl

theorem rdtreeBody_leaves (s : State) : (rdtreeBody s).Leaves (RdtreeCommandFrame s) := by
  have hstart : RdtreeCommandFrame s s.clearTree.noNodes := rfl
  have htree := (getTree_leaves walkBound s.clearTree.noNodes).mono fun _ hu =>
    hstart.trans hu.command
  refine Res.Leaves.seq (R := RdtreeCommandFrame) .trans htree fun r u => ?_
  rcases readNode_cases r u with e | ⟨n, -, e⟩ <;> rw [e]
  · trivial
  · rw [Res.bind_ok]
    split
    · rfl
    · rfl

theorem rdmagicBody_leaves_inFrame (s : State) : (rdmagicBody s).Leaves (InFrame s) := by
  refine Res.Leaves.seq (R := InFrame) .trans (rd_leaves 32 s) fun a u => ?_
  cases a with
  | none => exact .refl u
  | some v =>
    simp only []
    split
    · exact .refl u
    · exact .refl u

/-- A command whose body uses IN and nothing else. -/
theorem runCommand_inFrame {op : OpCode} {body : State → Res Unit} {s t : State}
    (hb : ∀ u, (body u).Leaves (InFrame u)) (h : runCommand op body s = .next t) :
    InCommandFrame s t :=
  runCommand_frame (fun _ => rfl) .trans (fun _ _ => rfl) (fun _ _ => rfl)
    (fun u => (hb u).mono fun _ hu => hu.command) h

/-- Settles O50: each command's frame is that of its body, and STATE and ERR. -/
theorem readersFrame : Obligations.ReadersFrame := by
  intro s t
  refine ⟨fun h => ?_, fun h => ?_, runCommand_inFrame rdmagicBody_leaves_inFrame,
    runCommand_inFrame rewindIn_leaves⟩
  · exact runCommand_frame (R := CountCommandFrame) (fun _ => rfl) .trans (fun _ _ => rfl)
      (fun _ _ => rfl) countBody_leaves h
  · exact runCommand_frame (R := RdtreeCommandFrame) (fun _ => rfl) .trans (fun _ _ => rfl)
      (fun _ _ => rfl) rdtreeBody_leaves h

end Sys2Proof.Machine
end

section
/-! BUILD (spec/41_tree_builder.md R120 to R129): what extraction takes, where BUILD ends, the tree and
the weights it stores; and the frames of BUILD and DERIVE. -/

namespace Sys2Proof.Machine

/-! ## Extraction -/

/-- Settles O18: nothing comes before the candidate that xmin takes, and where the weights are equal
the index of another candidate cannot be equal too. -/
theorem extractionTakesTheLeast : Obligations.ExtractionTakesTheLeast := by
  intro live hne hidx
  have hnd : live.Nodup := hidx.of_map _
  obtain ⟨c, cs, rfl⟩ := List.exists_cons_of_ne_nil hne
  refine ⟨leastOf c cs, _, rfl, leastOf_mem c cs, fun d hd hdm => ?_, rfl, fun d => ?_⟩
  · rcases (Cand.not_before_iff _ _).mp (leastOf_le c cs d hd) with hlt | ⟨hw, hi⟩
    · exact .inl hlt
    · have hine : (leastOf c cs).idx ≠ d.idx := fun he => hdm (Cand.eq_of_keys hw he).symm
      exact .inr ⟨BitVec.eq_of_toNat_eq hw, Nat.lt_of_le_of_ne hi hine⟩
  · rw [hnd.mem_erase_iff, and_comm]

/-! ## Where BUILD ends -/

/-- Where an accepted BUILD ends: its frame, what the node store holds, and the tree `T(ROOT)`. -/
structure BuildEnd (s t : State) (T : Tree) : Prop where
  frame : t = { s with
    node := t.node, ncount := t.ncount, root := t.root, treeValid := true, codeValid := false }
  result : BuildResult s.freq t.node t.ncount t.root T
  ok : TreeOk t
  tree : t.tree = some T

/-- BUILD on a table with a positive sentinel count completes (R120). -/
theorem exec_build_ok {s : State} (hm : s.mode = .idle) (hv : s.freqValid = true)
    (h0 : 0 < s.freq[256]) : ∃ t T, exec .build s = .next t ∧ BuildEnd s t T := by
  obtain ⟨node, nc, root, T, hbody, hres⟩ := buildBody_ok (s := s.withMode .busy) hv h0
  have hok := TreeOk.of_build (s := { s with node := node, ncount := nc, root := root }) h0 hres
  have ⟨_, _, hcap, hroot, _⟩ := hok
  refine ⟨_, T, runCommand_ok hm hbody, by simp [State.withMode, hm], hres, hok, ?_⟩
  exact treeAt_mono hres.tree (Nat.succ_le_succ (hroot.le.trans hcap))

/-- Settles O19: leaves, sizes and node kinds are those of BUILD's result, and an internal root among
at most 513 nodes is a part of R262. -/
theorem buildEndState : Obligations.BuildEndState := by
  intro s hm hv h0
  obtain ⟨t, T, he, hend⟩ := exec_build_ok hm hv h0
  obtain ⟨-, -, hcap, -, hroot, -⟩ := hend.ok
  refine ⟨t, he, hend.frame, hend.result.leaves, fun h1 => ?_, fun h2 => ?_, hcap, hroot⟩
  · obtain ⟨hnc, hr, -⟩ := hend.result.twin h1
    exact ⟨hnc, hr⟩
  · obtain ⟨hb, -, hnc, hr⟩ := hend.result.merged h2
    refine ⟨hnc, hr, fun k hk hk' => ?_⟩
    obtain ⟨a, b, l, r, hn, -⟩ := hb.inner k hk hk'
    exact ⟨_, hn, rfl⟩

/-- Settles O23: the tree that BUILD's result names is both `T(ROOT)` and the greedy tree. -/
theorem buildRefinesTheGreedyQueue : Obligations.BuildRefinesTheGreedyQueue := by
  intro s hm hv h0
  obtain ⟨t, T, he, hend⟩ := exec_build_ok hm hv h0
  exact ⟨t, T, he, hend.tree, hend.result.greedy⟩

/-! ## Empty input -/

/-- The pairs that BUILD scans have count 0 as far as the table is 0. -/
theorem zipIdx_take_zero {freq : Vector Count 257} {m : Nat} (hz : ∀ k < m, freq[k]? = some 0) :
    ∀ p ∈ (freq.toList.take m).zipIdx, p.1 = 0 := by
  intro p hp
  obtain ⟨k, hk, he⟩ := List.mem_take_iff_getElem.mp (List.fst_mem_of_mem_zipIdx hp)
  have hk0 := hz k (by omega)
  rw [Vector.getElem?_eq_some_iff] at hk0
  obtain ⟨hk', hk0⟩ := hk0
  rw [← he, Vector.getElem_toList, hk0]

/-- A table that counts nothing but the sentinel. -/
theorem positives_only_sentinel {freq : Vector Count 257} (hz : ∀ k < 256, freq[k]? = some 0)
    (h0 : 0 < freq[256]) : positives freq = [(freq[256], 256)] := by
  have hlen : freq.toList.length = 257 := Vector.length_toList
  have hlist : freq.toList = freq.toList.take 256 ++ [freq[256]] := by
    rw [← Vector.getElem_toList (by omega), List.take_append_getElem,
      List.take_of_length_le (by omega)]
  have hnone : ((freq.toList.take 256).zipIdx.filter fun p => decide (0 < p.1)) = [] :=
    List.filter_eq_nil_iff.mpr fun p hp => by rw [zipIdx_take_zero hz p hp]; decide
  rw [positives, hlist, List.zipIdx_append, List.filter_append, hnone, List.length_take, hlen]
  simpa using h0

/-- Settles O20: the sentinel is the one counted Symbol, so BUILD takes the arm of R125. -/
theorem emptyInputBuildsTheTwinTree : Obligations.EmptyInputBuildsTheTwinTree := by
  intro s hm hv hz h0
  have hpos := positives_only_sentinel hz h0
  obtain ⟨t, T, he, hend⟩ := exec_build_ok hm hv h0
  obtain ⟨hnc, hr, p, hp, hn1, hn2⟩ := hend.result.twin (by rw [hpos]; rfl)
  obtain rfl : (s.freq[256], 256) = p := by simpa [hpos] using hp
  have htree : T = .node (.leaf 256) (.leaf 256) := by
    have hg := hend.result.greedy
    rw [greedyTree, hpos] at hg
    exact (Option.some.inj hg).symm
  exact ⟨t, he, hend.result.leaves 0 (s.freq[256], 256) (by rw [hpos]; rfl), hn1, hn2, hr, hnc,
    by rw [hend.frame], htree ▸ hend.tree⟩

/-! ## A table without a positive count -/

theorem addLeaves_zero {l : List (Count × Nat)} (h : ∀ p ∈ l, p.1 = 0) (s : State) :
    addLeaves l s = .ok [] s := by
  induction l with
  | nil => rfl
  | cons p l ih =>
    rw [List.forall_mem_cons] at h
    rw [addLeaves, if_neg (by rw [h.1]; decide)]
    exact ih h.2

theorem buildBody_no_count {s : State} (hv : s.freqValid = true)
    (hz : ∀ k < 257, s.freq[k]? = some 0) :
    buildBody s = .raise .intEmpty s.clearTree.noNodes := by
  have hzero := zipIdx_take_zero hz
  rw [List.take_of_length_le Vector.length_toList.le] at hzero
  rw [buildBody, require_true hv, Res.bind_ok, addLeaves_zero hzero, Res.bind_ok, joinLive,
    Res.bind_raise]

/-- Settles O24: no leaf is made, and the empty live set raises (R128). -/
theorem noLeafRaisesIntEmpty : Obligations.NoLeafRaisesIntEmpty := fun s hm hv hz =>
  runCommand_raise hm (buildBody_no_count (s := s.withMode .busy) hv hz)

/-! ## Merged nodes and exact sums -/

/-- An internal node that a merge made (R123): older children, the left one extracted first, and the
exact sum where the counts do not overflow. -/
theorem Built.of_internal {ps : List (Count × Nat)} {node : Vector Node 513} {nc k : Nat} {n : Node}
    (hb : Built ps node nc) (hk : k < nc) (hn : node[k]? = some n) (hl : n.leaf = false) :
    ∃ l r, node[n.left.toNat]? = some l ∧ node[n.right.toNat]? = some r ∧
      n.left.toNat < k ∧ n.right.toNat < k ∧
      (l.weight.toNat < r.weight.toNat ∨
        (l.weight.toNat = r.weight.toNat ∧ n.left.toNat < n.right.toNat)) ∧
      (weightSum ps < 2 ^ 32 → n.weight.toNat = l.weight.toNat + r.weight.toNat) := by
  have hcap : k < 513 := (Vector.getElem?_eq_some_iff.mp hn).1
  have hinner : ps.length ≤ k := by
    by_contra hlt
    have hleaf := hb.leaves k ps[k] (by simp)
    rw [hn, Option.some.injEq] at hleaf
    rw [hleaf] at hl
    cases hl
  obtain ⟨a, b, l, r, hab, ha, hb', -, hla, hrb, hord, hsum⟩ := hb.inner k hinner hk
  rw [hn, Option.some.injEq] at hab
  subst hab
  have hleft : (Node.mkNode a b (l.weight + r.weight)).left.toNat = a := by
    simp [Node.mkNode]; omega
  have hright : (Node.mkNode a b (l.weight + r.weight)).right.toNat = b := by
    simp [Node.mkNode]; omega
  rw [hleft, hright]
  exact ⟨l, r, hla, hrb, ha, hb', hord, hsum⟩

/-- Settles O21: with two Symbols or more a merge made every internal node. -/
theorem leftChildIsExtractedFirst : Obligations.LeftChildIsExtractedFirst := by
  intro s hm hv h0 h2
  obtain ⟨t, T, he, hend⟩ := exec_build_ok hm hv h0
  obtain ⟨hb, -⟩ := hend.result.merged h2
  refine ⟨t, he, fun k n l r hk hn hl hnl hnr => ?_⟩
  obtain ⟨l', r', hl', hr', -, -, hord, -⟩ := hb.of_internal hk hn hl
  rw [hnl, Option.some.injEq] at hl'
  rw [hnr, Option.some.injEq] at hr'
  subst hl' hr'
  exact hord.imp id (And.imp_left BitVec.eq_of_toNat_eq)

/-- R129 (a), (c): every stored internal node weighs exactly the sum of its children, which are
older. -/
def ExactSums (node : Vector Node 513) (nc : Nat) : Prop :=
  ∀ (k : Nat) (n : Node), k < nc → node[k]? = some n → n.leaf = false →
    ∃ l r, node[n.left.toNat]? = some l ∧ node[n.right.toNat]? = some r ∧
      n.weight.toNat = l.weight.toNat + r.weight.toNat ∧ n.left.toNat < k ∧ n.right.toNat < k

/-- Exact sums in the store are exact sums in `Tw(i)`. -/
theorem ExactSums.weightsAdd {node : Vector Node 513} {nc f i : Nat} {W : WTree}
    (h : ExactSums node nc) (hW : weightedTreeAt node f i = some W) (hi : i < nc) :
    weightsAdd W = true :=
  weightsAdd_of hW hi fun k n hk hn hl => by
    obtain ⟨l, r, hnl, hnr, hw, hlk, hrk⟩ := h k n hk hn hl
    exact ⟨l, r, hnl, hnr, hw, hlk.trans hk, hrk.trans hk⟩

/-- The Symbols left out of `positives` weigh nothing, so the sums agree. -/
theorem weightSum_positives (freq : Vector Count 257) :
    weightSum (positives freq) = countSum freq := by
  have hfilter : ∀ (l : List Count) (k : Nat),
      weightSum ((l.zipIdx k).filter fun p => decide (0 < p.1)) = (l.map (·.toNat)).sum := by
    intro l
    induction l with
    | nil => exact fun _ => rfl
    | cons w l ih =>
      intro k
      have hl := ih (k + 1)
      rw [weightSum] at hl ⊢
      rw [List.zipIdx_cons, List.filter_cons]
      by_cases hw : 0 < w
      · rw [if_pos (decide_eq_true hw), List.map_cons, List.sum_cons, hl, List.map_cons,
          List.sum_cons]
      · have hw0 : w = 0 := by simpa using hw
        rw [if_neg (by simpa using hw0), hl, hw0]
        simp
  exact hfilter freq.toList 0

section
variable {freq : Vector Count 257} {node : Vector Node 513} {nc root : Index} {T : Tree}

theorem BuildResult.length_eq_one_or (h : BuildResult freq node nc root T) :
    (positives freq).length = 1 ∨ 2 ≤ (positives freq).length := by
  have hne : (positives freq).length ≠ 0 := fun h0 => by
    have hg := h.greedy
    rw [greedyTree, List.length_eq_zero_iff.mp h0] at hg
    cases hg
  omega

theorem BuildResult.exactSums (h : BuildResult freq node nc root T) (hs : countSum freq < 2 ^ 32) :
    ExactSums node nc.toNat := by
  intro k n hk hn hl
  rcases h.length_eq_one_or with h1 | h2
  · obtain ⟨rfl, -, p, hp, hn1, hn2⟩ := h.twin h1
    have hn0 := h.leaves 0 p (by rw [hp]; rfl)
    change k < 3 at hk
    interval_cases k
    · cases hn0.symm.trans hn
      cases hl
    · cases hn1.symm.trans hn
      cases hl
    · cases hn2.symm.trans hn
      exact ⟨_, _, hn0, hn1, rfl, Nat.zero_lt_two, Nat.one_lt_two⟩
  · obtain ⟨hb, -⟩ := h.merged h2
    obtain ⟨l, r, hnl, hnr, hlk, hrk, -, hsum⟩ := hb.of_internal hk hn hl
    exact ⟨l, r, hnl, hnr, hsum (weightSum_positives freq ▸ hs), hlk, hrk⟩

/-- R129 (b). -/
theorem BuildResult.root_weight (h : BuildResult freq node nc root T)
    (hs : countSum freq < 2 ^ 32) :
    ∃ n, node[root.toNat]? = some n ∧ n.weight.toNat = countSum freq := by
  rw [← weightSum_positives] at hs ⊢
  rcases h.length_eq_one_or with h1 | h2
  · obtain ⟨-, rfl, p, hp, -, hn2⟩ := h.twin h1
    exact ⟨_, hn2, by simp [Node.mkNode, weightSum, hp]⟩
  · obtain ⟨-, hf, -⟩ := h.merged h2
    obtain ⟨n, hn, hw⟩ := hf.weight _ (List.mem_singleton_self _)
    have hsum := hf.sum hs
    rw [List.map_singleton, List.sum_singleton] at hsum
    exact ⟨n, hn, (congrArg BitVec.toNat hw).trans hsum⟩

/-- R129 (d): one leaf per counted Symbol. -/
theorem BuildResult.labels_perm (h : BuildResult freq node nc root T)
    (h2 : 2 ≤ (positives freq).length) :
    ((leafPaths T).map (·.1)).Perm ((positives freq).map fun p => BitVec.ofNat 9 p.2) := by
  obtain ⟨-, hf, -⟩ := h.merged h2
  simpa using hf.labels

end

/-- Settles O22: a Frequency Table does not overflow, so BUILD's sums are exact at every node, and
the weighted tree and its leaves are read off the store. -/
theorem builtTreeWeights : Obligations.BuiltTreeWeights := by
  intro s hm hv hf
  obtain ⟨t, T, he, hend⟩ := exec_build_ok hm hv hf.sentinel_pos
  have hlt : countSum s.freq < 2 ^ 32 := Nat.lt_of_le_pred (by decide) hf.2
  have hsums := hend.result.exactSums hlt
  obtain ⟨n, hn, hw⟩ := hend.result.root_weight hlt
  obtain ⟨W, hW, hshape⟩ := weightedTreeAt_of_tree hend.tree
  obtain ⟨-, -, -, hroot, -⟩ := hend.ok
  exact ⟨t, T, he, hend.tree, hsums, ⟨n, hn, hw⟩,
    ⟨W, hW, hshape, hsums.weightsAdd hW hroot, by rw [rootWeight_eq hW hn, hw]⟩,
    hend.result.labels_perm⟩

/-! ## The frames of BUILD and DERIVE -/

/-- What BUILD may change. -/
def BuildCommandFrame (s t : State) : Prop :=
  t = { s with
    mode := t.mode, err := t.err, treeValid := t.treeValid, codeValid := t.codeValid,
    node := t.node, root := t.root, ncount := t.ncount }

/-- What DERIVE may change. -/
def DeriveCommandFrame (s t : State) : Prop :=
  t = { s with mode := t.mode, err := t.err, codeValid := t.codeValid, code := t.code }

theorem BuildCommandFrame.trans {s t u : State} (h : BuildCommandFrame s t)
    (h' : BuildCommandFrame t u) : BuildCommandFrame s u := by
  unfold BuildCommandFrame at *; rw [h'] at *; rw [h]

theorem DeriveCommandFrame.trans {s t u : State} (h : DeriveCommandFrame s t)
    (h' : DeriveCommandFrame t u) : DeriveCommandFrame s u := by
  unfold DeriveCommandFrame at *; rw [h'] at *; rw [h]

theorem NodeFrame.command {s t : State} (h : NodeFrame s t) : BuildCommandFrame s t := by
  unfold NodeFrame at h; unfold BuildCommandFrame; rw [h]

theorem CodeFrame.command {s t : State} (h : CodeFrame s t) : DeriveCommandFrame s t := by
  unfold CodeFrame at h; unfold DeriveCommandFrame; rw [h]

theorem buildBody_leaves (s : State) : (buildBody s).Leaves (BuildCommandFrame s) := by
  cases hv : s.freqValid with
  | false => rw [buildBody, require_false hv, Res.bind_raise]; rfl
  | true =>
    rw [buildBody, require_true hv, Res.bind_ok]
    have hstart : BuildCommandFrame s s.clearTree.noNodes := rfl
    have hleaves := (addLeaves_leaves s.freq.toList.zipIdx s.clearTree.noNodes).mono fun _ hu =>
      hstart.trans hu.command
    refine Res.Leaves.seq (R := BuildCommandFrame) .trans hleaves fun live u => ?_
    exact Res.Leaves.seq (R := BuildCommandFrame) .trans
      ((joinLive_leaves live u).mono fun _ hw => hw.command) fun _ _ => rfl

theorem deriveBody_leaves (s : State) : (deriveBody s).Leaves (DeriveCommandFrame s) := by
  cases hv : s.treeValid with
  | false => rw [deriveBody, require_false hv, Res.bind_raise]; rfl
  | true =>
    rw [deriveBody, require_true hv, Res.bind_ok]
    have hstart : DeriveCommandFrame s s.clearCode.emptyCode := rfl
    have hwalk := (walk_leaves walkBound s.root.toNat 0 0 s.clearCode.emptyCode).mono fun _ hu =>
      hstart.trans hu.command
    exact Res.Leaves.seq (R := DeriveCommandFrame) .trans hwalk fun _ _ => rfl

/-- Settles O51: each command's frame is that of its body, and STATE and ERR. -/
theorem producersFrame : Obligations.ProducersFrame := by
  intro s t
  refine ⟨fun h => ?_, fun h => ?_⟩
  · exact runCommand_frame (R := BuildCommandFrame) (fun _ => rfl) .trans (fun _ _ => rfl)
      (fun _ _ => rfl) buildBody_leaves h
  · exact runCommand_frame (R := DeriveCommandFrame) (fun _ => rfl) .trans (fun _ _ => rfl)
      (fun _ _ => rfl) deriveBody_leaves h

end Sys2Proof.Machine
end

section
/-! DERIVE and the Code Table (spec/42_code_table.md R140 to R145): the entry of every Symbol. -/

namespace Sys2Proof.Machine

/-- Settles O25: the walk binds the paths left to right over an empty table, so the last path bound
to a Symbol is that of its rightmost leaf; STATE is IDLE again at the end. -/
theorem deriveAssignsPaths : Obligations.DeriveAssignsPaths := by
  intro s hm hv ht
  obtain ⟨code, T, hbody, hT, hcode⟩ := deriveBody_ok (s := s.withMode .busy) hv ht
  refine ⟨_, T, runCommand_ok hm hbody, hT, fun k hk => ?_, ?_⟩
  · exact (Vector.getElem?_eq_getElem hk).trans (congrArg some (hcode k hk))
  · rw [State.withMode, ← hm]
    rfl

end Sys2Proof.Machine
end

section
/-! WRMAGIC, WRTREE and RDMAGIC (spec/43_header_codec.md R150 to R156): where each ends over ports
that do not fail. -/

namespace Sys2Proof.Machine

/-- Settles O29: one write of 32 bits behind the precondition. -/
theorem wrmagicAppendsTheMagic : Obligations.WrmagicAppendsTheMagic := by
  intro s ⟨hm, hq⟩ hc
  refine (runCommand_ok hm (wrmagicBody_ok (s := s.withMode .busy) hq hc)).trans ?_
  rw [List.drop_one, ← hm]
  rfl

/-- Settles O30: a valid tree is `T(ROOT)` (R262), and the walk over it writes its header. -/
theorem wrtreeAppendsTheHeader : Obligations.WrtreeAppendsTheHeader := by
  intro s ⟨hm, hq⟩ hv hc ht
  obtain ⟨l, r, hT, -⟩ := ht.tree
  obtain ⟨tr, hlen, hbody⟩ := wrtreeBody_ok (s := s.withMode .busy) hq hv hc hT
  refine ⟨_, .node l r, runCommand_ok hm hbody, hT, hlen, ?_⟩
  rw [State.withMode, ← hm]
  rfl

/-- RDMAGIC with 32 bits left. -/
theorem rdmagicBody_value {s : State} (hq : s.Quiet) (h : s.inPos + 32 ≤ s.inBits.length) :
    rdmagicBody s = if fieldAt 32 s.inBits s.inPos = Config.magic then .ok () (s.takeBits 32)
      else .raise .fmtMagic (s.takeBits 32) := by
  have hlen : 32 ≤ s.unread.length := by rw [State.unread_length]; omega
  have hfield : fieldAt 32 s.unread 0 = fieldAt 32 s.inBits s.inPos := rfl
  rw [rdmagicBody, rd_value hq.failsNext (by decide) hlen, Res.bind_ok, hfield]

/-- RDMAGIC at the end of the input: what is left is consumed (R53). -/
theorem rdmagicBody_short {s : State} (hq : s.Quiet) (h : s.inBits.length < s.inPos + 32) :
    rdmagicBody s = .raise .fmtMagic (s.takeRest 32) := by
  have hlen : s.unread.length < 32 := by rw [State.unread_length]; omega
  rw [rdmagicBody, rd_eos hq.failsNext hlen, Res.bind_ok]

/-- Settles O31: one read; the value, or the end of the input, decides. -/
theorem rdmagicChecksTheMagic : Obligations.RdmagicChecksTheMagic := by
  intro s ⟨hm, hq⟩
  have value := rdmagicBody_value (s := s.withMode .busy) hq
  rw [List.drop_one]
  refine ⟨fun hlen hmagic => ?_, fun hlen hmagic => ?_, fun hlen => ?_⟩
  · refine (runCommand_ok hm ((value hlen).trans (if_pos hmagic))).trans ?_
    rw [← hm]
    rfl
  · exact runCommand_raise hm ((value hlen).trans (if_neg hmagic))
  · exact runCommand_raise hm (rdmagicBody_short (s := s.withMode .busy) hq hlen)

end Sys2Proof.Machine
end

section
/-! RDTREE on a whole header, and WRTREE read back by RDTREE (spec/43_header_codec.md R160,
R165). -/

namespace Sys2Proof.Machine

/-- The tree of a state with `TreeOk` has a header that RDTREE accepts. -/
theorem TreeOk.headerTree {s : State} {T : Tree} (h : TreeOk s) (hT : s.tree = some T) :
    HeaderTree T := by
  obtain ⟨l, r, hT', hc, -, hl⟩ := h.tree
  cases hT'.symm.trans hT
  exact ⟨⟨l, r, rfl⟩, hc, hl⟩

/-- A tree in pre-order has weights 0 only. -/
theorem PreOrder.weight_eq_zero {node : Vector Node 513} {t : Tree} {i k : Nat} {n : Node}
    (h : PreOrder node t i) (hik : i ≤ k) (hk : k < i + (2 * leafCount t - 1))
    (hn : node[k]? = some n) : n.weight = 0 := by
  induction t generalizing i with
  | leaf v =>
    simp only [leafCount] at hk
    obtain rfl : k = i := by omega
    cases h.symm.trans hn
    rfl
  | node l r ihl ihr =>
    have hl := leafCount_pos l
    have hr := leafCount_pos r
    simp only [leafCount] at hk
    obtain ⟨hroot, hleft, hright⟩ := h
    rcases Nat.eq_or_lt_of_le hik with rfl | hlt
    · cases hroot.symm.trans hn
      rfl
    · by_cases hkl : k < i + 1 + (2 * leafCount l - 1)
      · exact ihl hleft hlt hkl
      · exact ihr hright (by omega) (by omega)

/-- A tree in pre-order from index 0 is visited in the order of the indexes. -/
theorem PreOrder.visited {s : State} {t : Tree} (h : PreOrder s.node t 0) (hr : s.root = 0)
    (hc : leafCount t ≤ 257) : s.visited = some (List.range (2 * leafCount t - 1)) := by
  have hd := treeDepth_lt t
  rw [State.visited, hr, List.range_eq_range']
  exact visits_mono (h.visits (by omega)) (by simp only [walkBound, Config.nodeCap]; omega)

/-- Weight 0 at every node of a valid tree is weight 0 all over `Tw(ROOT)`. -/
theorem TreeOk.weightedTree_zero {s : State} {T : Tree} (h : TreeOk s) (hT : s.tree = some T)
    (hz : ∀ (k : Nat) (n : Node), k < s.ncount.toNat → s.node[k]? = some n → n.weight = 0) :
    ∃ W, s.weightedTree = some W ∧ shapeOf W = T ∧ weightsZero W = true := by
  obtain ⟨W, hW, hshape⟩ := weightedTreeAt_of_tree hT
  obtain ⟨-, -, -, hroot, -, hkids, -⟩ := h
  exact ⟨W, hW, hshape, weightsZero_of hW hroot hz fun k n hk hn hl =>
    have ⟨hleft, hright, _⟩ := hkids k n hk hn hl
    ⟨hleft, hright⟩⟩

/-- Settles O32: `get()` stores the tree in pre-order from index 0; the rest is read off that. -/
theorem rdtreeRebuildsTheTree : Obligations.RdtreeRebuildsTheTree := by
  intro s T rest ⟨hm, hq⟩ hT hu
  obtain ⟨node, nc, tr, hbody, hpre, hnc⟩ := rdtreeBody_ok (s := s.withMode .busy) hq hT hu
  obtain ⟨⟨l, r, rfl⟩, hc, hfit⟩ := hT
  have hexec := runCommand_ok (op := opRdtree) hm hbody
  generalize ht : State.withMode .idle _ = t at hexec
  have hnode : t.node = node := by rw [← ht]; rfl
  have hroot : t.root = 0 := by rw [← ht]; rfl
  have hcount : t.ncount.toNat = 2 * leafCount (.node l r) - 1 := by rw [← ht]; exact hnc
  rw [← hnode] at hpre
  have hok : TreeOk t := TreeOk.of_preOrder hpre hroot hcount hc hfit
  have htree : t.tree = some (.node l r) := hpre.tree hroot hc
  have hzero : ∀ (k : Nat) (n : Node), k < t.ncount.toNat → t.node[k]? = some n → n.weight = 0 :=
    fun k n hk hn => hpre.weight_eq_zero (Nat.zero_le k) (by omega) hn
  refine ⟨t, hexec, htree, hcount, ?_, hzero, hok.weightedTree_zero htree hzero, ?_⟩
  · rw [hcount]
    exact hpre.visited hroot hc
  · rw [← ht, ← hm]
    rfl

/-- Settles O35: WRTREE appends the header of the tree, CLEAR makes it the whole input, and RDTREE
rebuilds the tree from it. -/
theorem headerRoundTrip : Obligations.HeaderRoundTrip := by
  intro s hs hv hc hok
  obtain ⟨t, T, hwrite, hT, -, ht⟩ := wrtreeAppendsTheHeader s hs hv hc hok
  have hidle : t.mode = .idle := by rw [ht]; exact hs.1
  have hwritten : t.outBits.drop s.outBits.length = headerBits T := by rw [ht]; exact List.drop_left
  have hquiet : t.Quiet := hs.2.of_drop (congrArg State.answers ht)
  have hclear : exec .clear { t with nextIn := t.outBits.drop s.outBits.length } = .next _ :=
    exec_clear (by rw [hidle]; nofun)
  generalize hu : State.newSession _ = u at hclear
  have hready : u.Ready := by rw [← hu]; exact ⟨rfl, hquiet⟩
  have hunread : u.unread = headerBits T ++ [] := by rw [← hu, List.append_nil]; exact hwritten
  obtain ⟨w, hread, hw, -, -, -, -, hframe⟩ :=
    rdtreeRebuildsTheTree u T [] hready (hok.headerTree hT) hunread
  exact ⟨t, u, w, T, hwrite, hclear, hread, by rw [hframe], hT, hw⟩

end Sys2Proof.Machine
end

section
/-! RDTREE on a header that is cut short or wrong (spec/43_header_codec.md R160 to R163). -/

namespace Sys2Proof.Machine

/-- RDTREE ends in the fault `f` with the cursor at `pos`. -/
def RdtreeFaults (s : State) (f : FaultCode) (pos : Nat) : Prop :=
  ∃ t, exec .rdtree s = .next t ∧
    t = { s with
      mode := .fault, err := ⟨f.code, 0xA, 0xA⟩, treeValid := false, codeValid := false,
      node := t.node, ncount := t.ncount, inPos := pos, answers := t.answers, trace := t.trace,
      draws := t.draws }

theorem RdtreeFaults.of_body {s u : State} {f : FaultCode} (hm : s.mode = .idle)
    (hb : rdtreeBody (s.withMode .busy) = .raise f u)
    (hu : HeaderFrame (s.withMode .busy).clearTree.noNodes u) : RdtreeFaults s f u.inPos := by
  refine ⟨_, runCommand_raise hm hb, ?_⟩
  rw [HeaderFrame] at hu
  rw [hu]
  rfl

theorem rdtreeBody_of_getTree_raise {s u : State} {f : FaultCode}
    (h : getTree walkBound s.clearTree.noNodes = .raise f u) : rdtreeBody s = .raise f u := by
  rw [rdtreeBody, h, Res.bind_raise]

/-- The root that `get()` answers is a leaf (R163). -/
theorem rdtreeBody_of_getTree_leaf {s u : State} {i : Nat} {n : Node}
    (h : getTree walkBound s.clearTree.noNodes = .ok i u) (hn : u.node[i]? = some n)
    (hl : n.leaf = true) : rdtreeBody s = .raise .fmtHdrBad u := by
  rw [rdtreeBody, h, Res.bind_ok, readNode_some hn, Res.bind_ok, if_pos hl]

/-- RDTREE reads the whole tokens `ts` of a header, one node each, and ends in the fault that
`get()` raises on the bits `q` after them. -/
theorem RdtreeFaults.of_getTree_at {s : State} {T : Tree} {ts us : List Instr} {x : Instr}
    {q : Bits} {f : FaultCode} {pos : Nat} (hs : s.Ready) (ht : headerTokens T = ts ++ x :: us)
    (hw : ∀ i ∈ ts, i.wellFormed = true) (hu : s.unread = tokenBits ts ++ q) (hn : ts.length ≤ 513)
    (hx : ∀ (k : Nat) (v : State), v.Quiet → v.inBits = s.inBits → v.unread = q →
      v.ncount.toNat = ts.length → v.inPos = s.inPos + (tokenBits ts).length →
      ∃ u, getTree (k + 1) v = .raise f u ∧ HeaderFrame v u ∧ u.inPos = pos) :
    RdtreeFaults s f pos := by
  obtain ⟨hm, hq⟩ := hs
  obtain ⟨u, he, hframe, rfl⟩ := getTree_at (fuel := walkBound) (f := f) (P := (·.inPos = pos))
    (s := (s.withMode .busy).clearTree.noNodes) hq ht hw hu (Nat.zero_add _ ▸ hn) (Nat.le_refl _)
    fun k v hv hin hun hcount hpos => hx k v hv hin hun (hcount.trans (Nat.zero_add _)) hpos
  exact .of_body hm (rdtreeBody_of_getTree_raise he) hframe

/-- RDTREE of a header that is one leaf. -/
theorem rdtreeBody_leaf {s : State} {v : Sym} {rest : Bits} (hq : s.Quiet) (hv : v.toNat ≤ 256)
    (hu : s.unread = headerBits (.leaf v) ++ rest) :
    ∃ u, rdtreeBody s = .raise .fmtHdrBad u ∧ HeaderFrame s.clearTree.noNodes u ∧
      u.inPos = s.inPos + 10 := by
  have hfit : labelsFit (.leaf v) = true := decide_eq_true hv
  obtain ⟨node, tr, he, hnode, -⟩ := getTree_ok (fuel := walkBound) (s := s.clearTree.noNodes) hq hu
    hfit (by simp [leafCount]) (by simp [treeDepth, walkBound])
  exact ⟨_, rdtreeBody_of_getTree_leaf he hnode rfl, rfl, rfl⟩

/-- Settles O33: `get()` on what is left of the token that is cut short (R160). -/
theorem truncatedHeaderFaults : Obligations.TruncatedHeaderFaults := by
  intro s T ts us x q hs ht hw hu hp hne hn hq
  have hx : x = .hdrInternal ∨ ∃ v, x = .hdrLeaf v :=
    headerTokens_mem (t := T) (by rw [ht]; exact List.mem_append_right _ (List.mem_cons_self ..))
  refine RdtreeFaults.of_getTree_at (f := .fmtHdrTrunc) hs ht hw hu hn
    fun k v hv hin hun hcount _ => ?_
  rw [← hin]
  exact getTree_eos hv hx hun hp hne fun h => hcount ▸ hq h

/-- Settles O34: a label above 256 (R161), a full node store (R162), or a root that is a leaf
(R163). -/
theorem badHeaderFaults : Obligations.BadHeaderFaults := by
  intro s T ts us x seen rest hs ht hw hu hbad
  show RdtreeFaults s .fmtHdrBad _
  rw [List.append_assoc] at hu
  rw [List.length_append, ← Nat.add_assoc]
  rcases hbad with ⟨v, rfl, hv, hn, rfl⟩ | ⟨hn, hseen⟩ | ⟨v, rfl, hv, rfl, rfl⟩
  · refine .of_getTree_at hs ht hw hu hn.le fun k w hq _ hun hcount hpos => ?_
    rw [← hpos]
    exact getTree_label hq hun hv (hcount ▸ hn)
  · obtain ⟨b, rfl⟩ := List.length_eq_one_iff.mp hseen
    refine .of_getTree_at hs ht hw hu hn.le fun k w hq _ hun hcount hpos => ?_
    rw [← hpos]
    exact getTree_full hq hun (hcount.trans hn)
  · obtain ⟨hm, hq⟩ := hs
    obtain ⟨u, he, hframe, hpos⟩ := rdtreeBody_leaf (s := s.withMode .busy) hq hv hu
    exact hpos ▸ RdtreeFaults.of_body hm he hframe

end Sys2Proof.Machine
end

section
/-! The frames of the commands and tokens that write OUT (spec/30_encoding.md R82,
43_header_codec.md R150, R152, 46_control.md R192; log entry 10 for the tokens). -/

namespace Sys2Proof.Machine

/-- What WRMAGIC, WRTREE and the stream tokens may change. -/
def OutCommandFrame (s t : State) : Prop :=
  t = { s with
    mode := t.mode, err := t.err, outBits := t.outBits, outShut := t.outShut, answers := t.answers,
    trace := t.trace, draws := t.draws }

/-- What CLOSE may change. -/
def CloseCommandFrame (s t : State) : Prop :=
  t = { s with
    mode := t.mode, err := t.err, outBits := t.outBits, outShut := t.outShut,
    outClosed := t.outClosed, answers := t.answers, trace := t.trace, draws := t.draws }

theorem OutCommandFrame.trans {s t u : State} (h : OutCommandFrame s t)
    (h' : OutCommandFrame t u) : OutCommandFrame s u := by
  unfold OutCommandFrame at *; rw [h'] at *; rw [h]

theorem CloseCommandFrame.trans {s t u : State} (h : CloseCommandFrame s t)
    (h' : CloseCommandFrame t u) : CloseCommandFrame s u := by
  unfold CloseCommandFrame at *; rw [h'] at *; rw [h]

theorem OutFrame.command {s t : State} (h : OutFrame s t) : OutCommandFrame s t := by
  unfold OutFrame at h; unfold OutCommandFrame; rw [h]

theorem OutFrame.closeCommand {s t : State} (h : OutFrame s t) : CloseCommandFrame s t := by
  unfold OutFrame at h; unfold CloseCommandFrame; rw [h]

theorem require_leaves_outFrame (b : Bool) (s : State) : (require b s).Leaves (OutFrame s) := by
  cases b with
  | true => exact OutFrame.refl s
  | false => exact OutFrame.refl s

/-- A command whose body is a precondition and, behind it, writes to OUT. -/
theorem runCommand_outFrame {op : OpCode} {pre : State → Bool} {put : State → Res Unit}
    {s t : State} (hput : ∀ u, (put u).Leaves (OutFrame u))
    (h : runCommand op (fun s => (require (pre s) s).bind fun _ s => put s) s = .next t) :
    OutCommandFrame s t :=
  have hbody : ∀ u, ((require (pre u) u).bind fun _ s => put s).Leaves (OutFrame u) := fun u =>
    Res.Leaves.seq (R := OutFrame) .trans (require_leaves_outFrame (pre u) u) fun _ w => hput w
  runCommand_frame (fun _ => rfl) .trans (fun _ _ => rfl) (fun _ _ => rfl)
    (fun u => (hbody u).mono fun _ hu => hu.command) h

/-- A token that its reader refuses. -/
theorem rejectToken_outFrame {op : OpCode} {f : FaultCode} {s t : State}
    (h : rejectToken op f s = .next t) : OutCommandFrame s t :=
  runCommand_frame (R := OutCommandFrame) (fun _ => rfl) .trans (fun _ _ => rfl) (fun _ _ => rfl)
    (body := fun s => .raise f s) (fun _ => rfl) h

/-- A token is written, or its reader refuses it (log entries 10 and 11). -/
theorem exec_token_outFrame {i : Instr} {s t : State} (hi : i.commandWord = none)
    (h : exec i s = .next t) : OutCommandFrame s t := by
  cases i with
  | magic m =>
    by_cases hm : m = Config.magic
    · subst hm
      rw [exec_magic_legal] at h
      exact runCommand_outFrame (wr_leaves 32 _) h
    · rw [exec_magic_illegal hm] at h
      exact rejectToken_outFrame h
  | hdrInternal => exact runCommand_outFrame (wr_leaves 1 0) h
  | hdrLeaf v =>
    by_cases hv : v.toNat ≤ 256
    · rw [exec_hdrLeaf_legal hv] at h
      exact runCommand_outFrame (putLeafToken_leaves v) h
    · rw [exec_hdrLeaf_illegal (Nat.lt_of_not_le hv)] at h
      exact rejectToken_outFrame h
  | codeword len bits => exact runCommand_outFrame (wr_leaves len.toNat bits.toNat) h
  | literal8 b => exact runCommand_outFrame (wr_leaves 8 b.toNat) h
  | _ => cases hi

theorem closeBody_leaves (s : State) : (closeBody s).Leaves (CloseCommandFrame s) := by
  refine Res.Leaves.seq (R := CloseCommandFrame) .trans
    ((require_leaves_outFrame _ s).mono fun _ h => h.closeCommand) fun _ u => ?_
  exact Res.Leaves.seq (R := CloseCommandFrame) .trans
    ((closeOut_leaves u).mono fun _ h => h.closeCommand) fun _ _ => rfl

/-- Settles O52: each command's frame is that of its body, and STATE and ERR; that a token runs as
the command that writes it is the model's choice (log entry 10). -/
theorem writersFrame : Obligations.WritersFrame := by
  intro s t
  refine ⟨fun i hi h => ?_, fun h => ?_⟩
  · rcases hi with rfl | rfl | hi
    · exact runCommand_outFrame (wr_leaves 32 _) h
    · exact runCommand_outFrame (pre := fun s => s.treeValid && s.outOpen)
        (fun u => putTree_leaves walkBound u.root.toNat u) h
    · exact exec_token_outFrame hi h
  · exact runCommand_frame (R := CloseCommandFrame) (fun _ => rfl) .trans (fun _ _ => rfl)
      (fun _ _ => rfl) closeBody_leaves h

end Sys2Proof.Machine
end

section
/-! ENCODE (spec/44_stream_encoder.md R170 to R172): where it ends over ports that do not fail, and
what ENCODE and DECODE (spec/45_stream_decoder.md R180) leave unchanged however they end. -/

namespace Sys2Proof.Machine

/-- Settles O36: the loop writes the codes of the bytes, and the terminator follows (R172). -/
theorem encodeAppendsTheCodes : Obligations.EncodeAppendsTheCodes := by
  intro s e ⟨hm, hq⟩ hv hc hfit hbytes hget hev
  obtain ⟨tr, hbody⟩ := encodeBody_ok (s := s.withMode .busy) hq hv hc hfit hbytes hget hev
  refine ⟨_, runCommand_ok hm hbody, ?_⟩
  rw [State.withMode, ← hm]
  rfl

/-! ## A lookup miss -/

theorem State.unread_length_lt_readBound (s : State) : s.unread.length < 8 * s.readBound := by
  rw [State.unread_length, State.readBound]
  omega

/-- ENCODE behind its precondition. -/
theorem encodeBody_of_open {s : State} (hv : s.codeValid = true) (hc : s.outClosed = false) :
    encodeBody s =
      (encodeLoop s.readBound s).bind fun _ u => emitSymbol Config.sentinel u := by
  rw [encodeBody, require_true (by simp [State.outOpen, hv, hc]), Res.bind_ok]

/-- The input holds a byte without a code (R171): the loop raises, so no terminator follows. -/
theorem encodeBody_byte_miss {s : State} {good more : List Byte} {b : Byte} {c : Code}
    (hq : s.Quiet) (hv : s.codeValid = true) (hc : s.outClosed = false) (hfit : CodesFit s)
    (hsplit : bytesOfBits s.unread = good ++ b :: more)
    (hgood : ∀ g ∈ good, ∃ c, s.code[g.toNat]? = some c ∧ c.valid = true)
    (hget : s.code[b.toNat]? = some c) (hmiss : c.valid = false) :
    ∃ an tr, encodeBody s = .raise .intLookup
      { s with
        inPos := s.inPos + 8 * (good.length + 1)
        outBits := s.outBits ++ codeBits s.code good
        answers := an
        trace := tr } := by
  obtain ⟨t, hloop, ht⟩ :=
    encodeLoop_miss hq s.unread_length_lt_readBound hfit hsplit hgood hget hmiss
  rw [encodeBody_of_open hv hc, hloop, Res.bind_raise]
  exact ⟨t.answers, t.trace, congrArg _ ht⟩

/-- The sentinel has no code (R171): every byte is written before the terminator is looked up. -/
theorem encodeBody_sentinel_miss {s : State} {c : Code} (hq : s.Quiet) (hv : s.codeValid = true)
    (hc : s.outClosed = false) (hfit : CodesFit s)
    (hbytes : ∀ b ∈ bytesOfBits s.unread, ∃ c, s.code[b.toNat]? = some c ∧ c.valid = true)
    (hget : s.code[256]? = some c) (hmiss : c.valid = false) :
    ∃ an tr, encodeBody s = .raise .intLookup
      { s with
        inPos := s.inBits.length
        outBits := s.outBits ++ codeBits s.code (bytesOfBits s.unread)
        answers := an
        trace := tr } := by
  obtain ⟨tr, hloop⟩ := encodeLoop_ok hq s.unread_length_lt_readBound hfit hbytes
  rw [encodeBody_of_open hv hc, hloop, Res.bind_ok]
  exact ⟨_, tr, emitSymbol_miss hget hmiss⟩

/-- Settles O37: the miss is met in the loop, or at the terminator. -/
theorem encodeLookupMissFaults : Obligations.EncodeLookupMissFaults := by
  intro s ⟨hm, hq⟩ hv hc hfit
  refine ⟨fun good more b c hsplit hgood hget hmiss => ?_, fun c hbytes hget hmiss => ?_⟩
  · obtain ⟨an, tr, hbody⟩ :=
      encodeBody_byte_miss (s := s.withMode .busy) hq hv hc hfit hsplit hgood hget hmiss
    exact ⟨_, runCommand_raise hm hbody, rfl, rfl, rfl, rfl, hc⟩
  · obtain ⟨an, tr, hbody⟩ :=
      encodeBody_sentinel_miss (s := s.withMode .busy) hq hv hc hfit hbytes hget hmiss
    exact ⟨_, runCommand_raise hm hbody, rfl, rfl, rfl, rfl, hc⟩

/-! ## The frames of ENCODE and DECODE -/

/-- What ENCODE and DECODE may change. -/
def StreamCommandFrame (s t : State) : Prop :=
  t = { s with
    mode := t.mode, err := t.err, inPos := t.inPos, outBits := t.outBits, outShut := t.outShut,
    answers := t.answers, trace := t.trace, draws := t.draws }

theorem StreamCommandFrame.trans {s t u : State} (h : StreamCommandFrame s t)
    (h' : StreamCommandFrame t u) : StreamCommandFrame s u := by
  unfold StreamCommandFrame at *; rw [h'] at *; rw [h]

theorem PortFrame.command {s t : State} (h : PortFrame s t) : StreamCommandFrame s t := by
  unfold PortFrame at h; unfold StreamCommandFrame; rw [h]

theorem decodeBody_leaves (s : State) : (decodeBody s).Leaves (PortFrame s) :=
  require_bind_portFrame fun u => decodeLoop_leaves _ _ u

/-- A command whose body uses the two ports and nothing else. -/
theorem runCommand_portFrame {op : OpCode} {body : State → Res Unit} {s t : State}
    (hb : ∀ u, (body u).Leaves (PortFrame u)) (h : runCommand op body s = .next t) :
    StreamCommandFrame s t :=
  runCommand_frame (fun _ => rfl) .trans (fun _ _ => rfl) (fun _ _ => rfl)
    (fun u => (hb u).mono fun _ hu => hu.command) h

/-- Settles O53: each command's frame is that of its body, and STATE and ERR. -/
theorem streamersFrame : Obligations.StreamersFrame := by
  intro i s t hi h
  rcases hi with rfl | rfl
  · exact runCommand_portFrame encodeBody_leaves h
  · exact runCommand_portFrame decodeBody_leaves h

end Sys2Proof.Machine
end

section
/-! DECODE (spec/45_stream_decoder.md R180, R181): where it ends over ports that do not fail, at the
first sentinel leaf or at the end of the input before one. -/

namespace Sys2Proof.Machine

/-- Settles O38: the loop writes one literal per code word and stops at the sentinel leaf, so it
never reads the bits that follow (R92); STATE is IDLE again at the end. -/
theorem decodeWritesTheLiterals : Obligations.DecodeWritesTheLiterals := by
  intro s l r ws v p rest ⟨hm, hq⟩ hv hc ht hw hp h256 hu
  obtain ⟨tr, hbody⟩ := decodeBody_ok (s := s.withMode .busy) hq hv hc ht hw hp h256 hu
  refine ⟨_, runCommand_ok hm hbody, ?_⟩
  rw [State.withMode, ← hm]
  rfl

/-- Settles O39: after the whole code words the walk stands on the path `p`; the input ends there
before a leaf, and the literals written stay. -/
theorem truncatedSymbolStreamFaults : Obligations.TruncatedSymbolStreamFaults := by
  intro s l r ws v p q ⟨hm, hq⟩ hv hc ht hw hp hqp hne hu
  obtain ⟨an, tr, hbody⟩ := decodeBody_short (s := s.withMode .busy) hq hv hc ht hw hp hqp hne hu
  exact ⟨_, runCommand_raise hm hbody, rfl, rfl, rfl, rfl, hc, hv⟩

end Sys2Proof.Machine
end

section
/-! CLOSE and REWIND (spec/46_control.md R192, R194): where each ends over ports that do not
fail. -/

namespace Sys2Proof.Machine

/-- CLOSE, over ports that do not fail (R192). -/
theorem closeBody_closes {s : State} (hq : s.Quiet) (hc : s.outClosed = false) :
    ∃ t, closeBody s = .ok () t ∧
      t = { s with
        outClosed := true, outShut := true, outBits := padded s.outBits, answers := t.answers,
        trace := t.trace } :=
  ⟨_, closeBody_ok hq hc, rfl⟩

/-- Settles O40: the padding makes the output whole bytes (R57), and STATE is IDLE again at the
end. -/
theorem closePadsAndCloses : Obligations.ClosePadsAndCloses := by
  intro s ⟨hm, hq⟩ hc
  refine ⟨?_, padded_length_mod _, ?_, rfl⟩
  · refine (runCommand_ok hm (closeBody_ok (s := s.withMode .busy) hq hc)).trans ?_
    rw [List.drop_one, ← hm]
    rfl
  · rw [padded, List.length_append, List.length_replicate, padLen]
    omega

/-- Settles O41: one port call. -/
theorem rewindSetsTheCursorToZero : Obligations.RewindSetsTheCursorToZero := by
  intro s ⟨hm, hq⟩
  refine (runCommand_ok hm (rewindBody_ok (s := s.withMode .busy) hq)).trans ?_
  rw [List.drop_one, ← hm]
  rfl

end Sys2Proof.Machine
end

section
/-! What a list of primitives leaves unchanged (spec/46_control.md R196 to R200): the frames of the
composites, and of the output once it is closed (R192, 30_encoding.md R82). -/

namespace Sys2Proof.Machine

/-- A relation that composes and allows for STATE and ERR holds over a list of primitives if it
holds over each of them. -/
theorem acceptIdle_frame {R : State → State → Prop} {c : OpCode} {ps : List Primitive} {s t : State}
    (refl : ∀ u, R u u) (trans : ∀ {u v w}, R u v → R v w → R u w)
    (mode : ∀ m u, R u (u.withMode m)) (raise : ∀ f op u, R u (u.raise f op c))
    (hb : ∀ p ∈ ps, ∀ u, (p.body u).Leaves (R u))
    (h : acceptIdle (runPrimitives c ps) s = .next t) : R s t := by
  by_cases hm : s.mode = .idle
  · rw [acceptIdle_idle hm] at h
    exact runPrimitives_leaves (P := R s) (mode .busy s)
      (fun p hp u hu => (hb p hp u).mono fun _ hw => trans hu hw)
      (fun u f op hu => trans hu (raise f op u)) (fun u hu => trans hu (mode .idle u)) h
  · rw [acceptIdle_other hm] at h
    cases h
    exact refl s

/-! ## The frames of COMPRESS and DECOMPRESS -/

/-- The input stream and the host's fields are the same. -/
def SameSession (s t : State) : Prop :=
  t.inBits = s.inBits ∧ t.hostOps = s.hostOps ∧ t.nextIn = s.nextIn ∧ t.readData = s.readData

/-- What DECOMPRESS may change. -/
def DecompressFrame (s t : State) : Prop :=
  t = { s with
    mode := t.mode, err := t.err, treeValid := t.treeValid, codeValid := t.codeValid,
    outClosed := t.outClosed, node := t.node, root := t.root, ncount := t.ncount, inPos := t.inPos,
    outBits := t.outBits, outShut := t.outShut, answers := t.answers, trace := t.trace,
    draws := t.draws }

theorem SameSession.trans {s t u : State} (h : SameSession s t) (h' : SameSession t u) :
    SameSession s u := by
  obtain ⟨hin, hops, hnext, hread⟩ := h
  obtain ⟨hin', hops', hnext', hread'⟩ := h'
  exact ⟨hin'.trans hin, hops'.trans hops, hnext'.trans hnext, hread'.trans hread⟩

theorem DecompressFrame.trans {s t u : State} (h : DecompressFrame s t) (h' : DecompressFrame t u) :
    DecompressFrame s u := by
  unfold DecompressFrame at *; rw [h'] at *; rw [h]

theorem DecompressFrame.sameSession {s t : State} (h : DecompressFrame s t) : SameSession s t := by
  rw [DecompressFrame] at h
  rw [h]
  exact ⟨rfl, rfl, rfl, rfl⟩

theorem PortFrame.decompress {s t : State} (h : PortFrame s t) : DecompressFrame s t := by
  rw [PortFrame] at h
  rw [DecompressFrame, h]

theorem RdtreeCommandFrame.decompress {s t : State} (h : RdtreeCommandFrame s t) :
    DecompressFrame s t := by
  rw [RdtreeCommandFrame] at h
  rw [DecompressFrame, h]

theorem CloseCommandFrame.decompress {s t : State} (h : CloseCommandFrame s t) :
    DecompressFrame s t := by
  rw [CloseCommandFrame] at h
  rw [DecompressFrame, h]

theorem CountCommandFrame.sameSession {s t : State} (h : CountCommandFrame s t) :
    SameSession s t := by
  rw [CountCommandFrame] at h
  rw [h]
  exact ⟨rfl, rfl, rfl, rfl⟩

theorem BuildCommandFrame.sameSession {s t : State} (h : BuildCommandFrame s t) :
    SameSession s t := by
  rw [BuildCommandFrame] at h
  rw [h]
  exact ⟨rfl, rfl, rfl, rfl⟩

theorem DeriveCommandFrame.sameSession {s t : State} (h : DeriveCommandFrame s t) :
    SameSession s t := by
  rw [DeriveCommandFrame] at h
  rw [h]
  exact ⟨rfl, rfl, rfl, rfl⟩

theorem Res.Leaves.decompress {α : Type} {s : State} {r : Res α} (h : r.Leaves (PortFrame s)) :
    r.Leaves (DecompressFrame s) := h.mono fun _ hu => hu.decompress

theorem Res.Leaves.sameSession {α : Type} {s : State} {r : Res α}
    (h : r.Leaves (DecompressFrame s)) : r.Leaves (SameSession s) :=
  h.mono fun _ hu => hu.sameSession

theorem closeBody_leaves_decompress (s : State) : (closeBody s).Leaves (DecompressFrame s) :=
  (closeBody_leaves s).mono fun _ hu => hu.decompress

theorem decompressList_leaves :
    ∀ p ∈ decompressList, ∀ u, (p.body u).Leaves (DecompressFrame u) := by
  simp only [decompressList, List.forall_mem_cons]
  exact ⟨fun u => (require_leaves _ u).decompress, fun u => (rdmagicBody_leaves u).decompress,
    fun u => (rdtreeBody_leaves u).mono fun _ hu => hu.decompress,
    fun u => (decodeBody_leaves u).decompress, closeBody_leaves_decompress, nofun⟩

theorem compressList_leaves : ∀ p ∈ compressList, ∀ u, (p.body u).Leaves (SameSession u) := by
  have ports : ∀ {u : State} {r : Res Unit}, r.Leaves (PortFrame u) → r.Leaves (SameSession u) :=
    fun h => h.decompress.sameSession
  simp only [compressList, List.forall_mem_cons]
  refine ⟨fun u => ports (require_leaves _ u), fun u => ?count, fun u => ?build, fun u => ?derive,
    fun u => ports (require_bind_portFrame fun w => (wr_leaves 32 _ w).port),
    fun u => ports (require_bind_portFrame fun w => (putTree_leaves _ _ w).port),
    fun u => ports ((rewindIn_leaves u).mono fun _ h => h.port),
    fun u => ports (encodeBody_leaves u), fun u => (closeBody_leaves_decompress u).sameSession,
    nofun⟩
  case count => exact (countBody_leaves u).mono fun _ h => h.sameSession
  case build => exact (buildBody_leaves u).mono fun _ h => h.sameSession
  case derive => exact (deriveBody_leaves u).mono fun _ h => h.sameSession

/-- Settles O54: each composite's frame is that of its primitives, and STATE and ERR. -/
theorem compositesFrame : Obligations.CompositesFrame := by
  intro s t
  refine ⟨fun h => ?_, fun h => ?_⟩
  · exact acceptIdle_frame (R := SameSession) (fun _ => ⟨rfl, rfl, rfl, rfl⟩) .trans
      (fun _ _ => ⟨rfl, rfl, rfl, rfl⟩) (fun _ _ _ => ⟨rfl, rfl, rfl, rfl⟩) compressList_leaves h
  · exact acceptIdle_frame (R := DecompressFrame) (fun _ => rfl) .trans (fun _ _ => rfl)
      (fun _ _ _ => rfl) decompressList_leaves h

/-! ## The output once it is closed -/

/-- OUT_CLOSED and both fields of OUT are the same. -/
def SameOutput (s t : State) : Prop :=
  t.outClosed = s.outClosed ∧ t.outBits = s.outBits ∧ t.outShut = s.outShut

theorem SameOutput.refl (s : State) : SameOutput s s := ⟨rfl, rfl, rfl⟩

theorem SameOutput.trans {s t u : State} (h : SameOutput s t) (h' : SameOutput t u) :
    SameOutput s u := by
  obtain ⟨hclosed, hbits, hshut⟩ := h
  obtain ⟨hclosed', hbits', hshut'⟩ := h'
  exact ⟨hclosed'.trans hclosed, hbits'.trans hbits, hshut'.trans hshut⟩

theorem CountCommandFrame.sameOutput {s t : State} (h : CountCommandFrame s t) :
    SameOutput s t := by
  rw [CountCommandFrame] at h
  rw [h]
  exact ⟨rfl, rfl, rfl⟩

theorem RdtreeCommandFrame.sameOutput {s t : State} (h : RdtreeCommandFrame s t) :
    SameOutput s t := by
  rw [RdtreeCommandFrame] at h
  rw [h]
  exact ⟨rfl, rfl, rfl⟩

theorem BuildCommandFrame.sameOutput {s t : State} (h : BuildCommandFrame s t) :
    SameOutput s t := by
  rw [BuildCommandFrame] at h
  rw [h]
  exact ⟨rfl, rfl, rfl⟩

theorem DeriveCommandFrame.sameOutput {s t : State} (h : DeriveCommandFrame s t) :
    SameOutput s t := by
  rw [DeriveCommandFrame] at h
  rw [h]
  exact ⟨rfl, rfl, rfl⟩

theorem InFrame.sameOutput {s t : State} (h : InFrame s t) : SameOutput s t :=
  h.count.command.sameOutput

/-- A precondition that asks for an open output raises E_SEQ on a closed one (R82, R216). -/
theorem require_outOpen_of_closed {α : Type} {b : Bool} {s : State} {k : Unit → State → Res α}
    (hc : s.outClosed = true) (hb : b = true → s.outOpen = true) :
    (require b s).bind k = .raise .seq s := by
  have hopen : ¬ s.outOpen = true := by simp [State.outOpen, hc]
  rw [require_false (Bool.eq_false_iff.mpr fun ht => hopen (hb ht)), Res.bind_raise]

/-- Every primitive, on a closed output. -/
theorem IsPrimitive.sameOutput_of_closed {body : State → Res Unit} (hb : IsPrimitive body)
    {s : State} (hc : s.outClosed = true) : (body s).Leaves (SameOutput s) := by
  have refused : ∀ {b : Bool} {k : Unit → State → Res Unit}, (b = true → s.outOpen = true) →
      ((require b s).bind k).Leaves (SameOutput s) := fun hopen => by
    rw [require_outOpen_of_closed hc hopen]
    exact SameOutput.refl s
  have hands : ∀ {b : Bool}, (b && s.outOpen) = true → s.outOpen = true :=
    fun hb => (Bool.and_eq_true_iff.mp hb).2
  cases hb with
  | openCheck =>
    rw [Machine.openCheck, require_false (by simp [State.outOpen, hc])]
    exact SameOutput.refl s
  | count => exact (countBody_leaves s).mono fun _ h => h.sameOutput
  | build => exact (buildBody_leaves s).mono fun _ h => h.sameOutput
  | derive => exact (deriveBody_leaves s).mono fun _ h => h.sameOutput
  | write n v => exact refused id
  | writeLeaf v => exact refused id
  | wrtree => exact refused hands
  | encode => exact refused hands
  | close => exact refused id
  | rewind => exact (rewindIn_leaves s).mono fun _ h => h.sameOutput
  | rdmagic => exact (rdmagicBody_leaves_inFrame s).mono fun _ h => h.sameOutput
  | rdtree => exact (rdtreeBody_leaves s).mono fun _ h => h.sameOutput
  | decode => exact refused hands
  | reject f => exact SameOutput.refl s

/-- `SameOutput`, where OUT_CLOSED = 1. -/
def SameClosedOutput (s t : State) : Prop := s.outClosed = true → SameOutput s t

theorem SameClosedOutput.trans {s t u : State} (h : SameClosedOutput s t)
    (h' : SameClosedOutput t u) : SameClosedOutput s u := fun hc =>
  (h hc).trans (h' ((h hc).1.trans hc))

theorem Res.Leaves.of_forall {α : Type} {P : State → Prop} (h : ∀ u, P u) (r : Res α) :
    r.Leaves P := by
  cases r with
  | ok a u => exact h u
  | raise f u => exact h u
  | stop x => trivial

theorem IsPrimitive.leaves_sameClosedOutput {body : State → Res Unit} (hb : IsPrimitive body)
    (s : State) : (body s).Leaves (SameClosedOutput s) := by
  cases hc : s.outClosed with
  | true => exact (hb.sameOutput_of_closed hc).mono fun _ h _ => h
  | false => exact .of_forall (fun u h => absurd (hc.symm.trans h) Bool.false_ne_true) (body s)

/-- Settles O56: a command is a list of primitives, each of which finds the output closed and leaves
it so. That a stream token is such a list is the model's choice (log entry 10). -/
theorem closedOutputStaysAsItIs : Obligations.ClosedOutputStaysAsItIs := by
  intro i s t hi hc he
  obtain ⟨op, ps, hp, hrun⟩ := runsPrimitives_of_ne_clear hi
  rw [hrun] at he
  have hsame : SameClosedOutput s t :=
    acceptIdle_frame (fun u _ => .refl u) .trans (fun _ u _ => .refl u) (fun _ _ u _ => .refl u)
      (fun p hpm u => (hp p hpm).leaves_sameClosedOutput u) he
  obtain ⟨hclosed, hbits, hshut⟩ := hsame hc
  exact ⟨hclosed.trans hc, hbits, hshut⟩

end Sys2Proof.Machine
end

section
/-! DECOMPRESS of a whole stream (spec/46_control.md R198, 30_encoding.md R85): RDMAGIC and RDTREE
take the front of the stream, DECODE the code words, and CLOSE pads the literals. -/

namespace Sys2Proof.Machine

/-- The input once the bits `p` at the cursor have been read (R51, R52). -/
theorem State.unread_of_advance {s t : State} {p q : Bits} (hu : s.unread = p ++ q)
    (hin : t.inBits = s.inBits) (hpos : t.inPos = s.inPos + p.length) : t.unread = q := by
  have hdrop : t.unread = s.unread.drop p.length := by
    rw [State.unread, State.unread, hin, hpos, List.drop_drop]
  rw [hdrop, hu, List.drop_left]

/-- Where RDMAGIC and RDTREE of DECOMPRESS end: the tree is stored, and `rest` is unread. -/
structure TreeRead (s t : State) (T : Tree) (rest : Bits) : Prop where
  frame : t = { s with
    treeValid := true, codeValid := false, node := t.node, root := 0, ncount := t.ncount,
    inPos := s.inPos + (32 + (11 * leafCount T - 1)), answers := t.answers, trace := t.trace }
  quiet : t.Quiet
  tree : t.tree = some T
  unread : t.unread = rest

/-- DECOMPRESS up to DECODE, on a stream that starts with MAGIC and a header. -/
theorem decompress_reads_tree {s : State} {T : Tree} {rest : Bits} (hq : s.Quiet)
    (hc : s.outClosed = false) (hT : HeaderTree T)
    (hu : s.unread = bitsOf 32 Config.magic.toNat ++ (headerBits T ++ rest)) :
    ∃ t, TreeRead s t T rest ∧ runPrimitives opDecompress decompressList s =
      runPrimitives opDecompress [⟨opDecode, decodeBody⟩, ⟨opClose, closeBody⟩] t := by
  have hu1 : (s.takeBits 32).unread = headerBits T ++ rest :=
    State.unread_of_advance hu rfl (by rw [bitsOf_length]; rfl)
  obtain ⟨node, nc, tr, hbody, hpre, -⟩ := rdtreeBody_ok (hq.takeBits 32) hT hu1
  obtain ⟨-, hleaves, -⟩ := hT
  have hrun : ∀ t, rdtreeBody (s.takeBits 32) = .ok () t →
      runPrimitives opDecompress decompressList s =
        runPrimitives opDecompress [⟨opDecode, decodeBody⟩, ⟨opClose, closeBody⟩] t := fun t h => by
    rw [decompressList, runPrimitives_ok (openCheck_ok hc),
      runPrimitives_ok (rdmagicBody_ok hq hu), runPrimitives_ok h]
  refine ⟨_, ⟨?_, (hq.takeBits 32).of_drop rfl, ?_, ?_⟩, hrun _ hbody⟩
  · simp [State.takeBits, State.logCall, Nat.add_assoc]
  · exact hpre.tree rfl hleaves
  · exact State.unread_of_advance hu1 rfl (by rw [headerBits_length])

/-- DECODE of the code words of literals and of a sentinel leaf writes the literals (R180). -/
theorem decodeBody_decodes {s : State} {l r : Tree} {ws : List (Sym × Bits)} {v : Sym}
    {p rest : Bits} (hq : s.Quiet) (hv : s.treeValid = true) (hc : s.outClosed = false)
    (ht : s.tree = some (.node l r)) (hw : LiteralLeaves (.node l r) ws)
    (hp : (v, p) ∈ leafPaths (.node l r)) (h256 : v.toNat = 256)
    (hu : s.unread = pathBits ws ++ p ++ rest) :
    ∃ t, decodeBody s = .ok () t ∧ t.Quiet ∧
      t = { s with
        inPos := s.inPos + (pathBits ws ++ p).length, outBits := s.outBits ++ literalBits ws,
        answers := t.answers, trace := t.trace } := by
  obtain ⟨tr, hbody⟩ := decodeBody_ok hq hv hc ht hw hp h256 hu
  exact ⟨_, hbody, hq.of_drop rfl, rfl⟩

/-- Settles O43: the tree that RDTREE stores is the one DECODE walks, from the first bit after the
header; STATE is IDLE again at the end. -/
theorem decompressReadsTheStream : Obligations.DecompressReadsTheStream := by
  intro s T ws v p rest ⟨hm, hq⟩ hc hT hw hp h256 hu
  have hu0 : s.unread =
      bitsOf 32 Config.magic.toNat ++ (headerBits T ++ (pathBits ws ++ p ++ rest)) := by
    simpa using hu
  obtain ⟨t1, h1, hrun1⟩ := decompress_reads_tree (s := s.withMode .busy) hq hc hT hu0
  obtain ⟨⟨l, r, rfl⟩, -⟩ := hT
  have hc1 : t1.outClosed = false := by rw [h1.frame]; exact hc
  obtain ⟨t2, hdecode, hq2, h2⟩ :=
    decodeBody_decodes h1.quiet (by rw [h1.frame]) hc1 h1.tree hw hp h256 h1.unread
  obtain ⟨t, hclose, ht⟩ := closeBody_closes hq2 (by rw [h2]; exact hc1)
  have hexec : exec .decompress s = .next (t.withMode .idle) := by
    refine (acceptIdle_idle hm).trans (hrun1.trans ?_)
    rw [runPrimitives_ok hdecode, runPrimitives_ok hclose, runPrimitives_nil]
  have htree : (t.withMode .idle).tree = t1.tree := by rw [ht, h2]; rfl
  refine ⟨_, hexec, htree.trans h1.tree, ?_⟩
  rw [ht, h2, h1.frame, ← hm]
  simp [State.withMode, Nat.add_assoc]

end Sys2Proof.Machine
end

section
/-! The Code Table of a built tree (spec/42_code_table.md R141, R142, 47_properties.md R264): which
Symbols have a code, and how long one is. -/

namespace Sys2Proof.Machine

/-- A path is no longer than the tree is deep (R12). -/
theorem leafPaths_length_le {t : Tree} {v : Sym} {q : Bits} (h : (v, q) ∈ leafPaths t) :
    q.length ≤ treeDepth t := by
  induction t generalizing q with
  | leaf u =>
    obtain ⟨rfl, rfl⟩ : v = u ∧ q = [] := by simpa [leafPaths] using h
    exact Nat.le_refl 0
  | node l r ihl ihr =>
    rw [leafPaths, List.mem_append, List.mem_map, List.mem_map] at h
    simp only [treeDepth]
    rcases h with ⟨⟨u, p⟩, hp, he⟩ | ⟨⟨u, p⟩, hp, he⟩
    · obtain ⟨rfl, rfl⟩ := Prod.mk.inj he
      exact Nat.succ_le_succ ((ihl hp).trans (Nat.le_max_left _ _))
    · obtain ⟨rfl, rfl⟩ := Prod.mk.inj he
      exact Nat.succ_le_succ ((ihr hp).trans (Nat.le_max_right _ _))

/-- Below an internal root a path has a first bit. -/
theorem leafPaths_node_length_pos {l r : Tree} {v : Sym} {q : Bits}
    (h : (v, q) ∈ leafPaths (.node l r)) : 1 ≤ q.length := by
  rw [leafPaths, List.mem_append, List.mem_map, List.mem_map] at h
  rcases h with ⟨⟨u, p⟩, -, he⟩ | ⟨⟨u, p⟩, -, he⟩
  · obtain ⟨-, rfl⟩ := Prod.mk.inj he
    exact Nat.succ_pos _
  · obtain ⟨-, rfl⟩ := Prod.mk.inj he
    exact Nat.succ_pos _

/-- The path of a Symbol is the path of a leaf with that label (R142). -/
theorem codePath_mem {t : Tree} {k : Nat} {q : Bits} (h : codePath t k = some q) :
    ∃ v : Sym, v.toNat = k ∧ (v, q) ∈ leafPaths t := by
  obtain ⟨⟨v, p⟩, hlast, rfl⟩ := Option.map_eq_some_iff.mp h
  obtain ⟨hmem, hv⟩ := List.mem_filter.mp (List.mem_of_getLast? hlast)
  exact ⟨v, eq_of_beq hv, hmem⟩

/-- Every label of the tree has a path (R142). -/
theorem codePath_of_mem {t : Tree} {v : Sym} (h : v ∈ (leafPaths t).map (·.1)) :
    ∃ q, codePath t v.toNat = some q := by
  obtain ⟨p, hp, rfl⟩ := List.mem_map.mp h
  have hne : (leafPaths t).filter (fun w => w.1.toNat == p.1.toNat) ≠ [] :=
    List.ne_nil_of_mem (List.mem_filter.mpr ⟨hp, beq_self_eq_true _⟩)
  exact ⟨_, by rw [codePath, List.getLast?_eq_some_getLast hne]; rfl⟩

theorem codeEntry_valid_of_mem {t : Tree} {v : Sym} (h : v ∈ (leafPaths t).map (·.1)) :
    (codeEntry t v.toNat).valid = true := by
  obtain ⟨q, hq⟩ := codePath_of_mem h
  rw [codeEntry, hq]
  rfl

/-- A valid entry has 1 to 256 bits (R141, R264). -/
theorem codeEntry_len_range {l r : Tree} (hc : leafCount (.node l r) ≤ 257) {k : Nat}
    (hv : (codeEntry (.node l r) k).valid = true) :
    1 ≤ (codeEntry (.node l r) k).len.toNat ∧ (codeEntry (.node l r) k).len.toNat ≤ 256 := by
  cases hq : codePath (.node l r) k with
  | none =>
    rw [codeEntry, hq] at hv
    cases hv
  | some q =>
    obtain ⟨v, -, hmem⟩ := codePath_mem hq
    have hpos := leafPaths_node_length_pos hmem
    have hle := leafPaths_length_le hmem
    have hdepth := treeDepth_lt (.node l r)
    have hlen : (codeOfPath q).len.toNat = q.length := Nat.mod_eq_of_lt (by omega)
    rw [codeEntry, hq]
    show 1 ≤ (codeOfPath q).len.toNat ∧ (codeOfPath q).len.toNat ≤ 256
    omega

/-- The Code Table of a valid tree (R264). -/
theorem CodesFit.of_tree {s : State} {T : Tree} (ht : TreeOk s) (hT : s.tree = some T)
    (hcode : ∀ (k : Nat) (h : k < 257), s.code[k] = codeEntry T k) : CodesFit s := by
  obtain ⟨⟨l, r, rfl⟩, hc, -⟩ := ht.headerTree hT
  intro k h hv
  rw [hcode k h] at hv ⊢
  exact codeEntry_len_range hc hv

/-! ## The labels of a built tree -/

/-- A positive count is one of the table's positive counts (R121). -/
theorem mem_positives {freq : Vector Count 257} {k : Nat} {w : Count} (h : freq[k]? = some w)
    (hw : 0 < w) : (w, k) ∈ positives freq := by
  rw [positives, List.mem_filter, List.mem_zipIdx_iff_getElem?]
  exact ⟨by simpa using h, decide_eq_true hw⟩

/-- BUILD makes a leaf for every Symbol with a positive count (R121, R125, R129 (d)). -/
theorem BuildResult.label_mem {freq : Vector Count 257} {node : Vector Node 513} {nc root : Index}
    {T : Tree} {p : Count × Nat} (h : BuildResult freq node nc root T) (hp : p ∈ positives freq) :
    BitVec.ofNat 9 p.2 ∈ (leafPaths T).map (·.1) := by
  rcases h.length_eq_one_or with h1 | h2
  · obtain ⟨x, hx⟩ := List.length_eq_one_iff.mp h1
    obtain rfl : p = x := by simpa [hx] using hp
    have hg := h.greedy
    rw [greedyTree, hx] at hg
    cases hg
    exact List.mem_cons_self
  · exact (h.labels_perm h2).mem_iff.mpr (List.mem_map_of_mem hp)

/-- A counted Symbol has a code. -/
theorem BuildResult.codeEntry_valid {freq : Vector Count 257} {node : Vector Node 513}
    {nc root : Index} {T : Tree} {k : Nat} {w : Count} (h : BuildResult freq node nc root T)
    (hk : freq[k]? = some w) (hw : 0 < w) : (codeEntry T k).valid = true := by
  obtain ⟨hlt, -⟩ := Vector.getElem?_eq_some_iff.mp hk
  have hmem := codeEntry_valid_of_mem (h.label_mem (mem_positives hk hw))
  rwa [BitVec.toNat_ofNat, Nat.mod_eq_of_lt (by omega)] at hmem

end Sys2Proof.Machine
end

section
/-! COMPRESS of a whole input (spec/46_control.md R196, 30_encoding.md R85): COUNT, BUILD and DERIVE
make the tables, and the rest of the list writes the stream from them. -/

namespace Sys2Proof.Machine

/-! ## The tables -/

/-- The Frequency Table of some bytes, as COUNT makes it (R110). -/
def freqOf (bs : List Byte) : Vector Count 257 :=
  countBytes ((Vector.replicate 257 0).set 256 1) bs

/-- COUNT of an input within R112's limit makes its Frequency Table. -/
theorem countBody_counts {s : State} (hq : s.Quiet)
    (hl : (bytesOfBits s.unread).length ≤ maxBytes) :
    ∃ t, countBody s = .ok () t ∧ t.Quiet ∧
      t = { s with
        freq := freqOf (bytesOfBits s.unread), freqValid := true, treeValid := false,
        codeValid := false, inPos := s.inBits.length, answers := t.answers, trace := t.trace } :=
  ⟨_, countBody_ok hq hl, hq.of_drop rfl, rfl⟩

/-- BUILD of a Frequency Table ends as the accepted command does. -/
theorem buildBody_end {s : State} (hv : s.freqValid = true) (hf : FreqOk s) :
    ∃ t T, buildBody s = .ok () t ∧ BuildEnd s t T := by
  obtain ⟨node, nc, root, T, hbody, hres⟩ := buildBody_ok hv hf.sentinel_pos
  have hok := TreeOk.of_build (s := { s with node := node, ncount := nc, root := root })
    hf.sentinel_pos hres
  have ⟨_, _, hcap, hroot, _⟩ := hok
  exact ⟨_, T, hbody, rfl, hres, hok,
    treeAt_mono hres.tree (Nat.succ_le_succ (hroot.le.trans hcap))⟩

/-- DERIVE of the tree `T` makes its Code Table (R140). -/
theorem deriveBody_derives {s : State} {T : Tree} (hv : s.treeValid = true) (hok : TreeOk s)
    (hT : s.tree = some T) :
    ∃ t, deriveBody s = .ok () t ∧ t = { s with code := t.code, codeValid := true } ∧
      ∀ (k : Nat) (h : k < 257), t.code[k] = codeEntry T k := by
  obtain ⟨code, T', hbody, hT', hcode⟩ := deriveBody_ok hv hok
  cases hT'.symm.trans hT
  exact ⟨_, hbody, rfl, hcode⟩

/-- Where COUNT, BUILD and DERIVE of COMPRESS end: the Frequency Table of the unread input, its tree
and the tree's codes. -/
structure TablesMade (s t : State) (T : Tree) : Prop where
  frame : t = { s with
    freqValid := true, treeValid := true, codeValid := true, inPos := s.inBits.length,
    freq := t.freq, node := t.node, root := t.root, ncount := t.ncount, code := t.code,
    answers := t.answers, trace := t.trace }
  quiet : t.Quiet
  freq : t.freq = freqOf (bytesOfBits s.unread)
  freqOk : FreqOk t
  result : BuildResult t.freq t.node t.ncount t.root T
  ok : TreeOk t
  tree : t.tree = some T
  code : ∀ (k : Nat) (h : k < 257), t.code[k] = codeEntry T k

/-- The primitives of COMPRESS that write the stream (R196). -/
def writeList : List Primitive :=
  [⟨opWrmagic, wrmagicBody⟩, ⟨opWrtree, wrtreeBody⟩, ⟨opRewind, rewindBody⟩,
   ⟨opEncode, encodeBody⟩, ⟨opClose, closeBody⟩]

/-- COMPRESS up to WRMAGIC, on an input within R112's limit. -/
theorem compress_makes_tables {s : State} (hq : s.Quiet) (hc : s.outClosed = false)
    (hl : (bytesOfBits s.unread).length ≤ maxBytes) :
    ∃ t T, TablesMade s t T ∧
      runPrimitives opCompress compressList s = runPrimitives opCompress writeList t := by
  obtain ⟨t1, hcount, hq1, h1⟩ := countBody_counts hq hl
  have hf : FreqOk t1 := .of_count (by rw [h1]; rfl) hl
  obtain ⟨t2, T, hbuild, h2⟩ := buildBody_end (by rw [h1]) hf
  have hq2 : t2.Quiet := by rw [h2.frame]; exact hq1
  obtain ⟨t, hderive, ht, hcode⟩ := deriveBody_derives (by rw [h2.frame]) h2.ok h2.tree
  have hfreq : t.freq = t1.freq := by rw [ht, h2.frame]
  refine ⟨t, T, ⟨?_, ?_, ?_, ?_, ?_, ?_, ?_, hcode⟩, ?_⟩
  · rw [ht, h2.frame, h1]
  · rw [ht]; exact hq2
  · rw [hfreq, h1]
  · rw [FreqOk, hfreq]; exact hf
  · rw [hfreq, ht]; exact h2.result
  · rw [ht]; exact h2.ok
  · rw [ht]; exact h2.tree
  · rw [compressList, runPrimitives_ok (openCheck_ok hc), runPrimitives_ok hcount,
      runPrimitives_ok hbuild, runPrimitives_ok hderive, writeList]

/-- A byte that occurs has a positive count, since none has wrapped (R112). -/
theorem ofNat_count_pos {bs : List Byte} (hl : bs.length ≤ maxBytes) {b : Byte} (hb : b ∈ bs) :
    0 < BitVec.ofNat 32 (bs.count b) := by
  have hpos : 0 < bs.count b := List.count_pos_iff.mpr hb
  have hle : bs.count b ≤ bs.length := List.count_le_length
  have hmax : maxBytes = 2 ^ 32 - 2 := rfl
  rw [BitVec.lt_def, BitVec.toNat_ofNat, Nat.mod_eq_of_lt (by omega)]
  exact hpos

/-- An entry of the Code Table that has been made. -/
theorem TablesMade.code_get {s t : State} {T : Tree} (h : TablesMade s t T) {k : Nat}
    (hk : k < 257) : t.code[k]? = some (codeEntry T k) :=
  (Vector.getElem?_eq_getElem hk).trans (congrArg some (h.code k hk))

/-- Every byte of the input has a code. -/
theorem TablesMade.byte_code {s t : State} {T : Tree} (h : TablesMade s t T)
    (hl : (bytesOfBits s.unread).length ≤ maxBytes) {b : Byte} (hb : b ∈ bytesOfBits s.unread) :
    ∃ c, t.code[b.toNat]? = some c ∧ c.valid = true := by
  have hget : t.freq[b.toNat]? = some (BitVec.ofNat 32 ((bytesOfBits s.unread).count b)) := by
    rw [h.freq]
    exact countBytes_seed_get _ b
  exact ⟨_, h.code_get (b.isLt.trans (by decide)),
    h.result.codeEntry_valid hget (ofNat_count_pos hl hb)⟩

/-- The sentinel has a code. -/
theorem TablesMade.sentinel_code {s t : State} {T : Tree} (h : TablesMade s t T) :
    (codeEntry T 256).valid = true :=
  h.result.codeEntry_valid (Vector.getElem?_eq_getElem (by decide)) h.freqOk.sentinel_pos

/-! ## The stream -/

/-- WRTREE appends the header (R152). -/
theorem wrtreeBody_appends {s : State} {T : Tree} (hq : s.Quiet) (hv : s.treeValid = true)
    (hc : s.outClosed = false) (hT : s.tree = some T) :
    ∃ t, wrtreeBody s = .ok () t ∧ t.Quiet ∧ Appends (headerBits T) s t := by
  obtain ⟨tr, -, hbody⟩ := wrtreeBody_ok hq hv hc hT
  exact ⟨_, hbody, hq.of_drop rfl, rfl⟩

/-- ENCODE of the whole input appends the codes of its bytes and the sentinel's (R170, R172). -/
theorem encodeBody_rewound {s : State} {e : Code} (hq : s.Quiet) (hv : s.codeValid = true)
    (hc : s.outClosed = false) (hfit : CodesFit s)
    (hbytes : ∀ b ∈ bytesOfBits s.inBits, ∃ c, s.code[b.toNat]? = some c ∧ c.valid = true)
    (he : s.code[256]? = some e) (hev : e.valid = true) :
    ∃ t, encodeBody s.rewound = .ok () t ∧ t.Quiet ∧
      Appends (codeBits s.code (bytesOfBits s.inBits) ++ e.seq) { s with inPos := s.inBits.length }
        t := by
  have hq' : s.rewound.Quiet := hq.of_tail rfl
  have hu : s.rewound.unread = s.inBits := rfl
  obtain ⟨tr, hbody⟩ := encodeBody_ok (s := s.rewound) hq' hv hc hfit hbytes he hev
  refine ⟨_, hbody, hq'.of_drop rfl, ?_⟩
  rw [Appends, hu, ← List.append_assoc]
  rfl

/-- WRMAGIC to CLOSE of COMPRESS, over complete tables. -/
theorem compress_writes_stream {s : State} {T : Tree} {e : Code} (hq : s.Quiet)
    (htv : s.treeValid = true) (hcv : s.codeValid = true) (hc : s.outClosed = false)
    (hT : s.tree = some T) (hfit : CodesFit s)
    (hbytes : ∀ b ∈ bytesOfBits s.inBits, ∃ c, s.code[b.toNat]? = some c ∧ c.valid = true)
    (he : s.code[256]? = some e) (hev : e.valid = true) :
    ∃ t, runPrimitives opCompress writeList s = .next t ∧
      t = { s with
        mode := .idle, outClosed := true, outShut := true, inPos := s.inBits.length,
        outBits := padded (s.outBits ++ bitsOf 32 Config.magic.toNat ++ headerBits T ++
          codeBits s.code (bytesOfBits s.inBits) ++ e.seq),
        answers := t.answers, trace := t.trace } := by
  obtain ⟨t1, hwrtree, hq1, h1⟩ := wrtreeBody_appends (hq.putBits 32 Config.magic.toNat) htv hc hT
  have hhead := (putBits_appends 32 Config.magic.toNat s).trans h1
  rw [Appends] at hhead
  obtain ⟨t2, hencode, hq2, h2⟩ := encodeBody_rewound (s := t1) (e := e) hq1
    (by rw [hhead]; exact hcv) (by rw [hhead]; exact hc) (by rw [hhead]; exact hfit)
    (by rw [hhead]; exact hbytes) (by rw [hhead]; exact he) hev
  rw [Appends, hhead] at h2
  obtain ⟨t, hclose, ht⟩ := closeBody_closes hq2 (by rw [h2]; exact hc)
  refine ⟨t.withMode .idle, ?_, ?_⟩
  · rw [writeList, runPrimitives_ok (wrmagicBody_ok hq hc), runPrimitives_ok hwrtree,
      runPrimitives_ok (rewindBody_ok hq1), runPrimitives_ok hencode, runPrimitives_ok hclose,
      runPrimitives_nil]
  · rw [ht, h2]
    simp [State.withMode]

/-- Settles O42: the tables are those of the input, so every byte and the sentinel have a code, and
the stream is written from them; STATE is IDLE again at the end. -/
theorem compressWritesTheStream : Obligations.CompressWritesTheStream := by
  intro s ⟨hm, hq⟩ hc h0 hl
  have hu : s.unread = s.inBits := by rw [State.unread, h0, List.drop_zero]
  rw [← hu] at hl
  obtain ⟨t1, T, h1, hrun1⟩ := compress_makes_tables (s := s.withMode .busy) hq hc hl
  have hin : t1.inBits = s.inBits := by rw [h1.frame]; rfl
  obtain ⟨t, hrun, ht⟩ := compress_writes_stream h1.quiet (by rw [h1.frame]) (by rw [h1.frame])
    (by rw [h1.frame]; exact hc) h1.tree (.of_tree h1.ok h1.tree h1.code)
    (by rw [hin, ← hu]; exact fun b hb => h1.byte_code hl hb) (h1.code_get (by decide))
    h1.sentinel_code
  have hexec : exec .compress s = .next t := (acceptIdle_idle hm).trans (hrun1.trans hrun)
  have hfreq : t.freq = t1.freq := by rw [ht]
  have hcode : t.code = t1.code := by rw [ht]
  have htree : t.tree = t1.tree := by rw [ht]; rfl
  refine ⟨t, T, hexec, htree.trans h1.tree, ?_, fun v => ?_, ?_, fun k hk => ?_, ?_⟩
  · rw [hfreq]
    exact h1.result.greedy
  · rw [hfreq, h1.freq, ← hu]
    exact countBytes_seed_get _ v
  · rw [hfreq]
    exact h1.freqOk.1
  · rw [hcode]
    exact h1.code_get hk
  · rw [ht, h1.frame, ← hm]
    rfl

end Sys2Proof.Machine
end

section
/-! The Code Table of a valid tree and the tree's sizes (spec/47_properties.md R263, R264, R266):
what an entry can be, and that no path of a tree starts with another. -/

namespace Sys2Proof.Machine

/-! ## Codes are paths -/

theorem mem_leafPaths_node {l r : Tree} {v : Sym} {p : Bits} :
    (v, p) ∈ leafPaths (.node l r) ↔
      (∃ q, p = false :: q ∧ (v, q) ∈ leafPaths l) ∨ ∃ q, p = true :: q ∧ (v, q) ∈ leafPaths r := by
  simp [leafPaths, and_comm, eq_comm]

/-- A path that a path starts with leads to the same leaf (R266). -/
theorem leafPaths_label_eq_of_prefix {t : Tree} {u v : Sym} {p q : Bits}
    (hp : (u, p) ∈ leafPaths t) (hq : (v, q) ∈ leafPaths t) (h : p <+: q) : u = v := by
  induction t generalizing p q with
  | leaf w =>
    obtain ⟨rfl, -⟩ : u = w ∧ p = [] := by simpa [leafPaths] using hp
    obtain ⟨rfl, -⟩ : v = u ∧ q = [] := by simpa [leafPaths] using hq
    rfl
  | node l r ihl ihr =>
    rw [mem_leafPaths_node] at hp hq
    rcases hp with ⟨p, rfl, hp⟩ | ⟨p, rfl, hp⟩
    · rcases hq with ⟨q, rfl, hq⟩ | ⟨q, rfl, -⟩
      · exact ihl hp hq (List.cons_prefix_cons.mp h).2
      · cases (List.cons_prefix_cons.mp h).1
    · rcases hq with ⟨q, rfl, -⟩ | ⟨q, rfl, hq⟩
      · cases (List.cons_prefix_cons.mp h).1
      · exact ihr hp hq (List.cons_prefix_cons.mp h).2

theorem codeOfPath_len {q : Bits} (h : q.length ≤ 256) : (codeOfPath q).len.toNat = q.length :=
  Nat.mod_eq_of_lt (by omega)

theorem codeOfPath_bits {q : Bits} (h : q.length ≤ 256) : (codeOfPath q).bits.toNat = valOf q :=
  Nat.mod_eq_of_lt ((valOf_lt q).trans_le (Nat.pow_le_pow_right (by decide) h))

/-- The entry for a path stands for the path (R12, R141). -/
theorem codeOfPath_seq {q : Bits} (h : q.length ≤ 256) : (codeOfPath q).seq = q := by
  rw [Code.seq, codeOfPath_len h, codeOfPath_bits h, bitsOf_valOf]

/-- An entry of the Code Table of a tree is empty, or it is the path of a leaf with the entry's
Symbol (R140, R264). -/
theorem HeaderTree.codeEntry_cases {T : Tree} (hT : HeaderTree T) (k : Nat) :
    codeEntry T k = Code.none ∨ ∃ (v : Sym) (q : Bits), v.toNat = k ∧ (v, q) ∈ leafPaths T ∧
      1 ≤ q.length ∧ q.length ≤ 256 ∧ codeEntry T k = codeOfPath q := by
  obtain ⟨⟨l, r, rfl⟩, hc, -⟩ := hT
  cases hq : codePath (.node l r) k with
  | none => exact .inl (by rw [codeEntry, hq])
  | some q =>
    obtain ⟨v, hv, hmem⟩ := codePath_mem hq
    have hle := leafPaths_length_le hmem
    have hdepth := treeDepth_lt (.node l r)
    exact .inr ⟨v, q, hv, hmem, leafPaths_node_length_pos hmem, by omega, by rw [codeEntry, hq]⟩

/-- A valid entry stands for the path of a leaf with the entry's Symbol. -/
theorem HeaderTree.codeEntry_seq_mem {T : Tree} (hT : HeaderTree T) {k : Nat}
    (hv : (codeEntry T k).valid = true) :
    ∃ v : Sym, v.toNat = k ∧ (v, (codeEntry T k).seq) ∈ leafPaths T := by
  rcases hT.codeEntry_cases k with h | ⟨v, q, hk, hmem, -, hle, h⟩
  · rw [h] at hv
    cases hv
  · rw [h, codeOfPath_seq hle]
    exact ⟨v, hk, hmem⟩

/-- With CODE_VALID = 1, CODE is the Code Table of a tree (R264). -/
theorem ProductInv.code_get {s : State} (h : ProductInv s) (hv : s.codeValid = true) :
    ∃ T, HeaderTree T ∧ ∀ (k : Nat) (c : Code), s.code[k]? = some c → c = codeEntry T k := by
  obtain ⟨-, htree, hcode⟩ := h
  obtain ⟨htv, T, hT, hcode⟩ := hcode hv
  refine ⟨T, (htree htv).headerTree hT, fun k c hget => ?_⟩
  obtain ⟨hk, rfl⟩ := Vector.getElem?_eq_some_iff.mp hget
  exact hcode k hk

/-! ## The statements -/

/-- Settles O26: an entry is empty or a path of 1 to 256 bits, whose value has no more bits. -/
theorem validCodesFitTheirLength : Obligations.ValidCodesFitTheirLength := by
  intro s hs hv k c hget
  obtain ⟨T, hT, hcode⟩ := hs.code_get hv
  rw [hcode k c hget]
  rcases hT.codeEntry_cases k with h | ⟨v, q, -, -, hpos, hle, h⟩ <;> rw [h]
  · exact ⟨nofun, fun _ => rfl⟩
  · rw [codeOfPath_len hle, codeOfPath_bits hle]
    exact ⟨fun _ => ⟨hpos, hle, valOf_lt q⟩, nofun⟩

/-- Settles O27: codes are paths of one tree, and a path that another starts with leads to the same
leaf. -/
theorem codesArePrefixFree : Obligations.CodesArePrefixFree := by
  intro s hs hv j k c d hjk hc hd hcv hdv hprefix
  obtain ⟨T, hT, hcode⟩ := hs.code_get hv
  cases hcode j c hc
  cases hcode k d hd
  obtain ⟨u, rfl, hu⟩ := hT.codeEntry_seq_mem hcv
  obtain ⟨v, rfl, hv⟩ := hT.codeEntry_seq_mem hdv
  exact hjk (congrArg BitVec.toNat (leafPaths_label_eq_of_prefix hu hv hprefix))

/-- Settles O28: `T(ROOT)` has the node store's size, and a binary tree's counts bound its depth. -/
theorem validTreeSizeBounds : Obligations.ValidTreeSizeBounds := by
  intro s hs
  obtain ⟨l, r, hT, hleaves, hcount, -⟩ := hs.tree
  have hl := leafCount_pos l
  have hr := leafCount_pos r
  have hsum : leafCount (.node l r) = leafCount l + leafCount r := rfl
  have hinternal := internalCount_succ (.node l r)
  have hdepth := treeDepth_lt (.node l r)
  exact ⟨.node l r, hT, hcount, by omega, by omega, hleaves, by omega⟩

end Sys2Proof.Machine
end

section
/-! Every command ends (spec/47_properties.md R270, 20_memory.md R69; log entries 12 and 15): from a
state that meets the product invariant no part of a command reaches one of the model's own stops,
however the ports answer. -/

namespace Sys2Proof.Machine

/-- A part of a command that goes on or raises a fault of the hardware. -/
def Res.Ends {α : Type} (r : Res α) : Prop := ∀ x, r ≠ .stop x

theorem Res.Ends.ok {α : Type} (a : α) (s : State) : (Res.ok a s).Ends := nofun

theorem Res.Ends.raise {α : Type} (f : FaultCode) (s : State) : (Res.raise f s : Res α).Ends :=
  nofun

theorem Res.Ends.bind {α β : Type} {r : Res α} {k : α → State → Res β} (hr : r.Ends)
    (hk : ∀ a u, r = .ok a u → (k a u).Ends) : (r.bind k).Ends := by
  cases r with
  | ok a u => exact hk a u rfl
  | raise f u => exact .raise f u
  | stop x => exact absurd rfl (hr x)

theorem Res.Ends.of_eq {α : Type} {r r' : Res α} (h : r'.Ends) (e : r = r') : r.Ends := e ▸ h

/-! ## Shared operations -/

theorem require_ends (b : Bool) (s : State) : (require b s).Ends := by
  cases b with
  | true => exact .ok () s
  | false => exact .raise .seq s

/-- A precondition, and what runs behind it where it holds. -/
theorem require_bind_ends {α : Type} {b : Bool} {s : State} {k : Unit → State → Res α}
    (hk : b = true → (k () s).Ends) : ((require b s).bind k).Ends := by
  cases b with
  | true => exact hk rfl
  | false => exact .raise .seq s

theorem rd_ends (n : Nat) (s : State) : (rd n s).Ends := by
  rcases rd_cases n s with e | e | ⟨-, e⟩ <;> rw [e]
  · exact .raise _ _
  · exact .ok _ _
  · exact .ok _ _

theorem wr_ends {n : Nat} (h0 : 1 ≤ n) (h1 : n ≤ 256) (v : Nat) (s : State) : (wr n v s).Ends := by
  rcases wr_cases n v s with ⟨-, hn⟩ | e | e
  · omega
  · exact (Res.Ends.raise _ _).of_eq e
  · exact (Res.Ends.ok _ _).of_eq e

theorem rewindIn_ends (s : State) : (rewindIn s).Ends := by
  rcases rewindIn_cases s with e | e <;> rw [e]
  · exact .raise _ _
  · exact .ok _ _

theorem closeOut_ends (s : State) : (closeOut s).Ends := by
  rcases closeOut_cases s with e | e <;> rw [e]
  · exact .raise _ _
  · exact .ok _ _

/-! ## The primitives -/

/-- The product invariant gives the Code Table that ENCODE reads codes of legal length (R264). -/
theorem ProductInv.codesFit {s : State} (hs : ProductInv s) (hv : s.codeValid = true) :
    CodesFit s := by
  obtain ⟨-, htree, hcode⟩ := hs
  obtain ⟨htv, T, hT, hcode⟩ := hcode hv
  exact .of_tree (htree htv) hT hcode

theorem CodesFit.of_port {s t : State} (h : CodesFit s) (hf : PortFrame s t) : CodesFit t := by
  rw [PortFrame] at hf
  rw [hf]
  exact h

theorem countBody_ends (s : State) : (countBody s).Ends := by
  have hfuel := s.clearProducts.seedFreq.unread_length_lt_readBound
  exact Res.Ends.bind (countLoop_total hfuel) fun _ _ _ => .ok _ _

/-- BUILD: a Frequency Table counts the sentinel, so there is a tree (R111, R120). -/
theorem buildBody_ends {s : State} (hs : ProductInv s) : (buildBody s).Ends := by
  cases hv : s.freqValid with
  | false =>
    rw [buildBody, require_false hv, Res.bind_raise]
    exact .raise _ _
  | true =>
    obtain ⟨t, T, e, -⟩ := buildBody_end hv (hs.1 hv)
    exact (Res.Ends.ok _ _).of_eq e

/-- DERIVE: the walk over a valid tree ends, and no leaf is deeper than MAXLEN (R140, R263). -/
theorem deriveBody_ends {s : State} (hs : ProductInv s) : (deriveBody s).Ends := by
  obtain ⟨-, htree, -⟩ := hs
  cases hv : s.treeValid with
  | false =>
    rw [deriveBody, require_false hv, Res.bind_raise]
    exact .raise _ _
  | true =>
    obtain ⟨code, T, e, -⟩ := deriveBody_ok hv (htree hv)
    exact (Res.Ends.ok _ _).of_eq e

theorem wrtreeBody_ends {s : State} (hs : ProductInv s) : (wrtreeBody s).Ends := by
  obtain ⟨-, htree, -⟩ := hs
  refine require_bind_ends fun hb => ?_
  obtain ⟨hv, -⟩ := Bool.and_eq_true_iff.mp hb
  obtain ⟨l, r, hT, -⟩ := (htree hv).tree
  exact fun x => (putTree_total hT x).1

/-- ENCODE: every code has a legal length, before the loop and after it. -/
theorem encodeBody_ends {s : State} (hs : ProductInv s) : (encodeBody s).Ends := by
  refine require_bind_ends fun hb => ?_
  obtain ⟨hv, -⟩ := Bool.and_eq_true_iff.mp hb
  have hfit := hs.codesFit hv
  refine Res.Ends.bind (encodeLoop_total s.unread_length_lt_readBound hfit) fun _ u hu => ?_
  exact emitSymbol_total (by decide) (hfit.of_port ((encodeLoop_leaves _ s).of_ok hu))

theorem closeBody_ends (s : State) : (closeBody s).Ends :=
  require_bind_ends fun _ => (closeOut_ends s).bind fun _ _ _ => .ok _ _

theorem rdmagicBody_ends (s : State) : (rdmagicBody s).Ends := by
  refine (rd_ends 32 s).bind fun a u _ => ?_
  cases a with
  | none => exact .raise _ _
  | some v =>
    simp only []
    split
    · exact .ok _ _
    · exact .raise _ _

/-- RDTREE: `get()` ends, and the node it answers is stored (R160, R162). -/
theorem rdtreeBody_ends (s : State) : (rdtreeBody s).Ends := by
  have h0 : s.clearTree.noNodes.ncount.toNat = 0 := rfl
  refine Res.Ends.bind (getTree_total (by omega) (by rw [h0]; decide)) fun i u hu => ?_
  obtain ⟨-, t, hpre, -⟩ := getTree_sound (by omega) hu
  rw [readNode_some (Vector.getElem?_eq_getElem hpre.lt), Res.bind_ok]
  split
  · exact .raise _ _
  · exact .ok _ _

/-- DECODE: each iteration takes a bit, and a valid tree has a node wherever it looks (R180). -/
theorem decodeBody_ends {s : State} (hs : ProductInv s) : (decodeBody s).Ends := by
  obtain ⟨-, htree, -⟩ := hs
  refine require_bind_ends fun hb => ?_
  obtain ⟨hv, -⟩ := Bool.and_eq_true_iff.mp hb
  obtain ⟨l, r, hT, -⟩ := (htree hv).tree
  exact decodeLoop_total (by rw [State.unread_length, State.readBound]; omega) hT hT

/-! ## Commands -/

/-- A primitive that ends wherever the product invariant holds. -/
def SafePrimitive (body : State → Res Unit) : Prop :=
  IsPrimitive body ∧ ∀ s, ProductInv s → (body s).Ends

/-- Each primitive ends, and leaves the invariant to the next. -/
theorem runPrimitives_completes {op : OpCode} {ps : List Primitive} {s : State}
    (hp : ∀ p ∈ ps, SafePrimitive p.body) (hs : ProductInv s) :
    ∃ t, runPrimitives op ps s = .next t := by
  induction ps generalizing s with
  | nil => exact ⟨_, runPrimitives_nil op s⟩
  | cons p ps ih =>
    obtain ⟨⟨hprim, hends⟩, hps⟩ := List.forall_mem_cons.mp hp
    have hkeep := hprim.leaves_productInv hs
    cases hb : p.body s with
    | ok a u =>
      rw [runPrimitives_ok hb]
      exact ih hps (hkeep.of_ok hb)
    | raise f u => exact ⟨_, runPrimitives_raise hb⟩
    | stop x => exact absurd hb (hends s hs x)

theorem acceptIdle_completes {op : OpCode} {ps : List Primitive} {s : State}
    (hp : ∀ p ∈ ps, SafePrimitive p.body) (hs : ProductInv s) :
    ∃ t, acceptIdle (runPrimitives op ps) s = .next t := by
  by_cases hm : s.mode = .idle
  · rw [acceptIdle_idle hm]
    exact runPrimitives_completes hp (s := s.withMode .busy) hs
  · exact ⟨s, acceptIdle_other hm⟩

theorem runCommand_completes {op : OpCode} {body : State → Res Unit} {s : State}
    (hb : SafePrimitive body) (hs : ProductInv s) : ∃ t, runCommand op body s = .next t :=
  acceptIdle_completes (by simpa using hb) hs

theorem safe_count : SafePrimitive countBody := ⟨.count, fun s _ => countBody_ends s⟩
theorem safe_build : SafePrimitive buildBody := ⟨.build, fun _ => buildBody_ends⟩
theorem safe_derive : SafePrimitive deriveBody := ⟨.derive, fun _ => deriveBody_ends⟩
theorem safe_wrmagic : SafePrimitive wrmagicBody :=
  ⟨.write 32 _, fun s _ => require_bind_ends fun _ => wr_ends (by decide) (by decide) _ s⟩
theorem safe_wrtree : SafePrimitive wrtreeBody := ⟨.wrtree, fun _ => wrtreeBody_ends⟩
theorem safe_encode : SafePrimitive encodeBody := ⟨.encode, fun _ => encodeBody_ends⟩
theorem safe_close : SafePrimitive closeBody := ⟨.close, fun s _ => closeBody_ends s⟩
theorem safe_rewind : SafePrimitive rewindBody := ⟨.rewind, fun s _ => rewindIn_ends s⟩
theorem safe_rdmagic : SafePrimitive rdmagicBody := ⟨.rdmagic, fun s _ => rdmagicBody_ends s⟩
theorem safe_rdtree : SafePrimitive rdtreeBody := ⟨.rdtree, fun s _ => rdtreeBody_ends s⟩
theorem safe_decode : SafePrimitive decodeBody := ⟨.decode, fun _ => decodeBody_ends⟩
theorem safe_openCheck : SafePrimitive openCheck := ⟨.openCheck, fun s _ => require_ends _ s⟩

theorem compressList_safe : ∀ p ∈ compressList, SafePrimitive p.body := by
  simp only [compressList, List.forall_mem_cons]
  exact ⟨safe_openCheck, safe_count, safe_build, safe_derive, safe_wrmagic, safe_wrtree,
    safe_rewind, safe_encode, safe_close, nofun⟩

theorem decompressList_safe : ∀ p ∈ decompressList, SafePrimitive p.body := by
  simp only [decompressList, List.forall_mem_cons]
  exact ⟨safe_openCheck, safe_rdmagic, safe_rdtree, safe_decode, safe_close, nofun⟩

/-- CLEAR has no precondition and makes no port call (R190). -/
theorem exec_clear_completes (s : State) : ∃ t, exec .clear s = .next t := by
  by_cases hm : s.mode = .busy
  · exact ⟨s, exec_clear_busy hm⟩
  · exact ⟨_, exec_clear hm⟩

/-- Every host command ends in a next state (R270). -/
theorem exec_completes {i : Instr} {w : Byte} {s : State} (hi : i.commandWord = some w)
    (hs : ProductInv s) : ∃ t, exec i s = .next t := by
  cases i with
  | clear => exact exec_clear_completes s
  | count => exact runCommand_completes safe_count hs
  | build => exact runCommand_completes safe_build hs
  | derive => exact runCommand_completes safe_derive hs
  | wrmagic => exact runCommand_completes safe_wrmagic hs
  | wrtree => exact runCommand_completes safe_wrtree hs
  | encode => exact runCommand_completes safe_encode hs
  | close => exact runCommand_completes safe_close hs
  | rewind => exact runCommand_completes safe_rewind hs
  | rdmagic => exact runCommand_completes safe_rdmagic hs
  | rdtree => exact runCommand_completes safe_rdtree hs
  | decode => exact runCommand_completes safe_decode hs
  | compress => exact acceptIdle_completes compressList_safe hs
  | decompress => exact acceptIdle_completes decompressList_safe hs
  | magic | hdrInternal | hdrLeaf | codeword | literal8 => cases hi

theorem illegalCommand_completes (w : Byte) (s : State) : ∃ t, illegalCommand w s = .next t := by
  by_cases hm : s.mode = .idle
  · exact ⟨_, illegalCommand_idle w hm⟩
  · exact ⟨s, illegalCommand_of_not_idle w hm⟩

theorem writeCommand_completes {s : State} (w : Byte) (hs : ProductInv s) :
    ∃ t, writeCommand w s = .next t := by
  cases hd : decodeCommand w with
  | command i =>
    rw [writeCommand_command hd]
    exact exec_completes (commandWord_iff_decodeCommand.mpr hd) hs
  | illegal why =>
    rw [writeCommand_illegal hd]
    exact illegalCommand_completes w s

theorem hostStep_completes {s : State} (op : HostOp) (hs : ProductInv s) :
    ∃ t, hostStep op s = .next t := by
  cases op with
  | regRead n => exact ⟨_, rfl⟩
  | regWrite n v =>
    show ∃ t, regWrite n v s = .next t
    by_cases hn : n = 0x000
    · rw [hn, regWrite_cmd]
      exact writeCommand_completes _ hs
    · exact ⟨s, regWrite_other hn v s⟩
  | bindInput q => exact ⟨_, rfl⟩
  | hardReset => exact ⟨_, rfl⟩

/-- Settles O60: a command is a list of primitives, each of which ends and keeps the invariant; the
other acts of the host always have a next state. -/
theorem stepAlwaysCompletes : Obligations.StepAlwaysCompletes := by
  intro s hs
  cases ho : s.hostOps with
  | nil => exact ⟨s, step_nil ho⟩
  | cons op rest =>
    rw [step_cons ho]
    have hs' : ProductInv { s with hostOps := rest } := hs
    exact hostStep_completes op hs'

end Sys2Proof.Machine
end

section
/-! DECOMPRESS of a stream that is no compressed stream or is cut short (spec/47_properties.md R272
(d), (e), 46_control.md R200): which primitive raises, and what stands written then. -/

namespace Sys2Proof.Machine

/-- RDMAGIC raises E_FMT_MAGIC after its one read (R156). -/
theorem rdmagicBody_corrupt {s : State} (hq : s.Quiet)
    (h : s.inBits.length < s.inPos + 32 ∨ fieldAt 32 s.inBits s.inPos ≠ Config.magic) :
    rdmagicBody s = .raise .fmtMagic (s.takeRest 32) ∨
      rdmagicBody s = .raise .fmtMagic (s.takeBits 32) := by
  by_cases hlen : s.inBits.length < s.inPos + 32
  · exact .inl (rdmagicBody_short hq hlen)
  · exact .inr ((rdmagicBody_value hq (Nat.le_of_not_lt hlen)).trans (if_neg (h.resolve_left hlen)))

/-- A fault of RDMAGIC ends DECOMPRESS (R200). -/
theorem exec_decompress_rdmagic_raise {s t : State} {f : FaultCode} (hm : s.mode = .idle)
    (hc : s.outClosed = false) (h : rdmagicBody (s.withMode .busy) = .raise f t) :
    exec .decompress s = .next (t.raise f opRdmagic opDecompress) := by
  refine (acceptIdle_idle hm).trans ?_
  rw [decompressList, runPrimitives_ok (openCheck_ok (s := s.withMode .busy) hc),
    runPrimitives_raise h]

/-- Settles O44: the read of RDMAGIC is the only port call, whatever it finds. -/
theorem corruptedMagicWritesNothing : Obligations.CorruptedMagicWritesNothing := by
  intro s ⟨hm, hq⟩ hc hbad
  rcases rdmagicBody_corrupt (s := s.withMode .busy) hq hbad with h | h <;>
    exact ⟨_, exec_decompress_rdmagic_raise hm hc h, rfl, rfl, rfl, hc, rfl, rfl, rfl⟩

/-- Settles O45: RDMAGIC and RDTREE take the front of the stream, DECODE raises where the rest ends,
and CLOSE does not run. -/
theorem truncatedStreamIsNotSuccess : Obligations.TruncatedStreamIsNotSuccess := by
  intro s T ws v p q ⟨hm, hq⟩ hc hT hw hp hqp hne hu
  have hu0 : s.unread =
      bitsOf 32 Config.magic.toNat ++ (headerBits T ++ (pathBits ws ++ q)) := by
    simpa using hu
  obtain ⟨t1, h1, hrun1⟩ := decompress_reads_tree (s := s.withMode .busy) hq hc hT hu0
  obtain ⟨⟨l, r, rfl⟩, -⟩ := hT
  have hc1 : t1.outClosed = false := by rw [h1.frame]; exact hc
  have hv1 : t1.treeValid = true := by rw [h1.frame]
  obtain ⟨an, tr, hdecode⟩ :=
    decodeBody_short h1.quiet hv1 hc1 h1.tree hw hp hqp hne h1.unread
  refine ⟨_, (acceptIdle_idle hm).trans (hrun1.trans (runPrimitives_raise hdecode)), rfl, rfl, hc1,
    ?shut, ?bits, hv1⟩
  case shut =>
    show t1.outShut = s.outShut
    rw [h1.frame]
    rfl
  case bits =>
    show t1.outBits ++ literalBits ws = s.outBits ++ literalBits ws
    rw [h1.frame]
    rfl

end Sys2Proof.Machine
end

section
/-! COMPRESS depends on the input only, and DECOMPRESS gives the input back (spec/47_properties.md
R267, R271): the tree is that of the input's Frequency Table, and the stream written from it is one
that DECOMPRESS reads. -/

namespace Sys2Proof.Machine

/-! ## COMPRESS depends on the input only -/

/-- A table with the counts that R110 and R111 give is the one COUNT makes. -/
theorem eq_freqOf {f : Vector Count 257} {bs : List Byte} (hl : bs.length ≤ maxBytes)
    (hbyte : ∀ v : Byte, f[v.toNat]? = some (BitVec.ofNat 32 (bs.count v))) (hsent : f[256] = 1) :
    f = freqOf bs := by
  have hok : FreqOk { State.reset with freq := freqOf bs } := .of_count rfl hl
  obtain ⟨hone, -⟩ := hok
  ext1 k hk
  rcases Nat.lt_succ_iff_lt_or_eq.mp hk with hlt | rfl
  · have hget := (hbyte (BitVec.ofNat 8 k)).trans (countBytes_seed_get bs (BitVec.ofNat 8 k)).symm
    rw [BitVec.toNat_ofNat, Nat.mod_eq_of_lt hlt, Vector.getElem?_eq_getElem hk,
      Vector.getElem?_eq_getElem hk] at hget
    exact Option.some.inj hget
  · exact hsent.trans hone.symm

/-- Settles O46: both tables are that of the input; the tree is greedy on the table, and the codes
and the output are made from the tree and the input. -/
theorem compressDependsOnTheInputOnly : Obligations.CompressDependsOnTheInputOnly := by
  intro s u hs hu hsc huc hs0 hu0 hin hout hl
  obtain ⟨t, T, het, htree, hgreedy, hbyte, hsent, hcode, ht⟩ :=
    compressWritesTheStream s hs hsc hs0 hl
  obtain ⟨w, W, hew, hwtree, hwgreedy, hwbyte, hwsent, hwcode, hw⟩ :=
    compressWritesTheStream u hu huc hu0 (hin ▸ hl)
  rw [← hin] at hwbyte
  have hfreq : t.freq = w.freq :=
    (eq_freqOf hl hbyte hsent).trans (eq_freqOf hl hwbyte hwsent).symm
  obtain rfl : T = W := Option.some.inj (hgreedy.symm.trans (hfreq ▸ hwgreedy))
  have hcodes : t.code = w.code := by
    ext1 k hk
    have hget := (hcode k hk).trans (hwcode k hk).symm
    rw [Vector.getElem?_eq_getElem hk, Vector.getElem?_eq_getElem hk] at hget
    exact Option.some.inj hget
  refine ⟨t, w, het, hew, ?_, hfreq, hcodes, htree.trans hwtree.symm⟩
  have htout := congrArg State.outBits ht
  have hwout := congrArg State.outBits hw
  rw [htout, hwout, hout, hin, hcodes]

/-! ## COMPRESS leaves quiet ports quiet -/

/-- A property that every part keeps. -/
theorem Res.Leaves.bind_same {α β : Type} {P : State → Prop} {r : Res α} {k : α → State → Res β}
    (hr : r.Leaves P) (hk : ∀ a u, P u → (k a u).Leaves P) : (r.bind k).Leaves P :=
  hr.bind hk fun _ hu => hu

theorem rd_leaves_quiet (n : Nat) {s : State} (h : s.Quiet) : (rd n s).Leaves State.Quiet := by
  rcases rd_cases n s with e | e | ⟨-, e⟩ <;> rw [e] <;> exact h.of_tail rfl

theorem wr_leaves_quiet (n v : Nat) {s : State} (h : s.Quiet) : (wr n v s).Leaves State.Quiet := by
  rcases wr_cases n v s with ⟨e, -⟩ | e | e <;> rw [e]
  · trivial
  · exact h.of_tail rfl
  · exact h.of_tail rfl

theorem rewindIn_leaves_quiet {s : State} (h : s.Quiet) : (rewindIn s).Leaves State.Quiet := by
  rcases rewindIn_cases s with e | e <;> rw [e] <;> exact h.of_tail rfl

theorem closeOut_leaves_quiet {s : State} (h : s.Quiet) : (closeOut s).Leaves State.Quiet := by
  rcases closeOut_cases s with e | e <;> rw [e] <;> exact h.of_tail rfl

theorem putTree_leaves_quiet (fuel i : Nat) {s : State} (h : s.Quiet) :
    (putTree fuel i s).Leaves State.Quiet := by
  induction fuel generalizing i s with
  | zero => trivial
  | succ fuel ih =>
    rw [putTree]
    refine ((readNode_leaves i s).mono fun _ e => e ▸ h).bind_same fun n u hu => ?_
    split
    · exact (wr_leaves_quiet 1 1 hu).bind_same fun _ _ hw => wr_leaves_quiet 9 _ hw
    · exact (wr_leaves_quiet 1 0 hu).bind_same fun _ _ hw => (ih _ hw).bind_same fun _ _ => ih _

theorem emitSymbol_leaves_quiet (k : Nat) {s : State} (h : s.Quiet) :
    (emitSymbol k s).Leaves State.Quiet := by
  refine ((readCode_leaves k s).mono fun _ e => e ▸ h).bind_same fun c u hu => ?_
  cases c with
  | none => exact hu
  | some c => exact wr_leaves_quiet _ _ hu

theorem encodeLoop_leaves_quiet (fuel : Nat) {s : State} (h : s.Quiet) :
    (encodeLoop fuel s).Leaves State.Quiet := by
  induction fuel generalizing s with
  | zero => trivial
  | succ fuel ih =>
    refine (rd_leaves_quiet 8 h).bind_same fun a u hu => ?_
    cases a with
    | none => exact hu
    | some v => exact (emitSymbol_leaves_quiet _ hu).bind_same fun _ _ => ih

theorem require_bind_leaves_quiet {b : Bool} {s : State} {k : Unit → State → Res Unit}
    (h : s.Quiet) (hk : (k () s).Leaves State.Quiet) :
    ((require b s).bind k).Leaves State.Quiet := by
  cases b with
  | true => exact hk
  | false => exact h

theorem writeList_leaves_quiet :
    ∀ p ∈ writeList, ∀ u : State, u.Quiet → (p.body u).Leaves State.Quiet := by
  simp only [writeList, List.forall_mem_cons]
  refine ⟨fun u hu => ?magic, fun u hu => ?tree, fun u => rewindIn_leaves_quiet,
    fun u hu => ?encode, fun u hu => ?close, nofun⟩
  case magic => exact require_bind_leaves_quiet hu (wr_leaves_quiet 32 _ hu)
  case tree => exact require_bind_leaves_quiet hu (putTree_leaves_quiet _ _ hu)
  case encode =>
    exact require_bind_leaves_quiet hu
      ((encodeLoop_leaves_quiet _ hu).bind_same fun _ _ => emitSymbol_leaves_quiet _)
  case close =>
    exact require_bind_leaves_quiet hu ((closeOut_leaves_quiet hu).bind_same fun _ _ hw => hw)

/-- The answers are used up, and none is added (R68). -/
theorem exec_compress_quiet {s t : State} (hs : s.Ready) (hc : s.outClosed = false)
    (hl : (bytesOfBits s.unread).length ≤ maxBytes) (h : exec .compress s = .next t) :
    t.Quiet := by
  obtain ⟨hm, hq⟩ := hs
  obtain ⟨t1, T, h1, hrun⟩ := compress_makes_tables (s := s.withMode .busy) hq hc hl
  have hwrite : runPrimitives opCompress writeList t1 = .next t :=
    hrun.symm.trans ((acceptIdle_idle hm).symm.trans h)
  exact runPrimitives_leaves h1.quiet writeList_leaves_quiet (fun _ _ _ hu => hu) (fun _ hu => hu)
    hwrite

/-! ## The round trip -/

/-- The greedy tree of the Frequency Table of some bytes has a header, and codes for the bytes and
the sentinel. -/
theorem greedyTree_freqOf {bs : List Byte} {T : Tree} (hl : bs.length ≤ maxBytes)
    (hT : greedyTree (freqOf bs) = some T) :
    HeaderTree T ∧ (∀ b ∈ bs, (codeEntry T b.toNat).valid = true) ∧
      (codeEntry T 256).valid = true := by
  have hf : FreqOk { State.reset with freq := freqOf bs, freqValid := true } := .of_count rfl hl
  obtain ⟨t, T', -, hend⟩ := buildBody_end rfl hf
  obtain rfl : T' = T := Option.some.inj (hend.result.greedy.symm.trans hT)
  refine ⟨hend.ok.headerTree hend.tree, fun b hb => ?_, ?_⟩
  · exact hend.result.codeEntry_valid (countBytes_seed_get bs b) (ofNat_count_pos hl hb)
  · exact hend.result.codeEntry_valid (Vector.getElem?_eq_getElem (by decide)) hf.sentinel_pos

/-- The leaf whose code word ENCODE writes for a Symbol. -/
def symbolLeaf (T : Tree) (k : Nat) : Sym × Bits := (BitVec.ofNat 9 k, (codeEntry T k).seq)

theorem symbolLeaf_mem {T : Tree} (hT : HeaderTree T) {k : Nat}
    (hv : (codeEntry T k).valid = true) : symbolLeaf T k ∈ leafPaths T := by
  obtain ⟨v, rfl, hmem⟩ := hT.codeEntry_seq_mem hv
  rwa [symbolLeaf, BitVec.ofNat_toNat, BitVec.setWidth_eq]

/-- The label of a byte's leaf is the byte. -/
theorem symbolLeaf_toNat (T : Tree) (b : Byte) : (symbolLeaf T b.toNat).1.toNat = b.toNat :=
  Nat.mod_eq_of_lt (b.isLt.trans (by decide))

theorem literalLeaves_symbolLeaf {T : Tree} (hT : HeaderTree T) {bs : List Byte}
    (hv : ∀ b ∈ bs, (codeEntry T b.toNat).valid = true) :
    LiteralLeaves T (bs.map fun b => symbolLeaf T b.toNat) := by
  intro w hw
  obtain ⟨b, hb, rfl⟩ := List.mem_map.mp hw
  rw [symbolLeaf_toNat]
  exact ⟨symbolLeaf_mem hT (hv b hb), b.isLt.ne⟩

/-- What ENCODE writes for some bytes is the paths of their leaves. -/
theorem codeBits_eq_pathBits {code : Vector Code 257} {T : Tree}
    (hcode : ∀ k < 257, code[k]? = some (codeEntry T k)) (bs : List Byte) :
    codeBits code bs = pathBits (bs.map fun b => symbolLeaf T b.toNat) := by
  induction bs with
  | nil => rfl
  | cons b bs ih =>
    rw [codeBits_cons bs (hcode b.toNat (b.isLt.trans (by decide))), ih]
    rfl

/-- The literals of the bytes' leaves are the bytes. -/
theorem literalBits_symbolLeaf (T : Tree) (bs : List Byte) :
    literalBits (bs.map fun b => symbolLeaf T b.toNat) = bitsOfBytes bs := by
  induction bs with
  | nil => rfl
  | cons b bs ih =>
    rw [bitsOfBytes, ← ih, ← symbolLeaf_toNat T b]
    rfl

/-- Whole bytes get no padding (R57). -/
theorem padded_bitsOfBytes (bs : List Byte) : padded (bitsOfBytes bs) = bitsOfBytes bs := by
  simp [padded, padLen]

/-- DECOMPRESS of what COMPRESS writes of some bytes (R85, R198). -/
theorem decompress_of_compressed {s : State} {bs : List Byte} {T : Tree} {rest : Bits}
    (hs : s.Ready) (hc : s.outClosed = false) (ho : s.outBits = []) (hl : bs.length ≤ maxBytes)
    (hT : greedyTree (freqOf bs) = some T)
    (hu : s.unread = bitsOf 32 Config.magic.toNat ++ headerBits T ++
      pathBits (bs.map fun b => symbolLeaf T b.toNat) ++ (codeEntry T 256).seq ++ rest) :
    ∃ w, exec .decompress s = .next w ∧ w.mode = .idle ∧ w.outClosed = true ∧
      w.outBits = bitsOfBytes bs := by
  obtain ⟨hhead, hbytes, hsent⟩ := greedyTree_freqOf hl hT
  obtain ⟨w, hexec, -, hw⟩ := decompressReadsTheStream s T _ (BitVec.ofNat 9 256) _ rest hs hc hhead
    (literalLeaves_symbolLeaf hhead hbytes) (symbolLeaf_mem hhead hsent) rfl hu
  refine ⟨w, hexec, ?_, ?_, ?_⟩
  · rw [hw]; exact hs.1
  · rw [hw]
  · rw [hw, ho]
    simp only [List.nil_append]
    rw [literalBits_symbolLeaf, padded_bitsOfBytes]

/-- Settles O47: COMPRESS writes a stream of R85 over the greedy tree of the input, CLEAR makes it
the whole input, and DECOMPRESS writes the literals of its code words, which are the input's
bytes. -/
theorem compressDecompressRoundTrip : Obligations.CompressDecompressRoundTrip := by
  intro s bs hs hc ho h0 hin hl
  have hbytes : bytesOfBits s.inBits = bs := by rw [hin, bytesOfBits_bitsOfBytes]
  have hunread : s.unread = s.inBits := by rw [State.unread, h0, List.drop_zero]
  obtain ⟨t, T, hcompress, -, hgreedy, hcount, hsent, hcode, ht⟩ :=
    compressWritesTheStream s hs hc h0 (hbytes ▸ hl)
  rw [hbytes] at hcount ht
  rw [eq_freqOf hl hcount hsent] at hgreedy
  have hidle : t.mode = .idle := by rw [ht]; exact hs.1
  have hquiet : t.Quiet :=
    exec_compress_quiet hs hc (by rw [hunread, hbytes]; exact hl) hcompress
  have hclear : exec .clear { t with nextIn := t.outBits } = .next _ :=
    exec_clear (by rw [hidle]; nofun)
  generalize hu : State.newSession _ = u at hclear
  have hready : u.Ready := by rw [← hu]; exact ⟨rfl, hquiet⟩
  have hinput : u.unread = t.outBits := by rw [← hu]; rfl
  have hout := congrArg State.outBits ht
  simp only [ho, List.nil_append] at hout
  rw [padded, codeBits_eq_pathBits hcode] at hout
  obtain ⟨w, hexec, hend⟩ := decompress_of_compressed hready (by rw [← hu]; rfl) (by rw [← hu]; rfl)
    hl hgreedy (hinput.trans hout)
  exact ⟨t, u, w, hcompress, hclear, hexec, hend⟩

end Sys2Proof.Machine
end

section
/-! What IDLE answers with a fault before anything else has run (spec/60_exceptions.md R216, R217): a
word that is no row of the command table, and a command whose precondition fails. -/

namespace Sys2Proof.Machine

/-! ## Reserved command words -/

theorem commandTable_pat_lt : ∀ r ∈ commandTable, r.pat.toNat < 14 := by decide

theorem exists_commandTable_pat :
    ∀ n < 14, ∃ r ∈ commandTable, r.pat = BitVec.ofNat 8 n := by decide

/-- The command words are the values 0 to 13 (R81). -/
theorem exists_decodeCommand_iff {w : Byte} :
    (∃ i, decodeCommand w = .command i) ↔ w.toNat < 14 := by
  refine ⟨fun ⟨i, h⟩ => commandTable_pat_lt _ (decodeCommand_eq_command_iff.mp h), fun hw => ?_⟩
  obtain ⟨r, hr, hpat⟩ := exists_commandTable_pat w.toNat hw
  rw [BitVec.ofNat_toNat, BitVec.setWidth_eq] at hpat
  exact ⟨r.instr, hpat ▸ commandTable_decode r hr⟩

/-- A word that is no command is illegal (R83). -/
theorem exists_illegal_iff {w : Byte} :
    (∃ why, decodeCommand w = .illegal why) ↔ 14 ≤ w.toNat := by
  rw [← Nat.not_lt, ← exists_decodeCommand_iff]
  cases decodeCommand w with
  | command i => simp
  | illegal why => simp

/-- CMD[7:4] and CMD[3:0] are the digits of the word in base 16 (R80). -/
theorem reservedField_toNat (w : Byte) : (w.extractLsb' 4 4).toNat = w.toNat / 16 := by
  have hw := w.isLt
  rw [BitVec.extractLsb'_toNat, Nat.shiftRight_eq_div_pow]
  omega

theorem opOf_toNat (w : Byte) : (opOf w).toNat = w.toNat % 16 := by
  rw [opOf, BitVec.extractLsb'_toNat, Nat.shiftRight_zero]

/-- Reserved bits, or a reserved OP, are the values from 14 on (R83). -/
theorem reserved_iff {w : Byte} :
    (w.extractLsb' 4 4 ≠ 0#4 ∨ opOf w = 0xE ∨ opOf w = 0xF) ↔ 14 ≤ w.toNat := by
  simp only [ne_eq, ← BitVec.toNat_inj, reservedField_toNat, opOf_toNat, BitVec.ofNat_eq_ofNat,
    BitVec.toNat_ofNat]
  omega

/-- The host's write of an illegal word runs `illegalCommand` on the state without that act. -/
theorem step_write_illegal {s : State} {v : BitVec 266} {rest : List HostOp} {why : IllegalWord}
    (ho : s.hostOps = .regWrite 0x000 v :: rest) (hd : decodeCommand (v.setWidth 8) = .illegal why) :
    step s = illegalCommand (v.setWidth 8) { s with hostOps := rest } := by
  rw [step_cons ho]
  exact writeCommand_illegal hd _

/-- Settles O5: the commands are the values below 14, and the fault entry is all that an illegal
word does. -/
theorem reservedWordRaisesIllcmd : Obligations.ReservedWordRaisesIllcmd := by
  refine ⟨fun w => exists_illegal_iff.trans reserved_iff.symm, fun s v rest hm ho hres => ?_⟩
  obtain ⟨why, hd⟩ := exists_illegal_iff.mpr (reserved_iff.mp hres)
  rw [step_write_illegal ho hd]
  exact illegalCommand_idle _ hm

/-! ## Failed preconditions -/

theorem require_bind_false {α : Type} {b : Bool} {s : State} {k : Unit → State → Res α}
    (h : b = false) : (require b s).bind k = .raise .seq s := by
  rw [require_false h, Res.bind_raise]

theorem outOpen_of_closed {s : State} (hc : s.outClosed = true) : s.outOpen = false := by
  rw [State.outOpen, hc, Bool.not_true]

/-- A product and an open output (R82): either may be missing. -/
theorem and_outOpen_eq_false {b : Bool} {s : State} (h : b = false ∨ s.outClosed = true) :
    (b && s.outOpen) = false :=
  Bool.and_eq_false_iff.mpr (h.imp_right outOpen_of_closed)

/-- A command whose first primitive raises E_SEQ on the state as it finds it changes only ERR and
STATE (R216). -/
theorem acceptIdle_seq {cmd : OpCode} {p : Primitive} {ps : List Primitive} {s : State}
    (hm : s.mode = .idle)
    (h : p.body (s.withMode .busy) = .raise .seq (s.withMode .busy)) :
    acceptIdle (runPrimitives cmd (p :: ps)) s =
      .next { s with mode := .fault, err := ⟨8, p.op, cmd⟩ } := by
  rw [acceptIdle_idle hm, runPrimitives_raise h]
  rfl

/-- Settles O7: each command's first primitive opens with its precondition. -/
theorem failedPreconditionRaisesSeq : Obligations.FailedPreconditionRaisesSeq := by
  intro s hm
  refine ⟨fun h => ?build, fun h => ?derive, fun h => ?wrmagic, fun h => ?wrtree, fun h => ?encode,
    fun h => ?close, fun h => ?decode, fun h => ?compress, fun h => ?decompress⟩
  case build | derive => exact acceptIdle_seq hm (require_bind_false h)
  case wrmagic | close => exact acceptIdle_seq hm (require_bind_false (outOpen_of_closed h))
  case wrtree | encode | decode =>
    exact acceptIdle_seq hm (require_bind_false (and_outOpen_eq_false h))
  case compress | decompress => exact acceptIdle_seq hm (require_false (outOpen_of_closed h))

end Sys2Proof.Machine
end
